-- ==== Sys2Proof/Word.lean ====
section
/-!
DEFINITION. The word types of the block. Every quantity it moves is a byte (spec 20_memory R57), and everything is
unsigned (00_scope R11).
-/

namespace Sys2Proof

/-- A byte on the wire, in a status register or in the flash array (R11). Bit 0 is the least significant. -/
abbrev Byte := BitVec 8

end Sys2Proof
end

