-- ==== Sys2Proof/Syntax.lean ====
section
/-!
DEFINITION. The instructions: one constructor for each of the 35 rows of spec/opcode_table.json (sixteen host request
codes, nineteen wire commands), and the two raw forms an instruction arrives in: the request tuple at the host port
(30_encoding R80) and the frame of bytes inside one bracket on the wire (R85).
-/

namespace Sys2Proof

/-- The tuple a host presents (10_state R22, 30_encoding R80): the raw contents of the request latch. A field the
selected operation does not use is ignored. -/
structure Request where
  op     : BitVec 4
  block  : Byte
  sector : Byte
  page   : Byte
  offset : Byte
  reg    : BitVec 2
  mask   : Byte
  value  : Byte
  len    : Nat
  txbuf  : List Byte
  deriving DecidableEq, Repr, Inhabited

/-- The two places an instruction is fetched from: the host port and the bracket just closed on the wire. -/
inductive Fetched where
  | request (r : Request)
  | frame (bytes : List Byte)
  deriving DecidableEq, Repr

/-- The nineteen wire commands by name (30_encoding R88). -/
inductive WireOp where
  | wren | vwren | rsten | rst | read | pp | be | se | ce | blockLock | blockUnlock | rdlock | gunlock
  | rdsr1 | rdsr2 | rdsr3 | wrsr1 | wrsr2 | wrsr3
  deriving DecidableEq, Repr

/-- The rows of R88, in its order. -/
def WireOp.all : List WireOp :=
  [.wren, .vwren, .rsten, .rst, .read, .pp, .be, .se, .ce, .blockLock, .blockUnlock, .rdlock, .gunlock,
   .rdsr1, .rdsr2, .rdsr3, .wrsr1, .wrsr2, .wrsr3]

/-- One constructor per row of spec/opcode_table.json, in the table's order. -/
inductive Instr where
  /-- `init()`, OP 0 (R153). -/
  | init
  /-- `status_reg_write(register, mask, value)`, OP 1 (R133). -/
  | statusRegWrite (reg : BitVec 2) (mask value : Byte)
  /-- `status_reg_read(register)`, OP 2 (R132). -/
  | statusRegRead (reg : BitVec 2)
  /-- `write_enable()`, OP 3 (R134). -/
  | writeEnable
  /-- `volatile_write_enable()`, OP 4 (R135). -/
  | volatileWriteEnable
  /-- `reset()`, OP 5: resets the chip, not the block (R152). -/
  | reset
  /-- `read(block, sector, page, offset, out_buffer)`, OP 6; `len` is the buffer's length (R161). -/
  | read (block sector page offset : Byte) (len : Nat)
  /-- `page_program(block, sector, page, offset, tx_buffer, verify_buffer)`, OP 7; LEN is `tx.length` (R162). -/
  | pageProgram (block sector page offset : Byte) (tx : List Byte)
  /-- `block_erase(block)`, OP 8 (R171). -/
  | blockErase (block : Byte)
  /-- `sector_erase(block, sector)`, OP 9 (R172). -/
  | sectorErase (block sector : Byte)
  /-- `chip_erase()`, OP 10 (R173). -/
  | chipErase
  /-- `block_lock(block)`, OP 11 (R182). -/
  | blockLock (block : Byte)
  /-- `block_unlock(block)`, OP 12 (R183). -/
  | blockUnlock (block : Byte)
  /-- Reserved request code 13 (R84). -/
  | reserved13
  /-- Reserved request code 14 (R84). -/
  | reserved14
  /-- Reserved request code 15 (R84). -/
  | reserved15
  /-- write-enable, W0 (R204). -/
  | wireWren
  /-- volatile-write-enable, W0 (R205). -/
  | wireVwren
  /-- enable-reset, W0 (R215). -/
  | wireRsten
  /-- reset-device, W0 (R215). -/
  | wireRst
  /-- read, W4; `n` bytes were clocked after the header (R210). -/
  | wireRead (a2 a1 a0 : Byte) (n : Nat)
  /-- page-program, W5; `d` are the data bytes (R209). -/
  | wirePp (a2 a1 a0 : Byte) (d : List Byte)
  /-- block-erase, W3 (R211). -/
  | wireBe (a2 a1 a0 : Byte)
  /-- sector-erase, W3 (R211). -/
  | wireSe (a2 a1 a0 : Byte)
  /-- chip-erase, W0 (R211). -/
  | wireCe
  /-- block-lock, W3 (R213). -/
  | wireBlockLock (a2 a1 a0 : Byte)
  /-- block-unlock, W3 (R213). -/
  | wireBlockUnlock (a2 a1 a0 : Byte)
  /-- read-block-lock, W4 (R213). -/
  | wireRdlock (a2 a1 a0 : Byte) (n : Nat)
  /-- global-unlock, W0 (R213). -/
  | wireGunlock
  /-- status read of register 1, W2 (R206). -/
  | wireRdsr1 (n : Nat)
  /-- status read of register 2, W2 (R206). -/
  | wireRdsr2 (n : Nat)
  /-- status read of register 3, W2 (R206). -/
  | wireRdsr3 (n : Nat)
  /-- status write of register 1, W1 (R207). -/
  | wireWrsr1 (d : Byte)
  /-- status write of register 2, W1 (R207). -/
  | wireWrsr2 (d : Byte)
  /-- status write of register 3, W1 (R207). -/
  | wireWrsr3 (d : Byte)
  deriving DecidableEq, Repr

end Sys2Proof
end

