-- ==== Sys2Proof/Config.lean ====
section
/-!
DEFINITION. What an implementation fixes (00_scope R10) and the free values. The parameters are a plain record that
State carries unchanged, so a statement about every state is a statement about every setting (92_eei_decisions D5,
D11). The free values are constants with no body: nothing can be proved of what they are.
-/

namespace Sys2Proof.Config

/-- `ADDR_BITS` = 24: the array has 2^24 bytes (R10, R50). -/
abbrev arraySize : Nat := 16777216
/-- `BLOCK_SIZE` (R10). -/
abbrev blockSize : Nat := 65536
/-- `SECTOR_SIZE` (R10). -/
abbrev sectorSize : Nat := 4096
/-- `PAGE_SIZE` (R10). -/
abbrev pageSize : Nat := 256
/-- Highest legal sector and page coordinate (`SECTORS_PER_BLOCK` - 1 and `PAGES_PER_SECTOR` - 1, R10). -/
abbrev maxCoord : Nat := 15
/-- `FILLER`, clocked out while receiving (R10, R112). -/
abbrev filler : Byte := 0x00
/-- `ERASED`, the value of every byte of an erased region (R10, R174). -/
abbrev erased : Byte := 0xFF
/-- `BUSY_BIT` of status register 1 (R10, R28). -/
abbrev busyBit : Nat := 0
/-- `WEL_BIT` of status register 1 (R10, R28). -/
abbrev welBit : Nat := 1
/-- `WPS_BIT` of status register 3 (R10, R30). -/
abbrev wpsBit : Nat := 2
/-- `T_SRW_US` (R10, R274). -/
abbrev tSrwUs : Nat := 1
/-- `T_RST_US` (R10, R274). -/
abbrev tRstUs : Nat := 30
/-- `T_CE_MS` = 150, in microseconds (R10, R250, R274). -/
abbrev tCeUs : Nat := 150000
/-- `SR_READ_LEN` (R10, R90). -/
abbrev srReadLen : Nat := 1

/-- The nineteen open opcode bytes `OP_*` (R88): compile-time constant data, one immutable record. -/
structure OpcodeTable where
  wren : Byte
  vwren : Byte
  rsten : Byte
  rst : Byte
  read : Byte
  pp : Byte
  be : Byte
  se : Byte
  ce : Byte
  blockLock : Byte
  blockUnlock : Byte
  rdlock : Byte
  gunlock : Byte
  rdsr1 : Byte
  rdsr2 : Byte
  rdsr3 : Byte
  wrsr1 : Byte
  wrsr2 : Byte
  wrsr3 : Byte
  deriving DecidableEq, Repr

/-- The default column of R88 (there marked as general knowledge, D5): what the spec's vectors use. -/
def OpcodeTable.defaults : OpcodeTable where
  wren := 0x06
  vwren := 0x50
  rsten := 0x66
  rst := 0x99
  read := 0x03
  pp := 0x02
  be := 0xD8
  se := 0x20
  ce := 0xC7
  blockLock := 0x36
  blockUnlock := 0x39
  rdlock := 0x3D
  gunlock := 0x98
  rdsr1 := 0x05
  rdsr2 := 0x35
  rdsr3 := 0x15
  wrsr1 := 0x01
  wrsr2 := 0x31
  wrsr3 := 0x11

/-- What a poll loop does when its status read fails: `POLL_FAIL` (R10, R130, D11). -/
inductive PollFail where
  | abort
  | retry
  deriving DecidableEq, Repr

/-- The open parameters of R10 and of the responder (R207, R213). -/
structure Params where
  /-- `OP_*` (R88). -/
  ops : OpcodeTable
  /-- `POLL_FAIL` (R130). -/
  pollFail : PollFail
  /-- `LOCK_BIT` (R92). -/
  lockBit : Fin 8
  /-- `LEN_MAX`; `none` is the default, unbounded (R10, D4). -/
  lenMax : Option Nat
  /-- `XFER_RETRY_BOUND`; the spec gives none and no rule reads it (R117, D36). -/
  xferRetryBound : Option Nat
  /-- `LOCK_CLEARS_WEL` (R213). -/
  lockClearsWel : Bool
  /-- `RO(1)`: read-only bits of status register 1 (R207). -/
  ro1 : Byte
  /-- `RO(2)` (R207). -/
  ro2 : Byte
  /-- `RO(3)` (R207). -/
  ro3 : Byte
  deriving DecidableEq, Repr

/-- The defaults: R88, `POLL_FAIL` = abort, `LOCK_BIT` = 0, no `LEN_MAX`, no retry bound, `LOCK_CLEARS_WEL` = true,
`RO(1)` = 0x03, `RO(2)` = `RO(3)` = 0. -/
def Params.defaults : Params where
  ops := .defaults
  pollFail := .abort
  lockBit := 0
  lenMax := none
  xferRetryBound := none
  lockClearsWel := true
  ro1 := 0x03
  ro2 := 0x00
  ro3 := 0x00

/-- What the physical link does with one `Exchange` (R117): it delivers every byte; or reports an in-progress
transaction at entry; or the transmit side of byte `i` (counting from 0) never becomes ready; or byte `i` is sent and
its receive side never becomes ready. -/
inductive LinkOutcome where
  | delivered
  | busyAtEntry
  | txTimeout (i : Nat)
  | rxTimeout (i : Nat)
  deriving DecidableEq, Repr, Inhabited

/-- What the reset-device command leaves in the volatile chip state (R215): `sr1` gives bits 7:2 only. -/
structure ChipImage where
  sr1 : Byte
  sr2 : Byte
  sr3 : Byte
  lock : BitVec 256
  deriving DecidableEq, Repr, Inhabited

/-- Free value: the outcome of an `Exchange` (93 U4; log 4). -/
opaque freeLink : Nat → LinkOutcome
/-- Free value: whether the chip's `Complete` fires at this point (R208, 93 U9; log 5). -/
opaque freeComplete : Nat → Bool
/-- Free value: a byte the chip drives where the spec fixes none (R203, 93 U3, U5; log 6). -/
opaque freeChipByte : Nat → Byte
/-- Free value: the volatile state after reset-device (R215, 93 U8; log 7). -/
opaque freeImage : Nat → ChipImage
/-- Free value: byte `i` of the bytes a failed `Exchange` returns (R119, 93 U5; log 8). -/
opaque freeFailedRx : Nat → Nat → Byte
/-- Free value: `OK` while no response stands (R25; log 9). -/
opaque freeOk : Nat → Bool
/-- Free value: an unspecified `RVAL` (R25, R242; log 9). -/
opaque freeRval : Nat → Byte
/-- Free value: byte `i` of an unspecified `RXBUF` (R25, R242; log 9). -/
opaque freeRxbuf : Nat → Nat → Byte
/-- Free value: byte `i` of an unspecified `VBUF` (R25, R242; log 9). -/
opaque freeVbuf : Nat → Nat → Byte
/-- Free value: the request latch after a block reset (R260; log 9). -/
opaque freeRequest : Nat → Request
/-- `LegacyProt(SR1, SR2, a)`: the protection in force while WPS = 0, an uninterpreted predicate (R212, 93 U14). -/
opaque legacyProt : Byte → Byte → Nat → Bool

end Sys2Proof.Config
end

