-- ==== Sys2Proof/WellFormed.lean ====
section
/-!
DEFINITION. Which instructions the two ports can carry. Widths are in the types; two bounds are not: `LEN_MAX` on the
length of a read request (00_scope R10, 10_state R22) and the 256 data bytes of a W5 frame (30_encoding R85). An operand
the spec rejects with `OK = 0` (SECTOR or PAGE above 15, REG = 0, an oversized program) is well-formed: its rejection is
its meaning.
-/

namespace Sys2Proof

/-- `LEN` is one a read request may carry (R10: 0 to `LEN_MAX`; no bound when `LEN_MAX` is not given). -/
def Config.Params.carries (p : Config.Params) (len : Nat) : Bool :=
  match p.lenMax with
  | none => true
  | some m => decide (len ≤ m)

/-- The instruction can be presented (R22) or sent (R85) under the parameters `p`. -/
def Instr.wf (p : Config.Params) (i : Instr) : Bool :=
  match i with
  | .init => true
  | .statusRegWrite _ _ _ => true
  | .statusRegRead _ => true
  | .writeEnable => true
  | .volatileWriteEnable => true
  | .reset => true
  | .read _ _ _ _ len => p.carries len
  | .pageProgram _ _ _ _ _ => true
  | .blockErase _ => true
  | .sectorErase _ _ => true
  | .chipErase => true
  | .blockLock _ => true
  | .blockUnlock _ => true
  | .reserved13 => true
  | .reserved14 => true
  | .reserved15 => true
  | .wireWren => true
  | .wireVwren => true
  | .wireRsten => true
  | .wireRst => true
  | .wireRead _ _ _ _ => true
  | .wirePp _ _ _ d => decide (d.length ≤ Config.pageSize)
  | .wireBe _ _ _ => true
  | .wireSe _ _ _ => true
  | .wireCe => true
  | .wireBlockLock _ _ _ => true
  | .wireBlockUnlock _ _ _ => true
  | .wireRdlock _ _ _ _ => true
  | .wireGunlock => true
  | .wireRdsr1 _ => true
  | .wireRdsr2 _ => true
  | .wireRdsr3 _ => true
  | .wireWrsr1 _ => true
  | .wireWrsr2 _ => true
  | .wireWrsr3 _ => true

end Sys2Proof
end

