-- ==== Sys2Proof/Decode.lean ====
section
/-!
DEFINITION. Decoding, total on every request tuple and every frame of bytes, and the encoder. The host port carries the
tuple of 30_encoding R80, selected by OP (R81, R84); the wire carries the frames of R85, selected by byte 0 through the
opcode table of R88 and cut by the select line (R87, 46 R202, R216).
-/

namespace Sys2Proof

/-- Why a fetched word is no instruction. -/
inductive DecodeError where
  /-- A read request with `LEN` above `LEN_MAX`: no request can carry it (R10). -/
  | lenAboveMax
  /-- A page-program request whose `TXBUF` does not have `LEN` bytes (R22, R81). -/
  | bufferMismatch
  /-- A bracket closed with nothing delivered (R202). -/
  | emptyFrame
  /-- Byte 0 is no opcode of the table (R202, R216). -/
  | unknownOpcode
  /-- The frame is too short for its format (R202, R216). -/
  | shortFrame
  deriving DecidableEq, Repr

/-- The byte of a wire command in an opcode table (R88). -/
def Config.OpcodeTable.code (t : Config.OpcodeTable) : WireOp → Byte
  | .wren => t.wren
  | .vwren => t.vwren
  | .rsten => t.rsten
  | .rst => t.rst
  | .read => t.read
  | .pp => t.pp
  | .be => t.be
  | .se => t.se
  | .ce => t.ce
  | .blockLock => t.blockLock
  | .blockUnlock => t.blockUnlock
  | .rdlock => t.rdlock
  | .gunlock => t.gunlock
  | .rdsr1 => t.rdsr1
  | .rdsr2 => t.rdsr2
  | .rdsr3 => t.rdsr3
  | .wrsr1 => t.wrsr1
  | .wrsr2 => t.wrsr2
  | .wrsr3 => t.wrsr3

/-- The nineteen values are pairwise distinct, as R89 requires of a table. -/
abbrev Config.OpcodeTable.Distinct (t : Config.OpcodeTable) : Prop := (WireOp.all.map t.code).Nodup

/-- The command a byte selects. For a table that is not distinct (R89: outside the spec) the first row wins. -/
def Config.OpcodeTable.lookup (t : Config.OpcodeTable) (b : Byte) : Option WireOp :=
  WireOp.all.find? fun w => t.code w == b

/-- The instruction a request tuple selects (R81, R84). -/
def decodeRequest (p : Config.Params) (r : Request) : Except DecodeError Instr :=
  match r.op.toNat with
  | 0 => .ok .init
  | 1 => .ok (.statusRegWrite r.reg r.mask r.value)
  | 2 => .ok (.statusRegRead r.reg)
  | 3 => .ok .writeEnable
  | 4 => .ok .volatileWriteEnable
  | 5 => .ok .reset
  | 6 => if p.carries r.len then .ok (.read r.block r.sector r.page r.offset r.len) else .error .lenAboveMax
  | 7 =>
    if r.len = r.txbuf.length then .ok (.pageProgram r.block r.sector r.page r.offset r.txbuf)
    else .error .bufferMismatch
  | 8 => .ok (.blockErase r.block)
  | 9 => .ok (.sectorErase r.block r.sector)
  | 10 => .ok .chipErase
  | 11 => .ok (.blockLock r.block)
  | 12 => .ok (.blockUnlock r.block)
  | 13 => .ok .reserved13
  | 14 => .ok .reserved14
  | _ => .ok .reserved15

/-- A frame that needs a three-byte address (R86: bytes 1 to 3); shorter ones are ignored (R216). -/
def withAddress (rest : List Byte) (k : Byte → Byte → Byte → List Byte → Instr) : Except DecodeError Instr :=
  match rest with
  | a2 :: a1 :: a0 :: tail => .ok (k a2 a1 a0 tail)
  | _ => .error .shortFrame

/-- A W1 frame (R86: byte 1 is the data byte); one without it is ignored (R216). -/
def withData (rest : List Byte) (k : Byte → Instr) : Except DecodeError Instr :=
  match rest with
  | d :: _ => .ok (k d)
  | [] => .error .shortFrame

/-- The command in a closed frame (R202). Bytes after a command's format are ignored (R216). -/
def decodeFrame (p : Config.Params) : List Byte → Except DecodeError Instr
  | [] => .error .emptyFrame
  | op :: rest =>
    match p.ops.lookup op with
    | none => .error .unknownOpcode
    | some .wren => .ok .wireWren
    | some .vwren => .ok .wireVwren
    | some .rsten => .ok .wireRsten
    | some .rst => .ok .wireRst
    | some .read => withAddress rest fun a2 a1 a0 t => .wireRead a2 a1 a0 t.length
    | some .pp => withAddress rest fun a2 a1 a0 t => .wirePp a2 a1 a0 (t.take Config.pageSize)
    | some .be => withAddress rest fun a2 a1 a0 _ => .wireBe a2 a1 a0
    | some .se => withAddress rest fun a2 a1 a0 _ => .wireSe a2 a1 a0
    | some .ce => .ok .wireCe
    | some .blockLock => withAddress rest fun a2 a1 a0 _ => .wireBlockLock a2 a1 a0
    | some .blockUnlock => withAddress rest fun a2 a1 a0 _ => .wireBlockUnlock a2 a1 a0
    | some .rdlock => withAddress rest fun a2 a1 a0 t => .wireRdlock a2 a1 a0 t.length
    | some .gunlock => .ok .wireGunlock
    | some .rdsr1 => .ok (.wireRdsr1 rest.length)
    | some .rdsr2 => .ok (.wireRdsr2 rest.length)
    | some .rdsr3 => .ok (.wireRdsr3 rest.length)
    | some .wrsr1 => withData rest .wireWrsr1
    | some .wrsr2 => withData rest .wireWrsr2
    | some .wrsr3 => withData rest .wireWrsr3

/-- Decoding at either port. -/
def decode (p : Config.Params) : Fetched → Except DecodeError Instr
  | .request r => decodeRequest p r
  | .frame f => decodeFrame p f

/-- A request tuple with every operand zero or empty. -/
def Request.blank (op : BitVec 4) : Request where
  op := op
  block := 0
  sector := 0
  page := 0
  offset := 0
  reg := 0
  mask := 0
  value := 0
  len := 0
  txbuf := []

/-- The `n` filler bytes a receive phase puts on the wire (R85). -/
def fillerBytes (n : Nat) : List Byte := List.replicate n Config.filler

/-- The tuple (R81) or the frame (R85, R86, R88) of an instruction; operands it does not use are zero. -/
def encode (p : Config.Params) (i : Instr) : Fetched :=
  match i with
  | .init => .request (.blank 0)
  | .statusRegWrite reg mask value => .request { Request.blank 1 with reg := reg, mask := mask, value := value }
  | .statusRegRead reg => .request { Request.blank 2 with reg := reg }
  | .writeEnable => .request (.blank 3)
  | .volatileWriteEnable => .request (.blank 4)
  | .reset => .request (.blank 5)
  | .read block sector page offset len =>
    .request { Request.blank 6 with block := block, sector := sector, page := page, offset := offset, len := len }
  | .pageProgram block sector page offset tx =>
    .request { Request.blank 7 with
      block := block, sector := sector, page := page, offset := offset, len := tx.length, txbuf := tx }
  | .blockErase block => .request { Request.blank 8 with block := block }
  | .sectorErase block sector => .request { Request.blank 9 with block := block, sector := sector }
  | .chipErase => .request (.blank 10)
  | .blockLock block => .request { Request.blank 11 with block := block }
  | .blockUnlock block => .request { Request.blank 12 with block := block }
  | .reserved13 => .request (.blank 13)
  | .reserved14 => .request (.blank 14)
  | .reserved15 => .request (.blank 15)
  | .wireWren => .frame [p.ops.wren]
  | .wireVwren => .frame [p.ops.vwren]
  | .wireRsten => .frame [p.ops.rsten]
  | .wireRst => .frame [p.ops.rst]
  | .wireRead a2 a1 a0 n => .frame ([p.ops.read, a2, a1, a0] ++ fillerBytes n)
  | .wirePp a2 a1 a0 d => .frame ([p.ops.pp, a2, a1, a0] ++ d)
  | .wireBe a2 a1 a0 => .frame [p.ops.be, a2, a1, a0]
  | .wireSe a2 a1 a0 => .frame [p.ops.se, a2, a1, a0]
  | .wireCe => .frame [p.ops.ce]
  | .wireBlockLock a2 a1 a0 => .frame [p.ops.blockLock, a2, a1, a0]
  | .wireBlockUnlock a2 a1 a0 => .frame [p.ops.blockUnlock, a2, a1, a0]
  | .wireRdlock a2 a1 a0 n => .frame ([p.ops.rdlock, a2, a1, a0] ++ fillerBytes n)
  | .wireGunlock => .frame [p.ops.gunlock]
  | .wireRdsr1 n => .frame ([p.ops.rdsr1] ++ fillerBytes n)
  | .wireRdsr2 n => .frame ([p.ops.rdsr2] ++ fillerBytes n)
  | .wireRdsr3 n => .frame ([p.ops.rdsr3] ++ fillerBytes n)
  | .wireWrsr1 d => .frame [p.ops.wrsr1, d]
  | .wireWrsr2 d => .frame [p.ops.wrsr2, d]
  | .wireWrsr3 d => .frame [p.ops.wrsr3, d]

/-- Where the table's numbering of a word puts it: a number below 16 in one byte is a request code (the table gives
those rows the four bits OP[3:0]), anything else a frame whose byte 0 is the opcode, with four more bytes, so that the
longest fixed part (header and one data byte) is there. Five of the table's wire opcodes (01, 02, 03, 05, 06) share
their bits with a request code; there this table reader answers the request (log 12). -/
def tableWord (nbits w : Nat) : Fetched :=
  if nbits ≤ 8 ∧ w < 16 then .request (.blank (BitVec.ofNat 4 w))
  else .frame ((List.range ((nbits + 7) / 8 + 4)).map fun k => BitVec.ofNat 8 (w >>> (8 * k)))

/-- What the decoder reads from a word of spec/opcode_table.json, with the default parameters. -/
def decodeTableWord (nbits w : Nat) : Option Instr :=
  match decode Config.Params.defaults (tableWord nbits w) with
  | .ok i => some i
  | .error _ => none

end Sys2Proof
end

