-- ==== Sys2Proof/Machine/State.lean ====
section
/-!
DEFINITION. The state of the block, of the chip behind the wire and of the environment that answers them, as plain data;
the two closed reason types; and the state after reset (10_state R20 to R37, 46 R201, 70 R260).
-/

namespace Sys2Proof.Machine

/-- The flash array (R27, R50): the listed bytes, addresses strictly rising, none equal to what an unlisted address reads
as (`Memory.wf`, Ops.lean). -/
abbrev Memory := List Host.Cell

/-- Position inside one bracket (R116) or between brackets: before `CsLow`, before the first `Exchange`, before the
second, before `CsHigh`, and after it, when the result is judged. -/
inductive Stage where
  | low | send | recv | high | judge
  deriving DecidableEq, Repr

/-- The position inside the running operation (R23) and the pseudocode's local values, which live no longer than the
operation does (R21). -/
structure Phase where
  /-- Index of the current step in the operation's pseudocode, subroutines written out. -/
  pc : Nat
  stage : Stage
  /-- Whether the exchanges of the current bracket have succeeded so far. -/
  ok : Bool
  /-- The bytes the current bracket's receive phase returned. -/
  rx : List Byte
  /-- `old` of `status_reg_write` (R133 step 2). -/
  old : Byte
  deriving DecidableEq, Repr

/-- The response latch (R25, R83). -/
structure Response where
  ok    : Bool
  rval  : Byte
  rxbuf : List Byte
  vbuf  : List Byte
  deriving DecidableEq, Repr

/-- The ghost causes of a failed operation (60 R230). -/
inductive Cause where
  | transportFailure
  | addressRangeError
  | verificationMismatch
  | lockStateConflict
  | latchVerifyFailure
  | statusVerifyMismatch
  | resetVerifyFailure
  | illegalRequest
  deriving DecidableEq, Repr

/-- The events of the observable trace (00_scope R13). -/
inductive Event where
  | req (r : Request)
  | cs (level : Bool)
  | x (tx rx : List Byte) (ok : Bool)
  | d (us : Nat)
  | resp (r : Response)
  deriving DecidableEq, Repr

/-- The flash chip (R27, R28 to R33, R201). -/
structure Chip where
  sr1   : Byte
  sr2   : Byte
  sr3   : Byte
  /-- Bit `b` is `LOCK[b]`. -/
  lock  : BitVec 256
  array : Memory
  /-- A volatile-write-enable is pending. -/
  vsrEn : Bool
  /-- An enable-reset was the previous command. -/
  rstEn : Bool
  /-- Bytes received since the last `CS(0)`; empty when `cs_n = 1`. -/
  frame : List Byte
  /-- The frame the last `CS(1)` closed, until the chip executes it. -/
  closed : Option (List Byte)
  deriving DecidableEq, Repr

/-- Who answers the bytes the block clocks in (46, preamble; R218): the reference responder, or a chip that may answer
anything (a malfunctioning or absent one among them). -/
inductive Answers where
  | responder
  | free
  deriving DecidableEq, Repr

/-- The environment's coming choices: for each kind, the ones already decided, oldest first, and after those the free
values of Config, drawn by a counter. -/
structure Env where
  answers  : Answers
  link     : List Config.LinkOutcome
  complete : List Bool
  bytes    : List Byte
  images   : List Config.ChipImage
  draws    : Nat
  deriving DecidableEq, Repr

/-- The whole machine. -/
structure State where
  /-- The parameters (00_scope R10); no step changes them. -/
  cfg     : Config.Params
  /-- Requests the host will present, in order (R20). -/
  inbox   : List Request
  /-- Whether the platform resets the block at each coming step; not at all once the list is used up (R273). -/
  rstLine : List Bool
  /-- Request latch (R22). -/
  req     : Request
  /-- Response latch (R25). -/
  resp    : Response
  /-- `phase`; `none` when IDLE (R23). -/
  phase   : Option Phase
  /-- `cs_n`; `true` is inactive (R24). -/
  csN     : Bool
  chip    : Chip
  env     : Env
  /-- Ghost: the events since the block last left reset, newest first (R13). -/
  trace   : List Event
  /-- Ghost: why the last response was a failure (R230). -/
  cause   : Option Cause
  deriving DecidableEq, Repr

/-- `run` (R23): 1 while an operation is in progress. -/
def State.run (s : State) : BitVec 1 := if s.phase.isSome then 1 else 0

/-- Why the machine stops. No run from a state that keeps the bracket discipline of R122 reaches one of these. -/
inductive Fault where
  /-- `CsLow` with the select line already low: a nested bracket, after which the chip is unknown (R122, 93 U2). Raised
  by `csLow`. Safe: the model stops where the hardware goes on in an unknown state. -/
  | nestedBracket
  /-- `Exchange` with the select line inactive, which R122 excludes. Raised by `exchangeStep`. Safe. -/
  | exchangeOutsideBracket
  /-- The phase is no position of the running operation's pseudocode (R23). Raised by `runHost` and `microStep`. Safe. -/
  | phaseOutsideOperation
  deriving DecidableEq, Repr

/-- Why a step has no meaning. -/
inductive Refusal where
  /-- An instruction the model has no meaning for yet. Raised by `exec`. Safe. -/
  | notModelled (mnemonic : String)
  /-- The tuple at the host port or in the request latch is no request (`LEN` above `LEN_MAX`, or a `TXBUF` without
  `LEN` bytes), so no host can present it (R10, R22). Raised by `step`. Safe. -/
  | notARequest (e : DecodeError)
  deriving DecidableEq, Repr

/-- The outcome of a meaning. -/
abbrev Out := Host.Outcome State Fault Refusal

/-- The state with another phase. -/
def State.setPhase (s : State) (v : Option Phase) : State := { s with phase := v }
/-- The state with another level of the select line. -/
def State.setCs (s : State) (v : Bool) : State := { s with csN := v }
/-- The state with another chip. -/
def State.setChip (s : State) (v : Chip) : State := { s with chip := v }
/-- The state with another environment. -/
def State.setEnv (s : State) (v : Env) : State := { s with env := v }
/-- The state with another response latch. -/
def State.setResp (s : State) (v : Response) : State := { s with resp := v }
/-- The state with another request latch. -/
def State.setReq (s : State) (v : Request) : State := { s with req := v }
/-- The state with other waiting requests. -/
def State.setInbox (s : State) (v : List Request) : State := { s with inbox := v }
/-- The state with another coming reset line. -/
def State.setRstLine (s : State) (v : List Bool) : State := { s with rstLine := v }
/-- The state with another ghost cause. -/
def State.setCause (s : State) (v : Option Cause) : State := { s with cause := v }
/-- The state with another trace. -/
def State.setTrace (s : State) (v : List Event) : State := { s with trace := v }

/-- The chip at reset. The spec gives no value (R37, R217); this is the start it gives its bring-up program P1
(95, section 3), "block just out of reset" (log 2, DESIGN CHOICE). -/
def Chip.start : Chip where
  sr1 := 0x00
  sr2 := 0x00
  sr3 := 0x60
  lock := BitVec.allOnes 256
  array := []
  vsrEn := false
  rstEn := false
  frame := []
  closed := none

/-- The machine right after reset (R37, R260): IDLE, line inactive, nothing emitted. The latches are unspecified there
and zero here (log 1, DESIGN CHOICE). -/
def State.reset : State where
  cfg := .defaults
  inbox := []
  rstLine := []
  req := .blank 0
  resp := { ok := false, rval := 0, rxbuf := [], vbuf := [] }
  phase := none
  csN := true
  chip := .start
  env := { answers := .responder, link := [], complete := [], bytes := [], images := [], draws := 0 }
  trace := []
  cause := none

end Sys2Proof.Machine
end

