-- ==== Sys2Proof/Machine/Operands.lean ====
section
/-!
DEFINITION. Operand forms: the address arithmetic of 20_memory R52 to R54, the address the chip reads from a header
(46 R209), the register number of a status operation, and the masked update of 10_state R36.
-/

namespace Sys2Proof.Machine

/-- `Valid(sector, page)` (R52). -/
def validCoords (sector page : Byte) : Bool :=
  decide (sector.toNat ≤ Config.maxCoord) && decide (page.toNat ≤ Config.maxCoord)

/-- `Addr(block, sector, page, offset)`, a natural number (R52). -/
def linearAddr (block sector page offset : Byte) : Nat :=
  block.toNat * Config.blockSize + sector.toNat * Config.sectorSize + page.toNat * Config.pageSize + offset.toNat

/-- `A[23:16]` (R53). -/
def addrByte2 (a : Nat) : Byte := BitVec.ofNat 8 (a / 65536)
/-- `A[15:8]` (R53). -/
def addrByte1 (a : Nat) : Byte := BitVec.ofNat 8 (a / 256)
/-- `A[7:0]` (R53). -/
def addrByte0 (a : Nat) : Byte := BitVec.ofNat 8 a

/-- The four-byte header of W3, W4 and W5, most significant address byte first (R55, R86). -/
def header (op : Byte) (a : Nat) : List Byte := [op, addrByte2 a, addrByte1 a, addrByte0 a]

/-- The address in a header: `a2*65536 + a1*256 + a0` (R209). -/
def headerAddr (a2 a1 a0 : Byte) : Nat := a2.toNat * 65536 + a1.toNat * 256 + a0.toNat

/-- `P(i)` (R209): the address of data byte `i` of a page-program, wrapping inside the page. -/
def pageAddr (a i : Nat) : Nat := a / Config.pageSize * Config.pageSize + (a + i) % Config.pageSize

/-- Base of the block an erase header addresses (R211). -/
def blockBase (a : Nat) : Nat := a / Config.blockSize * Config.blockSize
/-- Base of the sector an erase header addresses (R211). -/
def sectorBase (a : Nat) : Nat := a / Config.sectorSize * Config.sectorSize

/-- The three status registers (R27). -/
inductive SrNum where
  | one | two | three
  deriving DecidableEq, Repr

/-- The register `REG` selects; 0 selects none (R22, R84). -/
def srOfReg (reg : BitVec 2) : Option SrNum :=
  if reg = 1 then some .one else if reg = 2 then some .two else if reg = 3 then some .three else none

/-- `OP_RDSR(r)` (R88). -/
def rdsrOp (t : Config.OpcodeTable) : SrNum → Byte
  | .one => t.rdsr1
  | .two => t.rdsr2
  | .three => t.rdsr3

/-- `OP_WRSR(r)` (R88). -/
def wrsrOp (t : Config.OpcodeTable) : SrNum → Byte
  | .one => t.wrsr1
  | .two => t.wrsr2
  | .three => t.wrsr3

/-- `(old & ~mask) | (value & mask)` (R36). -/
def maskedUpdate (old mask value : Byte) : Byte := (old &&& ~~~mask) ||| (value &&& mask)

/-- `page_program`'s bounds (R58, R162), on natural numbers. -/
def validProgram (offset : Byte) (len : Nat) : Bool :=
  decide (len ≤ Config.pageSize) && decide (offset.toNat + len ≤ Config.pageSize)

end Sys2Proof.Machine
end

