-- ==== Sys2Proof/Machine/Flags.lean ====
section
/-!
DEFINITION. The flags, all on the chip's side (10_state R34): BUSY, WEL, WPS, the lock bits, and the protection they
decide (46 R212).
-/

namespace Sys2Proof.Machine

/-- A byte with one bit set or cleared. -/
def putBit (x : Byte) (i : Nat) (v : Bool) : Byte :=
  if v then x ||| (1#8 <<< i) else x &&& ~~~(1#8 <<< i)

/-- BUSY (R28). -/
def chipBusy (c : Chip) : Bool := c.sr1.getLsbD Config.busyBit
/-- WEL (R28). -/
def chipWel (c : Chip) : Bool := c.sr1.getLsbD Config.welBit
/-- WPS (R30). -/
def chipWps (c : Chip) : Bool := c.sr3.getLsbD Config.wpsBit

/-- `BUSY <- v`. -/
def setBusy (v : Bool) (c : Chip) : Chip := { c with sr1 := putBit c.sr1 Config.busyBit v }
/-- `WEL <- v`. -/
def setWel (v : Bool) (c : Chip) : Chip := { c with sr1 := putBit c.sr1 Config.welBit v }
/-- `vsr_en <- v`. -/
def setVsrEn (v : Bool) (c : Chip) : Chip := { c with vsrEn := v }

/-- `LOCK[b]` (R33). -/
def lockBitOf (c : Chip) (b : Nat) : Bool := c.lock.getLsbD b
/-- `LOCK[b] <- v`. -/
def setLockBit (b : Nat) (v : Bool) (c : Chip) : Chip :=
  { c with lock := if v then c.lock ||| (1#256 <<< b) else c.lock &&& ~~~(1#256 <<< b) }
/-- `LOCK[b] <- 0` for every block (R197). -/
def clearLocks (c : Chip) : Chip := { c with lock := 0 }

/-- The byte a lock query returns: the lock bit at `LOCK_BIT`, other bits 0 (R203). -/
def lockStatusByte (p : Config.Params) (c : Chip) (b : Nat) : Byte := putBit 0 p.lockBit (lockBitOf c b)

/-- The status register `r` (R27). -/
def srValue (c : Chip) : SrNum → Byte
  | .one => c.sr1
  | .two => c.sr2
  | .three => c.sr3

/-- The chip with another value in status register `r`. -/
def setSr (c : Chip) (r : SrNum) (v : Byte) : Chip :=
  match r with
  | .one => { c with sr1 := v }
  | .two => { c with sr2 := v }
  | .three => { c with sr3 := v }

/-- `RO(r)` (R207). -/
def roMask (p : Config.Params) : SrNum → Byte
  | .one => p.ro1
  | .two => p.ro2
  | .three => p.ro3

/-- `Protected(a)` (R212): with WPS = 1 the block's lock bit, with WPS = 0 the uninterpreted `LegacyProt`. -/
def protectedAt (c : Chip) (a : Nat) : Bool :=
  if chipWps c then lockBitOf c (a / Config.blockSize) else Config.legacyProt c.sr1 c.sr2 a

/-- Some byte of `[base, base + size)` is protected (R211); with WPS = 1 decided on the blocks the region meets. -/
def regionProtected (c : Chip) (base size : Nat) : Bool :=
  if chipWps c then
    (List.range ((base + size - 1) / Config.blockSize - base / Config.blockSize + 1)).any fun i =>
      lockBitOf c (base / Config.blockSize + i)
  else (List.range size).any fun i => Config.legacyProt c.sr1 c.sr2 (base + i)

end Sys2Proof.Machine
end

