-- ==== Sys2Proof/Machine/Ops.lean ====
section
/-!
DEFINITION. The shared operations: the flash array, the draws of the environment, the chip's completion and its response
bytes, the link's `Exchange`, the framer, and how an operation ends (the failure exit of 60 R242, this hardware's nearest
thing to taking an exception, and the successful `Resp` beside it).
-/

namespace Sys2Proof.Machine

/-! ### The flash array -/

/-- What an unlisted address reads as: the erased value (R10; log 3, DESIGN CHOICE). -/
def Memory.unlisted : Byte := Config.erased

/-- The canonical form: addresses strictly rising and below 2^24, no byte equal to the unlisted one. -/
abbrev Memory.wf (m : Memory) : Prop :=
  m.Pairwise (fun x y => x.1 < y.1) ∧ ∀ x ∈ m, x.2 ≠ Memory.unlisted ∧ x.1 < Config.arraySize

/-- The byte at an address. -/
def Memory.read (m : Memory) (a : Nat) : Byte :=
  match m with
  | [] => Memory.unlisted
  | x :: t => if x.1 = a then x.2 else Memory.read t a

/-- The array with one byte written, in canonical form. -/
def Memory.write (m : Memory) (a : Nat) (b : Byte) : Memory :=
  match m with
  | [] => if b = Memory.unlisted then [] else [(a, b)]
  | x :: t =>
    if a < x.1 then (if b = Memory.unlisted then x :: t else (a, b) :: x :: t)
    else if a = x.1 then (if b = Memory.unlisted then t else (a, b) :: t)
    else x :: Memory.write t a b

/-- The array with `[base, base + size)` erased (R211). -/
def Memory.erase (m : Memory) (base size : Nat) : Memory :=
  m.filter fun x => !(decide (base ≤ x.1) && decide (x.1 < base + size))

/-- Data byte `i` onwards of a page-program at `a`: each byte is ANDed into the array (R209). -/
def programFrom (a i : Nat) (d : List Byte) (m : Memory) : Memory :=
  match d with
  | [] => m
  | b :: t => programFrom a (i + 1) t (m.write (pageAddr a i) (m.read (pageAddr a i) &&& b))

/-! ### The environment's draws -/

/-- One free value taken. -/
def bump (e : Env) : Env := { e with draws := e.draws + 1 }

/-- What the link does with the next `Exchange`. -/
def nextLink (e : Env) : Config.LinkOutcome :=
  match e.link with
  | o :: _ => o
  | [] => Config.freeLink e.draws
/-- The environment after that draw. -/
def afterLink (e : Env) : Env :=
  match e.link with
  | _ :: t => { e with link := t }
  | [] => bump e

/-- Whether `Complete` fires at the next point where it may. -/
def nextComplete (e : Env) : Bool :=
  match e.complete with
  | b :: _ => b
  | [] => Config.freeComplete e.draws
/-- The environment after that draw. -/
def afterComplete (e : Env) : Env :=
  match e.complete with
  | _ :: t => { e with complete := t }
  | [] => bump e

/-- The next byte the chip drives where nothing fixes it. -/
def nextByte (e : Env) : Byte :=
  match e.bytes with
  | b :: _ => b
  | [] => Config.freeChipByte e.draws
/-- The environment after that draw. -/
def afterByte (e : Env) : Env :=
  match e.bytes with
  | _ :: t => { e with bytes := t }
  | [] => bump e

/-- The next image a reset-device leaves. -/
def nextImage (e : Env) : Config.ChipImage :=
  match e.images with
  | i :: _ => i
  | [] => Config.freeImage e.draws
/-- The environment after that draw. -/
def afterImage (e : Env) : Env :=
  match e.images with
  | _ :: t => { e with images := t }
  | [] => bump e

/-! ### The chip between commands -/

/-- The chip and the environment's choices: what an `Exchange` touches. -/
structure World where
  chip : Chip
  env  : Env
  deriving DecidableEq, Repr

/-- `Complete` (R208): BUSY, WEL and `vsr_en` clear. -/
def completeCycle (c : Chip) : Chip := setVsrEn false (setWel false (setBusy false c))

/-- A point where `Complete` may fire: enabled exactly when BUSY = 1 (R208). -/
def tick (w : World) : World :=
  if chipBusy w.chip then
    { chip := if nextComplete w.env then completeCycle w.chip else w.chip, env := afterComplete w.env }
  else w

/-- The byte the responder drives at the next wire position, where R203 fixes one: position 1 on of a status read;
position 4 on of a lock query or a read while BUSY = 0. -/
def drivenByte (p : Config.Params) (c : Chip) : Option Byte :=
  match c.frame with
  | [] => none
  | op :: rest =>
    match p.ops.lookup op, rest with
    | some .rdsr1, _ => some c.sr1
    | some .rdsr2, _ => some c.sr2
    | some .rdsr3, _ => some c.sr3
    | some .rdlock, a2 :: _ :: _ :: _ => if chipBusy c then none else some (lockStatusByte p c a2.toNat)
    | some .read, a2 :: a1 :: a0 :: d =>
      if chipBusy c then none else some (c.array.read ((headerAddr a2 a1 a0 + d.length) % Config.arraySize))
    | _, _ => none

/-- The byte that comes back at the next wire position, and the environment afterwards. -/
def answerByte (p : Config.Params) (w : World) : Byte × Env :=
  match w.env.answers, drivenByte p w.chip with
  | .responder, some b => (b, w.env)
  | .responder, none => (nextByte w.env, afterByte w.env)
  | .free, _ => (nextByte w.env, afterByte w.env)

/-- One byte time: `Complete` may fire, then one byte is sent and one received (R110, R208); the chip appends the byte
sent to its frame (R202). -/
def clockByte (p : Config.Params) (t : Byte) (w : World) : Byte × World :=
  let w1 := tick w
  ((answerByte p w1).1,
    { chip := { w1.chip with frame := w1.chip.frame ++ [t] }, env := (answerByte p w1).2 })

/-- The bytes of one exchange, in order. -/
def clockBytes (p : Config.Params) (tx : List Byte) (w : World) : List Byte × World :=
  match tx with
  | [] => ([], w)
  | t :: ts =>
    let r := clockByte p t w
    let q := clockBytes p ts r.2
    (r.1 :: q.1, q.2)

/-! ### The link -/

/-- How many bytes of `len` are delivered before the exchange fails; `none` when it succeeds (R117, R118). A timeout on
a byte the exchange does not have does not happen. -/
def failedAfter (o : Config.LinkOutcome) (len : Nat) : Option Nat :=
  match o with
  | .delivered => none
  | .busyAtEntry => some 0
  | .txTimeout i => if i < len then some i else none
  | .rxTimeout i => if i < len then some (i + 1) else none

/-- The unspecified bytes of a failed exchange (R119). -/
def failedBytes (n len : Nat) : List Byte := (List.range len).map (Config.freeFailedRx n)

/-- `Exchange(tx) -> (ok, rx)` (R110, R117 to R120). -/
def exchange (p : Config.Params) (tx : List Byte) (w : World) : Bool × List Byte × World :=
  let w1 : World := { w with env := afterLink w.env }
  match failedAfter (nextLink w.env) tx.length with
  | none => (true, clockBytes p tx w1)
  | some j =>
    let w2 := (clockBytes p (tx.take j) w1).2
    (false, failedBytes w2.env.draws tx.length, { w2 with env := bump w2.env })

/-! ### Events, the framer, the ends of an operation -/

/-- One event at the boundary (R13). -/
def emit (e : Event) (s : State) : State := s.setTrace (e :: s.trace)

/-- The chip and environment of a state. -/
def State.world (s : State) : World := { chip := s.chip, env := s.env }
/-- The state with another chip and environment. -/
def State.setWorld (s : State) (w : World) : State := (s.setChip w.chip).setEnv w.env

/-- `CsLow()` (R113): the line goes active; the chip starts an empty frame (R202). -/
def csLow (s : State) : State := emit (.cs false) ((s.setCs false).setChip { s.chip with frame := [] })

/-- The line goes inactive; if it was active the chip has a closed frame to execute (R202) and an empty one (R201). -/
def closeBracket (s : State) : State :=
  if s.csN then s
  else (s.setCs true).setChip { s.chip with frame := [], closed := some s.chip.frame }

/-- `CsHigh()` (R114). -/
def csHigh (s : State) : State := emit (.cs true) (closeBracket s)

/-- `DelayUs(n)` (R250): what the chip does meanwhile is the next `tick`. -/
def delayUs (n : Nat) (s : State) : State := emit (.d n) s

/-- A response latch nothing specifies; buffers keep their `LEN` bytes (R25, R37). -/
def freeResponse (n len : Nat) : Response where
  ok := Config.freeOk n
  rval := Config.freeRval n
  rxbuf := (List.range len).map (Config.freeRxbuf n)
  vbuf := (List.range len).map (Config.freeVbuf n)

/-- The response latch is no longer valid (R25). -/
def dropResponse (s : State) : State :=
  (s.setResp (freeResponse s.env.draws s.req.len)).setEnv (bump s.env)

/-- `Resp` (R23, R25): the operation ends with what the response latch holds. -/
def respond (cause : Option Cause) (s : State) : State :=
  emit (.resp s.resp) ((s.setPhase none).setCause cause)

/-- The failure exit `raise <Cause>` (R242): `OK <- 0`, IDLE, `Resp`; the result fields are unspecified, but for `VBUF`
where `vbuf` gives it (R25). Nothing else is saved or changed: there is no vector and no handler. -/
def raiseCause (c : Cause) (vbuf : Option (List Byte)) (s : State) : State :=
  let r := freeResponse s.env.draws s.req.len
  respond (some c)
    ((s.setResp { r with ok := false, vbuf := vbuf.getD r.vbuf }).setEnv (bump s.env))

/-- `return OK = 1`: the successful end, with the result fields already written (R25). -/
def respondOk (s : State) : State := respond none (s.setResp { s.resp with ok := true })

/-- Reset of the block at any time (R260, R273): IDLE, line inactive (which closes an open bracket at the chip), both
latches unspecified, no event; the chip is not reset (R261). The trace starts anew. -/
def blockReset (s : State) : State :=
  let s1 := closeBracket s
  let q := Config.freeRequest s1.env.draws
  ((((((s1.setPhase none).setReq q).setResp (freeResponse s1.env.draws q.len)).setEnv (bump s1.env)).setTrace
    []).setCause none)

end Sys2Proof.Machine
end

