-- ==== Sys2Proof/Machine/Sequencer.lean ====
section
/-!
DEFINITION. The sequencer: the pseudocode of files 41 to 45 as a list of steps with every subroutine written out, and one
step of it, which performs at most one boundary event (10_state R23). The position in the list is `phase`.
-/

namespace Sys2Proof.Machine

/-- What an operation does with the bytes of a bracketed `Sequential` once it has succeeded. -/
inductive Use where
  /-- The value is not used further (R153, first read). -/
  | discard
  /-- `old <- rx[0]` (R133 step 2). -/
  | keepOld
  /-- Bit `i` of `rx[0]` must equal `v`, else the cause (R134, R152). -/
  | expectBit (i : Nat) (v : Bool) (c : Cause)
  /-- `(rx[0] & mask) = (value & mask)`, else `StatusVerifyMismatch` (R133). -/
  | expectMasked (mask value : Byte)
  /-- `RVAL <- rx[0]` (R132). -/
  | toRval
  /-- `RXBUF <- rx` (R161). -/
  | toRxbuf
  /-- `VBUF <- rx`, which must equal `tx`, else `VerificationMismatch` (R162). -/
  | verify (tx : List Byte)
  /-- Bit `bit` of `rx[0]` is the lock state; `LockStateConflict` when it is already `target` (R182, R183). -/
  | refuseLocked (bit : Nat) (target : Bool)
  deriving DecidableEq, Repr

/-- One step of the pseudocode. A failed exchange in it ends the operation with `TransportFailure` (R231), but for a
poll under `POLL_FAIL` = retry (R130). -/
inductive Micro where
  /-- `busy_check` and `wel_wait`: the status read `[op]` again and again until bit `bit` of it is 0 (R130, R131). -/
  | poll (op : Byte) (bit : Nat)
  /-- `Bracket { Write(tx) }`. -/
  | send (tx : List Byte)
  /-- `Bracket { Sequential(tx, n) }` and what is done with the bytes. -/
  | query (tx : List Byte) (n : Nat) (use : Use)
  /-- `DelayUs(us)`. -/
  | delay (us : Nat)
  deriving DecidableEq, Repr

/-- The first position of a step. -/
def phaseAt (pc : Nat) (old : Byte) : Phase := { pc := pc, stage := .low, ok := true, rx := [], old := old }

/-- The running operation's `old`; 0 before one is kept. -/
def oldOf (s : State) : Byte :=
  match s.phase with
  | some ph => ph.old
  | none => 0

/-- `Req` accepted (R23): the operation is at its first step; the response latch is no longer valid (R25). -/
def startOperation (s : State) : State := (dropResponse s).setPhase (some (phaseAt 0 0))

/-- The step is done: the next one of `prog`, or `return OK = 1` after the last. -/
def advance (prog : List Micro) (ph : Phase) (s : State) : State :=
  if ph.pc + 1 < prog.length then s.setPhase (some (phaseAt (ph.pc + 1) ph.old)) else respondOk s

/-- The result of a successful query (Use). -/
def useBytes (prog : List Micro) (ph : Phase) (u : Use) (s : State) : State :=
  match u with
  | .discard => advance prog ph s
  | .keepOld => advance prog { ph with old := ph.rx.headD 0 } s
  | .expectBit i v c =>
    if (ph.rx.headD 0).getLsbD i = v then advance prog ph s else raiseCause c none s
  | .expectMasked mask value =>
    if ph.rx.headD 0 &&& mask = value &&& mask then advance prog ph s else raiseCause .statusVerifyMismatch none s
  | .toRval => advance prog ph (s.setResp { s.resp with rval := ph.rx.headD 0 })
  | .toRxbuf => advance prog ph (s.setResp { s.resp with rxbuf := ph.rx })
  | .verify tx =>
    if ph.rx = tx then advance prog ph (s.setResp { s.resp with vbuf := ph.rx })
    else raiseCause .verificationMismatch (some ph.rx) s
  | .refuseLocked bit target =>
    if (ph.rx.headD 0).getLsbD bit = target then raiseCause .lockStateConflict none s else advance prog ph s

/-- The end of a bracket: `check(ok)`, then the step's own test (R231). -/
def judge (prog : List Micro) (ph : Phase) (m : Micro) (s : State) : State :=
  match m with
  | .poll _ bit =>
    if ph.ok then
      (if (ph.rx.headD 0).getLsbD bit then s.setPhase (some (phaseAt ph.pc ph.old)) else advance prog ph s)
    else
      match s.cfg.pollFail with
      | .abort => raiseCause .transportFailure none s
      | .retry => s.setPhase (some (phaseAt ph.pc ph.old))
  | .send _ => if ph.ok then advance prog ph s else raiseCause .transportFailure none s
  | .query _ _ u => if ph.ok then useBytes prog ph u s else raiseCause .transportFailure none s
  | .delay _ => s

/-- The bytes a step's bracket sends; `none` for a step without a bracket. -/
def sentBytes (m : Micro) : Option (List Byte) :=
  match m with
  | .poll op _ => some [op]
  | .send tx => some tx
  | .query tx _ _ => some tx
  | .delay _ => none

/-- How many bytes its bracket receives; `none` for a `Write`, which has no receive phase. -/
def receiveCount (m : Micro) : Option Nat :=
  match m with
  | .poll _ _ => some Config.srReadLen
  | .send _ => none
  | .query _ n _ => some n
  | .delay _ => none

/-- The stage after the send phase: the receive phase of a `Sequential` is skipped when the send phase failed (R115). -/
def afterSend (m : Micro) (ok : Bool) : Stage :=
  if ok && (receiveCount m).isSome then .recv else .high

/-- The state after one `Exchange` of the running bracket (R110, R123): the event `X`, and the stage after it. -/
def exchanged (tx : List Byte) (ph : Phase) (next : Bool → Stage) (s : State) : State :=
  let r := exchange s.cfg tx s.world
  emit (.x tx r.2.1 r.1)
    ((s.setWorld r.2.2).setPhase (some { ph with stage := next r.1, ok := r.1, rx := r.2.1 }))

/-- That exchange, which only a bracket may make (R122). -/
def exchangeStep (tx : List Byte) (ph : Phase) (next : Bool → Stage) (s : State) : Out :=
  if s.csN then .fault .exchangeOutsideBracket else .next (exchanged tx ph next s)

/-- One step of a bracketed step (R111, R115, R116). -/
def bracketStep (prog : List Micro) (ph : Phase) (m : Micro) (tx : List Byte) (s : State) : Out :=
  match ph.stage with
  | .low =>
    if s.csN then .next ((csLow s).setPhase (some { ph with stage := .send })) else .fault .nestedBracket
  | .send => exchangeStep tx ph (afterSend m) s
  | .recv =>
    match receiveCount m with
    | some n => exchangeStep (fillerBytes n) ph (fun _ => .high) s
    | none => .fault .phaseOutsideOperation
  | .high => .next ((csHigh s).setPhase (some { ph with stage := .judge }))
  | .judge => .next (judge prog ph m s)

/-- One step of the running operation at the pseudocode step `m`. -/
def microStep (prog : List Micro) (ph : Phase) (m : Micro) (s : State) : Out :=
  match m with
  | .delay us =>
    match ph.stage with
    | .low => .next (advance prog ph (delayUs us s))
    | _ => .fault .phaseOutsideOperation
  | .poll op bit => bracketStep prog ph (.poll op bit) [op] s
  | .send tx => bracketStep prog ph (.send tx) tx s
  | .query tx n u => bracketStep prog ph (.query tx n u) tx s

/-- A valid request: from IDLE it is accepted; from RUN the operation takes its next step. -/
def runHost (prog : List Micro) (s : State) : Out :=
  match s.phase with
  | none => .next (startOperation s)
  | some ph =>
    match prog[ph.pc]? with
    | some m => microStep prog ph m s
    | none => .fault .phaseOutsideOperation

/-- A request validation rejects: `Resp(OK = 0)` with no boundary event (R84, R236). -/
def rejectRequest (c : Cause) (s : State) : Out := .next (raiseCause c none s)

/-! ### The subroutines of file 41, which other operations call -/

/-- `busy_check()` (R130). -/
def busyCheck (t : Config.OpcodeTable) : Micro := .poll t.rdsr1 Config.busyBit

/-- `wel_wait()` (R131). -/
def welWait (t : Config.OpcodeTable) : Micro := .poll t.rdsr1 Config.welBit

/-- `SrRead(r)` (R136) and what is done with the byte. -/
def srRead (t : Config.OpcodeTable) (r : SrNum) (u : Use) : Micro := .query [rdsrOp t r] Config.srReadLen u

end Sys2Proof.Machine
end

