-- ==== Sys2Proof/Machine/Status.lean ====
section
/-!
DEFINITION. File 41: status registers and the write-enable latch. Each operation is its pseudocode as a list of steps, and
its meaning.
-/

namespace Sys2Proof.Machine

/-- `WriteEnable()` (R134), also the subroutine of the operations that write. -/
def writeEnableSteps (t : Config.OpcodeTable) : List Micro :=
  [busyCheck t, .send [t.wren], srRead t .one (.expectBit Config.welBit true .latchVerifyFailure)]

/-- `VolatileWriteEnable()` (R135); it does not verify. -/
def volatileWriteEnableSteps (t : Config.OpcodeTable) : List Micro := [busyCheck t, .send [t.vwren]]

/-- `StatusRegWrite(r, mask, value)` (R133); `old` is what step 2 kept. -/
def statusRegWriteSteps (t : Config.OpcodeTable) (r : SrNum) (mask value old : Byte) : List Micro :=
  [busyCheck t, srRead t r .keepOld] ++ volatileWriteEnableSteps t ++
    [.send [wrsrOp t r, maskedUpdate old mask value], .delay Config.tSrwUs, busyCheck t, welWait t,
     srRead t r (.expectMasked mask value)]

/-- `status_reg_read(register)` (R132). -/
def statusRegReadSteps (t : Config.OpcodeTable) (r : SrNum) : List Micro := [srRead t r .toRval]

/-- Meaning of `status_reg_write` (R133; `REG = 0` R84). -/
def execStatusRegWrite (reg : BitVec 2) (mask value : Byte) (s : State) : Out :=
  match srOfReg reg with
  | none => rejectRequest .illegalRequest s
  | some r => runHost (statusRegWriteSteps s.cfg.ops r mask value (oldOf s)) s

/-- Meaning of `status_reg_read` (R132; `REG = 0` R84). -/
def execStatusRegRead (reg : BitVec 2) (s : State) : Out :=
  match srOfReg reg with
  | none => rejectRequest .illegalRequest s
  | some r => runHost (statusRegReadSteps s.cfg.ops r) s

/-- Meaning of `write_enable` (R134). -/
def execWriteEnable (s : State) : Out := runHost (writeEnableSteps s.cfg.ops) s

/-- Meaning of `volatile_write_enable` (R135). -/
def execVolatileWriteEnable (s : State) : Out := runHost (volatileWriteEnableSteps s.cfg.ops) s

end Sys2Proof.Machine
end

