-- ==== Sys2Proof/Machine/Erase.lean ====
section
/-!
DEFINITION. File 44: block, sector and chip erase.
-/

namespace Sys2Proof.Machine

/-- What the three erases share up to the erase frame (R171, R172, R173). -/
def eraseLead (t : Config.OpcodeTable) (frame : List Byte) : List Micro :=
  [busyCheck t] ++ writeEnableSteps t ++ [.send frame]

/-- The confirmation: BUSY, then WEL, seen clear (R171). -/
def eraseConfirm (t : Config.OpcodeTable) : List Micro := [busyCheck t, welWait t]

/-- `block_erase(block)` (R171). -/
def blockEraseSteps (t : Config.OpcodeTable) (block : Byte) : List Micro :=
  eraseLead t (header t.be (linearAddr block 0 0 0)) ++ eraseConfirm t

/-- `sector_erase(block, sector)` (R172). -/
def sectorEraseSteps (t : Config.OpcodeTable) (block sector : Byte) : List Micro :=
  eraseLead t (header t.se (linearAddr block sector 0 0)) ++ eraseConfirm t

/-- `chip_erase()` (R173). -/
def chipEraseSteps (t : Config.OpcodeTable) : List Micro :=
  eraseLead t [t.ce] ++ [.delay Config.tCeUs] ++ eraseConfirm t

/-- Meaning of `block_erase` (R171). -/
def execBlockErase (block : Byte) (s : State) : Out := runHost (blockEraseSteps s.cfg.ops block) s

/-- Meaning of `sector_erase` (R172): a sector above 15 is rejected before any bus activity (D14). -/
def execSectorErase (block sector : Byte) (s : State) : Out :=
  if validCoords sector 0 then runHost (sectorEraseSteps s.cfg.ops block sector) s
  else rejectRequest .addressRangeError s

/-- Meaning of `chip_erase` (R173). -/
def execChipErase (s : State) : Out := runHost (chipEraseSteps s.cfg.ops) s

end Sys2Proof.Machine
end

