-- ==== Sys2Proof/Machine/Lock.lean ====
section
/-!
DEFINITION. File 45: block lock and unlock.
-/

namespace Sys2Proof.Machine

/-- `lock_query(block)` (R181), refusing a block whose lock bit already is `target` (R182, R183). -/
def lockQuery (p : Config.Params) (block : Byte) (target : Bool) : Micro :=
  .query (header p.ops.rdlock (linearAddr block 0 0 0)) 1 (.refuseLocked p.lockBit target)

/-- `block_lock(block)` (R182). -/
def blockLockSteps (p : Config.Params) (block : Byte) : List Micro :=
  [lockQuery p block true] ++ writeEnableSteps p.ops ++ [.send (header p.ops.blockLock (linearAddr block 0 0 0))]

/-- `block_unlock(block)` (R183). -/
def blockUnlockSteps (p : Config.Params) (block : Byte) : List Micro :=
  [lockQuery p block false] ++ writeEnableSteps p.ops ++ [.send (header p.ops.blockUnlock (linearAddr block 0 0 0))]

/-- Meaning of `block_lock` (R182). -/
def execBlockLock (block : Byte) (s : State) : Out := runHost (blockLockSteps s.cfg block) s

/-- Meaning of `block_unlock` (R183). -/
def execBlockUnlock (block : Byte) (s : State) : Out := runHost (blockUnlockSteps s.cfg block) s

end Sys2Proof.Machine
end

