-- ==== Sys2Proof/Machine/ReadProgram.lean ====
section
/-!
DEFINITION. File 43: array read and page program.
-/

namespace Sys2Proof.Machine

/-- The steps of `read` from the linear address `a` for `len` bytes, with what is done with them (R161). -/
def readSteps (t : Config.OpcodeTable) (a len : Nat) (u : Use) : List Micro :=
  [busyCheck t, .query (header t.read a) len u]

/-- `page_program` at the linear address `a` (R162): its verify step is the whole of `read` (90_conflicts C3). -/
def pageProgramSteps (t : Config.OpcodeTable) (a : Nat) (tx : List Byte) : List Micro :=
  [busyCheck t] ++ writeEnableSteps t ++ [.send (header t.pp a ++ tx)] ++ readSteps t a tx.length (.verify tx)

/-- Meaning of `read` (R161). -/
def execRead (block sector page offset : Byte) (len : Nat) (s : State) : Out :=
  if validCoords sector page then
    runHost (readSteps s.cfg.ops (linearAddr block sector page offset) len .toRxbuf) s
  else rejectRequest .addressRangeError s

/-- Meaning of `page_program` (R162). -/
def execPageProgram (block sector page offset : Byte) (tx : List Byte) (s : State) : Out :=
  if validCoords sector page && validProgram offset tx.length then
    runHost (pageProgramSteps s.cfg.ops (linearAddr block sector page offset) tx) s
  else rejectRequest .addressRangeError s

end Sys2Proof.Machine
end

