-- ==== Sys2Proof/Machine/ResetInit.lean ====
section
/-!
DEFINITION. File 42: `reset` (of the chip) and `init`, and the reserved request codes of 30_encoding R84.
-/

namespace Sys2Proof.Machine

/-- `reset()` (R152). -/
def resetSteps (t : Config.OpcodeTable) : List Micro :=
  [busyCheck t] ++ writeEnableSteps t ++
    [.send [t.rsten], .send [t.rst], .delay Config.tRstUs,
     srRead t .one (.expectBit Config.welBit false .resetVerifyFailure)]

/-- `1 << WPS_BIT`, the mask and value `init` writes to register 3 (R153). -/
def wpsMask : Byte := 0x04

/-- `init()` (R153). -/
def initSteps (t : Config.OpcodeTable) (old : Byte) : List Micro :=
  [srRead t .three .discard] ++ statusRegWriteSteps t .three wpsMask wpsMask old ++ writeEnableSteps t ++
    [.send [t.gunlock]]

/-- Meaning of `init` (R153). -/
def execInit (s : State) : Out := runHost (initSteps s.cfg.ops (oldOf s)) s

/-- Meaning of `reset` (R152). -/
def execReset (s : State) : Out := runHost (resetSteps s.cfg.ops) s

/-- Meaning of the reserved code 13: `OK = 0` at once, no boundary event (R84). -/
def execReserved13 (s : State) : Out := rejectRequest .illegalRequest s

/-- Meaning of the reserved code 14 (R84). -/
def execReserved14 (s : State) : Out := rejectRequest .illegalRequest s

/-- Meaning of the reserved code 15 (R84). -/
def execReserved15 (s : State) : Out := rejectRequest .illegalRequest s

end Sys2Proof.Machine
end

