-- ==== Sys2Proof/Machine/Wire.lean ====
section
/-!
DEFINITION. Part 2 of file 46: the nineteen wire commands as the reference responder executes them when the select line
rises (R202). The bytes a command sends back are driven while its frame is still open (`drivenByte`, R203).
-/

namespace Sys2Proof.Machine

/-- The end of a command (R202): the frame is gone and `rst_en` clears. -/
def finishCommand (c : Chip) : Chip := { c with closed := none, rstEn := false }

/-- A command with the effect `f` on the chip. -/
def chipCommand (f : Chip → Chip) (s : State) : Out := .next (s.setChip (finishCommand (f s.chip)))

/-- A closed frame that is no command changes nothing (R202, R216). -/
def dropFrame (s : State) : State := s.setChip { s.chip with closed := none }

/-- `SRr <- (SRr & RO) | (d & ~RO)` (R207). -/
def statusWriteValue (old ro d : Byte) : Byte := (old &&& ro) ||| (d &&& ~~~ro)

/-- The effect of a status write (R207). -/
def statusWrite (p : Config.Params) (r : SrNum) (d : Byte) (c : Chip) : Chip :=
  if !chipBusy c && (chipWel c || c.vsrEn) then
    setBusy true (setSr c r (statusWriteValue (srValue c r) (roMask p r) d))
  else c

/-- The effect of a page-program (R209). -/
def pageProgram (a : Nat) (d : List Byte) (c : Chip) : Chip :=
  if !chipBusy c && chipWel c && !d.isEmpty then
    if protectedAt c a then setWel false c
    else setBusy true { c with array := programFrom a 0 d c.array }
  else c

/-- The effect of an erase of `[base, base + size)` (R211). -/
def eraseRegion (base size : Nat) (c : Chip) : Chip :=
  if !chipBusy c && chipWel c then
    if regionProtected c base size then setWel false c
    else setBusy true { c with array := c.array.erase base size }
  else c

/-- The effect of a command that changes lock bits by `f` (R213). -/
def lockCommand (p : Config.Params) (f : Chip → Chip) (c : Chip) : Chip :=
  if !chipBusy c && chipWel c && chipWps c then
    if p.lockClearsWel then setWel false (f c) else f c
  else c

/-- The effect of an accepted reset-device (R215): the volatile settings become the drawn image; BUSY is 0 and WEL
clears. -/
def resetDevice (i : Config.ChipImage) (c : Chip) : Chip :=
  { c with sr1 := i.sr1 &&& 0xFC, sr2 := i.sr2, sr3 := i.sr3, lock := i.lock, vsrEn := false, rstEn := false }

/-- write-enable (R204). -/
def execWireWren (s : State) : Out := chipCommand (fun c => if chipBusy c then c else setWel true c) s

/-- volatile-write-enable (R205). -/
def execWireVwren (s : State) : Out := chipCommand (fun c => if chipBusy c then c else setVsrEn true c) s

/-- enable-reset (R215): the one command that does not clear `rst_en` (R202). -/
def execWireRsten (s : State) : Out :=
  .next (s.setChip { s.chip with closed := none, rstEn := if chipBusy s.chip then s.chip.rstEn else true })

/-- reset-device (R215). -/
def execWireRst (s : State) : Out :=
  if !chipBusy s.chip && s.chip.rstEn then
    .next ((s.setChip (finishCommand (resetDevice (nextImage s.env) s.chip))).setEnv (afterImage s.env))
  else chipCommand id s

/-- read (R210): no effect on the chip; the bytes went out as R203 says. -/
def execWireRead (_a2 _a1 _a0 : Byte) (_n : Nat) (s : State) : Out := chipCommand id s

/-- page-program (R209). -/
def execWirePp (a2 a1 a0 : Byte) (d : List Byte) (s : State) : Out :=
  chipCommand (pageProgram (headerAddr a2 a1 a0) d) s

/-- block-erase (R211); the low address bits are ignored. -/
def execWireBe (a2 a1 a0 : Byte) (s : State) : Out :=
  chipCommand (eraseRegion (blockBase (headerAddr a2 a1 a0)) Config.blockSize) s

/-- sector-erase (R211). -/
def execWireSe (a2 a1 a0 : Byte) (s : State) : Out :=
  chipCommand (eraseRegion (sectorBase (headerAddr a2 a1 a0)) Config.sectorSize) s

/-- chip-erase (R211). -/
def execWireCe (s : State) : Out := chipCommand (eraseRegion 0 Config.arraySize) s

/-- block-lock (R213). -/
def execWireBlockLock (a2 _a1 _a0 : Byte) (s : State) : Out :=
  chipCommand (lockCommand s.cfg (setLockBit a2.toNat true)) s

/-- block-unlock (R213). -/
def execWireBlockUnlock (a2 _a1 _a0 : Byte) (s : State) : Out :=
  chipCommand (lockCommand s.cfg (setLockBit a2.toNat false)) s

/-- read-block-lock (R213): no effect on the chip; the byte went out as R203 says. -/
def execWireRdlock (_a2 _a1 _a0 : Byte) (_n : Nat) (s : State) : Out := chipCommand id s

/-- global-unlock (R213). -/
def execWireGunlock (s : State) : Out := chipCommand (lockCommand s.cfg clearLocks) s

/-- status read of register 1 (R206): no effect; the byte went out as R203 says. -/
def execWireRdsr1 (_n : Nat) (s : State) : Out := chipCommand id s

/-- status read of register 2 (R206). -/
def execWireRdsr2 (_n : Nat) (s : State) : Out := chipCommand id s

/-- status read of register 3 (R206). -/
def execWireRdsr3 (_n : Nat) (s : State) : Out := chipCommand id s

/-- status write of register 1 (R207). -/
def execWireWrsr1 (d : Byte) (s : State) : Out := chipCommand (statusWrite s.cfg .one d) s

/-- status write of register 2 (R207). -/
def execWireWrsr2 (d : Byte) (s : State) : Out := chipCommand (statusWrite s.cfg .two d) s

/-- status write of register 3 (R207). -/
def execWireWrsr3 (d : Byte) (s : State) : Out := chipCommand (statusWrite s.cfg .three d) s

end Sys2Proof.Machine
end

