-- ==== Sys2Proof/Machine/Dispatch.lean ====
section
/-!
DEFINITION. The meaning of every instruction: for a host operation its acceptance or its next step, whichever the phase
says; for a wire command what the chip does with it.
-/

namespace Sys2Proof.Machine

def exec (i : Instr) (s : State) : Host.Outcome State Fault Refusal :=
  match i with
  | .init => Sys2Proof.Machine.execInit s
  | .statusRegWrite reg mask value => Sys2Proof.Machine.execStatusRegWrite reg mask value s
  | .statusRegRead reg => Sys2Proof.Machine.execStatusRegRead reg s
  | .writeEnable => Sys2Proof.Machine.execWriteEnable s
  | .volatileWriteEnable => Sys2Proof.Machine.execVolatileWriteEnable s
  | .reset => Sys2Proof.Machine.execReset s
  | .read block sector page offset len => Sys2Proof.Machine.execRead block sector page offset len s
  | .pageProgram block sector page offset tx => Sys2Proof.Machine.execPageProgram block sector page offset tx s
  | .blockErase block => Sys2Proof.Machine.execBlockErase block s
  | .sectorErase block sector => Sys2Proof.Machine.execSectorErase block sector s
  | .chipErase => Sys2Proof.Machine.execChipErase s
  | .blockLock block => Sys2Proof.Machine.execBlockLock block s
  | .blockUnlock block => Sys2Proof.Machine.execBlockUnlock block s
  | .reserved13 => Sys2Proof.Machine.execReserved13 s
  | .reserved14 => Sys2Proof.Machine.execReserved14 s
  | .reserved15 => Sys2Proof.Machine.execReserved15 s
  | .wireWren => Sys2Proof.Machine.execWireWren s
  | .wireVwren => Sys2Proof.Machine.execWireVwren s
  | .wireRsten => Sys2Proof.Machine.execWireRsten s
  | .wireRst => Sys2Proof.Machine.execWireRst s
  | .wireRead a2 a1 a0 n => Sys2Proof.Machine.execWireRead a2 a1 a0 n s
  | .wirePp a2 a1 a0 d => Sys2Proof.Machine.execWirePp a2 a1 a0 d s
  | .wireBe a2 a1 a0 => Sys2Proof.Machine.execWireBe a2 a1 a0 s
  | .wireSe a2 a1 a0 => Sys2Proof.Machine.execWireSe a2 a1 a0 s
  | .wireCe => Sys2Proof.Machine.execWireCe s
  | .wireBlockLock a2 a1 a0 => Sys2Proof.Machine.execWireBlockLock a2 a1 a0 s
  | .wireBlockUnlock a2 a1 a0 => Sys2Proof.Machine.execWireBlockUnlock a2 a1 a0 s
  | .wireRdlock a2 a1 a0 n => Sys2Proof.Machine.execWireRdlock a2 a1 a0 n s
  | .wireGunlock => Sys2Proof.Machine.execWireGunlock s
  | .wireRdsr1 n => Sys2Proof.Machine.execWireRdsr1 n s
  | .wireRdsr2 n => Sys2Proof.Machine.execWireRdsr2 n s
  | .wireRdsr3 n => Sys2Proof.Machine.execWireRdsr3 n s
  | .wireWrsr1 d => Sys2Proof.Machine.execWireWrsr1 d s
  | .wireWrsr2 d => Sys2Proof.Machine.execWireWrsr2 d s
  | .wireWrsr3 d => Sys2Proof.Machine.execWireWrsr3 d s

end Sys2Proof.Machine
end

