-- ==== Sys2Proof/Machine/Fetch.lean ====
section
/-!
DEFINITION. What a step does before an instruction runs: a point where the chip may complete, the platform's reset line,
and taking the host's next request into the latch.
-/

namespace Sys2Proof.Machine

/-- A point between two boundary events, where `Complete` may fire (R208). -/
def environmentTick (s : State) : State := s.setWorld (tick s.world)

/-- Whether the platform resets the block at this step (R273). -/
def resetAsserted (s : State) : Bool :=
  match s.rstLine with
  | b :: _ => b
  | [] => false

/-- The reset line after this step. -/
def consumeReset (s : State) : State := s.setRstLine s.rstLine.tail

/-- `Req` (R22, R23): the host's first waiting request `r` is in the latch; event `Req` (R13). -/
def takeRequest (r : Request) (rest : List Request) (s : State) : State :=
  emit (.req r) ((s.setInbox rest).setReq r)

/-- The state in which a step runs an instruction of the block: after the tick, with no reset asserted. -/
def stepBase (s : State) : State := consumeReset (environmentTick s)

end Sys2Proof.Machine
end

