-- ==== Sys2Proof/Machine/Step.lean ====
section
/-!
DEFINITION. One step of the machine. A frame the select line has just closed is executed by the chip first (46 R202: at
`CS(1)`). Otherwise `Complete` may fire (R208); the platform may reset the block (R273); a running operation takes its next
step; an idle block takes the host's next request (10_state R23), or waits.
-/

namespace Sys2Proof.Machine

/-- Run the instruction in a request tuple. -/
def runRequest (r : Request) (s : State) : Out :=
  match decode s.cfg (.request r) with
  | .ok i => exec i s
  | .error e => .refused (.notARequest e)

/-- The chip executes a closed frame (R202). -/
def runFrame (f : List Byte) (s : State) : Out :=
  match decode s.cfg (.frame f) with
  | .ok i => exec i s
  | .error _ => .next (dropFrame s)

/-- A step of the block. -/
def blockStep (s : State) : Out :=
  match s.phase with
  | some _ => runRequest s.req s
  | none =>
    match s.inbox with
    | r :: rest => runRequest r (takeRequest r rest s)
    | [] => .next s

def step (s : State) : Host.Outcome State Fault Refusal :=
  match s.chip.closed with
  | some f => runFrame f s
  | none =>
    if resetAsserted s then .next (blockReset (stepBase s)) else blockStep (stepBase s)

/-- The state with a word of spec/opcode_table.json placed where `step` fetches its next instruction: a request code at
the host port of an idle block that is not being reset, a frame in the bracket just closed (log 12). -/
def State.withFetchWord (s : State) (nbits w : Nat) : State :=
  match tableWord nbits w with
  | .request r =>
    (((s.setInbox (r :: s.inbox)).setPhase none).setRstLine []).setChip { s.chip with closed := none }
  | .frame f => s.setChip { s.chip with closed := some f }

end Sys2Proof.Machine
end

