-- ==== Sys2Proof/Safety.lean ====
section
/-!
DEFINITION. The terms the claims use: which pseudocode an instruction runs, the bracket discipline of 40 R122 read off a
trace, the invariants of a running block, and what ghost state a claim must not depend on.
-/

namespace Sys2Proof.Machine

/-- The instruction comes from the host port (R5, R84), not from the wire. -/
def isHost : Instr → Bool
  | .init => true
  | .statusRegWrite _ _ _ => true
  | .statusRegRead _ => true
  | .writeEnable => true
  | .volatileWriteEnable => true
  | .reset => true
  | .read _ _ _ _ _ => true
  | .pageProgram _ _ _ _ _ => true
  | .blockErase _ => true
  | .sectorErase _ _ => true
  | .chipErase => true
  | .blockLock _ => true
  | .blockUnlock _ => true
  | .reserved13 => true
  | .reserved14 => true
  | .reserved15 => true
  | .wireWren => false
  | .wireVwren => false
  | .wireRsten => false
  | .wireRst => false
  | .wireRead _ _ _ _ => false
  | .wirePp _ _ _ _ => false
  | .wireBe _ _ _ => false
  | .wireSe _ _ _ => false
  | .wireCe => false
  | .wireBlockLock _ _ _ => false
  | .wireBlockUnlock _ _ _ => false
  | .wireRdlock _ _ _ _ => false
  | .wireGunlock => false
  | .wireRdsr1 _ => false
  | .wireRdsr2 _ => false
  | .wireRdsr3 _ => false
  | .wireWrsr1 _ => false
  | .wireWrsr2 _ => false
  | .wireWrsr3 _ => false

/-- Why validation rejects a request (R236, R241); `none` for a request that is run, and for a wire command. -/
def rejectCause : Instr → Option Cause
  | .init => none
  | .statusRegWrite reg _ _ => if srOfReg reg = none then some .illegalRequest else none
  | .statusRegRead reg => if srOfReg reg = none then some .illegalRequest else none
  | .writeEnable => none
  | .volatileWriteEnable => none
  | .reset => none
  | .read _ sector page _ _ => if validCoords sector page then none else some .addressRangeError
  | .pageProgram _ sector page offset tx =>
    if validCoords sector page && validProgram offset tx.length then none else some .addressRangeError
  | .blockErase _ => none
  | .sectorErase _ sector => if validCoords sector 0 then none else some .addressRangeError
  | .chipErase => none
  | .blockLock _ => none
  | .blockUnlock _ => none
  | .reserved13 => some .illegalRequest
  | .reserved14 => some .illegalRequest
  | .reserved15 => some .illegalRequest
  | .wireWren => none
  | .wireVwren => none
  | .wireRsten => none
  | .wireRst => none
  | .wireRead _ _ _ _ => none
  | .wirePp _ _ _ _ => none
  | .wireBe _ _ _ => none
  | .wireSe _ _ _ => none
  | .wireCe => none
  | .wireBlockLock _ _ _ => none
  | .wireBlockUnlock _ _ _ => none
  | .wireRdlock _ _ _ _ => none
  | .wireGunlock => none
  | .wireRdsr1 _ => none
  | .wireRdsr2 _ => none
  | .wireRdsr3 _ => none
  | .wireWrsr1 _ => none
  | .wireWrsr2 _ => none
  | .wireWrsr3 _ => none

/-- The pseudocode of a host operation; empty for a reserved code and for a wire command. `old` is what step 2 of
`status_reg_write` has kept. -/
def hostSteps (p : Config.Params) (old : Byte) : Instr → List Micro
  | .init => initSteps p.ops old
  | .statusRegWrite reg mask value => statusRegWriteSteps p.ops ((srOfReg reg).getD .one) mask value old
  | .statusRegRead reg => statusRegReadSteps p.ops ((srOfReg reg).getD .one)
  | .writeEnable => writeEnableSteps p.ops
  | .volatileWriteEnable => volatileWriteEnableSteps p.ops
  | .reset => resetSteps p.ops
  | .read block sector page offset len => readSteps p.ops (linearAddr block sector page offset) len .toRxbuf
  | .pageProgram block sector page offset tx => pageProgramSteps p.ops (linearAddr block sector page offset) tx
  | .blockErase block => blockEraseSteps p.ops block
  | .sectorErase block sector => sectorEraseSteps p.ops block sector
  | .chipErase => chipEraseSteps p.ops
  | .blockLock block => blockLockSteps p block
  | .blockUnlock block => blockUnlockSteps p block
  | .reserved13 => []
  | .reserved14 => []
  | .reserved15 => []
  | .wireWren => []
  | .wireVwren => []
  | .wireRsten => []
  | .wireRst => []
  | .wireRead _ _ _ _ => []
  | .wirePp _ _ _ _ => []
  | .wireBe _ _ _ => []
  | .wireSe _ _ _ => []
  | .wireCe => []
  | .wireBlockLock _ _ _ => []
  | .wireBlockUnlock _ _ _ => []
  | .wireRdlock _ _ _ _ => []
  | .wireGunlock => []
  | .wireRdsr1 _ => []
  | .wireRdsr2 _ => []
  | .wireRdsr3 _ => []
  | .wireWrsr1 _ => []
  | .wireWrsr2 _ => []
  | .wireWrsr3 _ => []

/-! ### The bracket discipline (R122) -/

/-- Where a trace (newest event first) stands: outside a bracket, or inside one with so many exchanges. `none` when it
breaks R122: `CS` events alternate from `CS(0)`, every `X` lies inside, every `D`, `Req` and `Resp` outside, and a bracket
closes with one or two `X`. -/
def scanTrace : List Event → Option (Option Nat)
  | [] => some none
  | .cs false :: t => if scanTrace t = some none then some (some 0) else none
  | .cs true :: t =>
    if scanTrace t = some (some 1) ∨ scanTrace t = some (some 2) then some none else none
  | .x _ _ _ :: t =>
    if scanTrace t = some (some 0) then some (some 1)
    else if scanTrace t = some (some 1) then some (some 2) else none
  | .d _ :: t => if scanTrace t = some none then some none else none
  | .req _ :: t => if scanTrace t = some none then some none else none
  | .resp _ :: t => if scanTrace t = some none then some none else none

/-- Level of the select line at a stage: low only between `CsLow` and `CsHigh`. -/
def stageLine (st : Stage) : Bool :=
  match st with
  | .low => true
  | .send => false
  | .recv => false
  | .high => false
  | .judge => true

/-- Level of the select line at a phase. -/
def lineAt (ph : Option Phase) : Bool :=
  match ph with
  | none => true
  | some ph => stageLine ph.stage

/-- Where the trace stands at a stage. -/
def stageTrace (st : Stage) (r : Option (Option Nat)) : Prop :=
  match st with
  | .low => r = some none
  | .send => r = some (some 0)
  | .recv => r = some (some 1)
  | .high => r = some (some 1) ∨ r = some (some 2)
  | .judge => r = some none

/-- Where the trace stands at a phase. -/
def traceAt (ph : Option Phase) (r : Option (Option Nat)) : Prop :=
  match ph with
  | none => r = some none
  | some ph => stageTrace ph.stage r

/-- The select line and the trace keep the bracket discipline; the chip has a frame only inside a bracket (R201), and a
closed frame only outside one (R202). -/
def Bracketed (s : State) : Prop :=
  s.csN = lineAt s.phase ∧ (s.csN = true → s.chip.frame = []) ∧ (s.chip.closed ≠ none → s.csN = true) ∧
    traceAt s.phase (scanTrace s.trace)

/-- A stage that occurs in a step of the pseudocode: a delay has no bracket, a `Write` no receive phase. -/
def stageFits (m : Micro) (st : Stage) : Prop :=
  match m with
  | .delay _ => st = .low
  | .send _ => st ≠ .recv
  | .poll _ _ => True
  | .query _ _ _ => True

/-- The phase is a position of the operation the latch holds, and that operation was accepted (R22, R23). -/
def WellPhased (s : State) : Prop :=
  ∀ ph, s.phase = some ph → ∃ i m, decode s.cfg (.request s.req) = .ok i ∧ rejectCause i = none ∧
    (hostSteps s.cfg ph.old i)[ph.pc]? = some m ∧ stageFits m ph.stage

/-- What every run keeps. -/
def RunInv (s : State) : Prop := Bracketed s ∧ WellPhased s

/-- A step that does not stop with a fault. -/
def Safe (o : Out) : Prop := ∀ f, o ≠ .fault f

/-! ### Runs -/

/-- `n` steps. -/
def runSteps (n : Nat) (s : State) : Out := Host.Core.run Sys2Proof.core n s

/-- The frames a trace put on the wire, newest first. -/
def sentOf (e : Event) : Option (List Byte) :=
  match e with
  | .x tx _ _ => some tx
  | .req _ => none
  | .cs _ => none
  | .d _ => none
  | .resp _ => none

/-- The state without its ghost part (R230: it must not influence anything). -/
def dropGhost (s : State) : State := (s.setTrace []).setCause none

/-- An outcome without the ghost part of its state. -/
def dropGhostOut (o : Out) : Out :=
  match o with
  | .next s => .next (dropGhost s)
  | .fault f => .fault f
  | .refused r => .refused r

/-- The response to a rejected request (R84, R236): `OK = 0`, IDLE, the ghost cause, one event `Resp` and no boundary
event; the chip, the line, the latch and what waits are as before. -/
def Rejects (c : Cause) (s : State) (o : Out) : Prop :=
  ∃ t, o = .next t ∧ t.resp.ok = false ∧ t.run = 0 ∧ t.cause = some c ∧ t.trace = .resp t.resp :: s.trace ∧
    t.chip = s.chip ∧ t.csN = s.csN ∧ t.req = s.req ∧ t.inbox = s.inbox ∧ t.rstLine = s.rstLine ∧ t.cfg = s.cfg

/-- The operation ends with the response `r` and a ghost cause (R23, R25): IDLE, the response latch holds `r`, one event
`Resp`; nothing else changes. -/
def answered (r : Response) (cause : Option Cause) (s : State) : State :=
  emit (.resp r) (((s.setResp r).setPhase none).setCause cause)

/-- The running operation has just closed its `pc`-th bracket, whose exchanges succeeded and returned `rx`. -/
def Judging (pc : Nat) (rx : List Byte) (s : State) : Prop :=
  ∃ old, s.phase = some { pc := pc, stage := .judge, ok := true, rx := rx, old := old }

/-- A boundary event (R13), as against `Req` and `Resp`. -/
def isBoundary (e : Event) : Bool :=
  match e with
  | .cs _ => true
  | .x _ _ _ => true
  | .d _ => true
  | .req _ => false
  | .resp _ => false

/-- A request for `i` waits at the host port of an idle block whose platform does not reset it; the chip is conforming
and between commands, BUSY or not, and the opcode table is distinct (R89). -/
def RequestReady (i : Instr) (s : State) : Prop :=
  (∃ r, s.inbox = [r] ∧ decode s.cfg (.request r) = .ok i) ∧ s.phase = none ∧ s.csN = true ∧ s.rstLine = [] ∧
    s.chip.closed = none ∧ s.chip.frame = [] ∧ s.env.answers = .responder ∧ s.cfg.ops.Distinct

/-- A request for `i` waits, and the chip is READY (R34). -/
def ReadyFor (i : Instr) (s : State) : Prop := RequestReady i s ∧ chipBusy s.chip = false

/-- The link delivers the next `n` exchanges. -/
def LinkDelivers (n : Nat) (s : State) : Prop := ∃ rest, s.env.link = List.replicate n .delivered ++ rest

/-- The chip's next cycle ends at the first point where it may (R208). -/
def CycleEnds (s : State) : Prop := ∃ rest, s.env.complete = true :: rest

/-- The run from `s` takes every waiting request and comes to a `Resp`, its newest event, in an IDLE state with `P`. Where
a request waits in `s` this takes at least one step. -/
def RunsTo (s : State) (P : State → Prop) : Prop :=
  ∃ n t, runSteps n s = .next t ∧ t.phase = none ∧ t.inbox = [] ∧ t.trace.head? = some (.resp t.resp) ∧ P t

/-- The frames put on the wire between `s` and `t`, oldest first. -/
def Sent (s t : State) (frames : List (List Byte)) : Prop :=
  t.trace.filterMap sentOf = frames.reverse ++ s.trace.filterMap sentOf

end Sys2Proof.Machine
end

