-- ==== Sys2Proof/Certificates/Slice0/Obligations.lean ====
section
/-!
DEFINITION. The statements for the provers. Each docstring names the rules of spec/ it formalises.
-/

open Sys2Proof Sys2Proof.Machine

/-! ### Encoding -/

/-- Decoding an encoded well-formed instruction gives it back, for every opcode table that keeps R89 and every setting
of the other parameters (R80, R81, R85, R86, R88). -/
def Obligations.DecodeEncodeRoundTrip : Prop :=
  ∀ (p : Config.Params) (i : Instr), p.ops.Distinct → i.wf p = true → decode p (encode p i) = .ok i

/-- Words written out from R81 and from the default column of R88, one or two of each family; the default opcodes are
distinct (R89). The opcode bytes are general knowledge in the spec (R88; log 11), the reading of table words is the
model's choice (log 12). -/
def Obligations.WrittenWordsDecode : Prop :=
  let p := Config.Params.defaults
  p.ops.Distinct ∧
  decodeTableWord 8 0x6 = some (.read 0 0 0 0 0) ∧
  decodeTableWord 8 0xD = some .reserved13 ∧
  decodeTableWord 8 0xD8 = some (.wireBe 0 0 0) ∧
  decode p (.request ⟨9, 1, 1, 0, 0, 0, 0, 0, 0, []⟩) = .ok (.sectorErase 1 1) ∧
  decode p (.request ⟨1, 0, 0, 0, 0, 3, 0x04, 0x04, 0, []⟩) = .ok (.statusRegWrite 3 0x04 0x04) ∧
  decode p (.request ⟨7, 1, 1, 1, 0, 0, 0, 0, 3, [0x02, 0x04, 0x06]⟩) = .ok (.pageProgram 1 1 1 0 [0x02, 0x04, 0x06]) ∧
  decode p (.frame [0x02, 0x01, 0x11, 0x00, 0x02, 0x04, 0x06]) = .ok (.wirePp 0x01 0x11 0x00 [0x02, 0x04, 0x06]) ∧
  decode p (.frame [0x03, 0x01, 0x11, 0x00, 0x00, 0x00, 0x00]) = .ok (.wireRead 0x01 0x11 0x00 3) ∧
  decode p (.frame [0x11, 0x64]) = .ok (.wireWrsr3 0x64) ∧
  decode p (.frame [0x36, 0x05, 0x00, 0x00]) = .ok (.wireBlockLock 0x05 0x00 0x00)

/-- R216 and R202 (the spec's decision D35): what the chip does with a short or odd frame. An empty frame, an opcode not
in the table, W3, W4 and W5 frames with fewer than 4 bytes and a W1 frame with 1 byte change nothing; a page-program
frame with a complete header is executed with the data bytes that came, at most the 256 of R85's W5 format; bytes after
a command's format are ignored. The model's readings: an ignored frame leaves `rst_en` as it was (log 19, DEDUCED from
R202); a page-program frame is cut at 256 data bytes (log 22, DEDUCED from R85 with R216). -/
def Obligations.ShortAndOddFrames : Prop :=
  ∀ s : State, (s.chip.closed = some [] → step s = .next (dropFrame s)) ∧
    ∀ (op : Byte) (rest : List Byte), s.chip.closed = some (op :: rest) →
    (s.cfg.ops.lookup op = none → step s = .next (dropFrame s)) ∧
    (∀ w ∈ [WireOp.read, .pp, .be, .se, .blockLock, .blockUnlock, .rdlock],
      s.cfg.ops.lookup op = some w → rest.length < 3 → step s = .next (dropFrame s)) ∧
    (∀ w ∈ [WireOp.wrsr1, .wrsr2, .wrsr3], s.cfg.ops.lookup op = some w → rest = [] → step s = .next (dropFrame s)) ∧
    (∀ a2 a1 a0 d, s.cfg.ops.lookup op = some .pp → rest = a2 :: a1 :: a0 :: d →
      step s = exec (.wirePp a2 a1 a0 (d.take 256)) s) ∧
    (∀ w i, (w, i) ∈ [(WireOp.wren, Instr.wireWren), (.vwren, .wireVwren), (.rsten, .wireRsten), (.rst, .wireRst),
        (.ce, .wireCe), (.gunlock, .wireGunlock)] → s.cfg.ops.lookup op = some w → step s = exec i s) ∧
    (∀ a2 a1 a0 extra w i, rest = a2 :: a1 :: a0 :: extra →
      (w, i) ∈ [(WireOp.be, Instr.wireBe a2 a1 a0), (.se, .wireSe a2 a1 a0), (.blockLock, .wireBlockLock a2 a1 a0),
        (.blockUnlock, .wireBlockUnlock a2 a1 a0)] → s.cfg.ops.lookup op = some w → step s = exec i s) ∧
    (∀ d extra w i, rest = d :: extra →
      (w, i) ∈ [(WireOp.wrsr1, Instr.wireWrsr1 d), (.wrsr2, .wireWrsr2 d), (.wrsr3, .wireWrsr3 d)] →
      s.cfg.ops.lookup op = some w → step s = exec i s)

/-! ### The step -/

/-- A step runs the decoded instruction: the chip the frame just closed (R202); a running block the operation in its
latch; an idle block the host's next request, taken into the latch (R22, R23), or nothing when none waits. What the
step adds is `stepBase` (a point where the chip may complete, R208) and `takeRequest` (the latch and the event `Req`).
The order of the cases is the model's choice (log 13). -/
def Obligations.StepRunsDecodedInstruction : Prop :=
  ∀ (s : State) (i : Instr),
    (∀ f, s.chip.closed = some f → decode s.cfg (.frame f) = .ok i → step s = exec i s) ∧
    (∀ ph, s.chip.closed = none → resetAsserted s = false → s.phase = some ph →
      decode s.cfg (.request s.req) = .ok i → step s = exec i (stepBase s)) ∧
    (∀ r rest, s.chip.closed = none → resetAsserted s = false → s.phase = none → s.inbox = r :: rest →
      decode s.cfg (.request r) = .ok i → step s = exec i (takeRequest r rest (stepBase s))) ∧
    (s.chip.closed = none → resetAsserted s = false → s.phase = none → s.inbox = [] → step s = .next (stepBase s))

/-- R23 with R22's legal values and R52 (block and offset are never rejected): a request outside those of
`InvalidRequestsRejected` is accepted. It sets `run`, puts the phase at the operation's first step and emits no
boundary event; the chip, the line, the latch, the waiting requests and the parameters are as before. -/
def Obligations.AcceptedRequestStarts : Prop :=
  ∀ (s : State), s.phase = none →
    let Starts := fun i => ∃ t, exec i s = .next t ∧ t.run = 1 ∧ t.phase = some (phaseAt 0 0) ∧ t.trace = s.trace ∧
      t.chip = s.chip ∧ t.csN = s.csN ∧ t.req = s.req ∧ t.inbox = s.inbox ∧ t.rstLine = s.rstLine ∧ t.cfg = s.cfg ∧
      t.cause = s.cause
    (∀ b sec pg off len, sec.toNat ≤ 15 → pg.toNat ≤ 15 → Starts (.read b sec pg off len)) ∧
    (∀ b sec pg off tx, sec.toNat ≤ 15 → pg.toNat ≤ 15 → off.toNat + tx.length ≤ 256 →
      Starts (.pageProgram b sec pg off tx)) ∧
    (∀ b sec, sec.toNat ≤ 15 → Starts (.sectorErase b sec)) ∧
    (∀ reg m v, reg ≠ 0 → Starts (.statusRegWrite reg m v) ∧ Starts (.statusRegRead reg)) ∧
    (∀ b, Starts (.blockErase b) ∧ Starts (.blockLock b) ∧ Starts (.blockUnlock b)) ∧
    (∀ i ∈ [Instr.init, .writeEnable, .volatileWriteEnable, .reset, .chipErase], Starts i)

/-- R236 and R84 (with R52, R58, R132, R172): which requests are rejected, and that rejection is `Resp(OK = 0)` with
no boundary event. -/
def Obligations.InvalidRequestsRejected : Prop :=
  ∀ (s : State),
    (∀ b sec pg off len, 15 < sec.toNat ∨ 15 < pg.toNat →
      Rejects .addressRangeError s (exec (.read b sec pg off len) s)) ∧
    (∀ b sec pg off tx, 15 < sec.toNat ∨ 15 < pg.toNat ∨ 256 < tx.length ∨ 256 < off.toNat + tx.length →
      Rejects .addressRangeError s (exec (.pageProgram b sec pg off tx) s)) ∧
    (∀ b sec, 15 < sec.toNat → Rejects .addressRangeError s (exec (.sectorErase b sec) s)) ∧
    (∀ m v, Rejects .illegalRequest s (exec (.statusRegWrite 0 m v) s)) ∧
    Rejects .illegalRequest s (exec (.statusRegRead 0) s) ∧
    Rejects .illegalRequest s (exec .reserved13 s) ∧
    Rejects .illegalRequest s (exec .reserved14 s) ∧
    Rejects .illegalRequest s (exec .reserved15 s)

/-- R94: the wire commands each operation puts on the link, in order. -/
def Obligations.OperationsSendTheirCommands : Prop :=
  ∀ (p : Config.Params) (old : Byte),
    let t := p.ops
    let sends := fun i => (hostSteps p old i).filterMap fun m => (sentBytes m).bind List.head?
    let we := [t.rdsr1, t.wren, t.rdsr1]
    let srw := fun r => [t.rdsr1, rdsrOp t r, t.rdsr1, t.vwren, wrsrOp t r, t.rdsr1, t.rdsr1, rdsrOp t r]
    sends .writeEnable = we ∧ sends .volatileWriteEnable = [t.rdsr1, t.vwren] ∧
    (∀ reg r, srOfReg reg = some r → sends (.statusRegRead reg) = [rdsrOp t r]) ∧
    (∀ reg r m v, srOfReg reg = some r → sends (.statusRegWrite reg m v) = srw r) ∧
    sends .reset = [t.rdsr1] ++ we ++ [t.rsten, t.rst, t.rdsr1] ∧
    sends .init = [t.rdsr3] ++ srw .three ++ we ++ [t.gunlock] ∧
    (∀ b sec pg off len, sends (.read b sec pg off len) = [t.rdsr1, t.read]) ∧
    (∀ b sec pg off tx, sends (.pageProgram b sec pg off tx) = [t.rdsr1] ++ we ++ [t.pp, t.rdsr1, t.read]) ∧
    (∀ b, sends (.blockErase b) = [t.rdsr1] ++ we ++ [t.be, t.rdsr1, t.rdsr1]) ∧
    (∀ b sec, sends (.sectorErase b sec) = [t.rdsr1] ++ we ++ [t.se, t.rdsr1, t.rdsr1]) ∧
    sends .chipErase = [t.rdsr1] ++ we ++ [t.ce, t.rdsr1, t.rdsr1] ∧
    (∀ b, sends (.blockLock b) = [t.rdlock] ++ we ++ [t.blockLock]) ∧
    (∀ b, sends (.blockUnlock b) = [t.rdlock] ++ we ++ [t.blockUnlock])

/-! ### How each operation ends -/

/-- The last steps of R134 and R152: `write_enable` answers `OK = 1` when WEL reads 1 and `LatchVerifyFailure` when it
reads 0; `reset` answers `OK = 1` when WEL reads 0 and `ResetVerifyFailure` when it reads 1. As a sub-step of `reset`,
`init`, `page_program`, the erases and the lock operations (R134, R152, R153, R162, R171 to R173, R182, R183)
`write_enable`'s verifying read, the step after its frame, ends the operation with `LatchVerifyFailure` and no further
frame when WEL reads 0, and lets it go on to its next step when WEL reads 1. -/
def Obligations.LatchVerifiedOperationsAnswer : Prop :=
  ∀ (s : State) (v : Byte),
    (Judging 2 [v] s →
      (v.getLsbD 1 = true → exec .writeEnable s = .next (answered { s.resp with ok := true } none s)) ∧
      (v.getLsbD 1 = false → Rejects .latchVerifyFailure s (exec .writeEnable s))) ∧
    (Judging 7 [v] s →
      (v.getLsbD 1 = false → exec .reset s = .next (answered { s.resp with ok := true } none s)) ∧
      (v.getLsbD 1 = true → Rejects .resetVerifyFailure s (exec .reset s))) ∧
    (∀ (b sec pg off : Byte) (tx : List Byte) (i : Instr) (pc : Nat), sec.toNat ≤ 15 → pg.toNat ≤ 15 →
      off.toNat + tx.length ≤ 256 →
      (i, pc) ∈ [(Instr.reset, 3), (.init, 12), (.pageProgram b sec pg off tx, 3), (.blockErase b, 3),
        (.sectorErase b sec, 3), (.chipErase, 3), (.blockLock b, 3), (.blockUnlock b, 3)] →
      (∀ old, (hostSteps s.cfg old i)[pc - 1]? = some (.send [s.cfg.ops.wren])) ∧
      (∀ ph, Judging pc [v] s → s.phase = some ph →
        (v.getLsbD 1 = true → exec i s = .next (s.setPhase (some (phaseAt (pc + 1) ph.old)))) ∧
        (v.getLsbD 1 = false → Rejects .latchVerifyFailure s (exec i s))))

/-- The operations that end with a delivered frame answer `OK = 1` (R135, R153, R182, R183). -/
def Obligations.FrameEndedOperationsAnswer : Prop :=
  ∀ (s : State) (rx : List Byte) (b : Byte),
    (Judging 1 rx s → exec .volatileWriteEnable s = .next (answered { s.resp with ok := true } none s)) ∧
    (Judging 13 rx s → exec .init s = .next (answered { s.resp with ok := true } none s)) ∧
    (Judging 4 rx s → exec (.blockLock b) s = .next (answered { s.resp with ok := true } none s)) ∧
    (Judging 4 rx s → exec (.blockUnlock b) s = .next (answered { s.resp with ok := true } none s))

/-- R132, R161: `status_reg_read` answers the byte read in `RVAL`, `read` the bytes received in `RXBUF`. -/
def Obligations.ReadsAnswerTheirBytes : Prop :=
  ∀ (s : State),
    (∀ (reg : BitVec 2) (v : Byte), reg ≠ 0 → Judging 0 [v] s →
      exec (.statusRegRead reg) s = .next (answered { s.resp with ok := true, rval := v } none s)) ∧
    (∀ (b sec pg off : Byte) (len : Nat) (rx : List Byte), sec.toNat ≤ 15 → pg.toNat ≤ 15 → Judging 1 rx s →
      exec (.read b sec pg off len) s = .next (answered { s.resp with ok := true, rxbuf := rx } none s))

/-- R133's last step: the masked bits of the re-read decide. In `init` the same step of the status write it runs (R153,
R230) goes on when WPS reads 1, and ends `init` with `StatusVerifyMismatch` when it reads 0. -/
def Obligations.StatusRegWriteAnswers : Prop :=
  ∀ (s : State) (chk : Byte),
    (∀ (reg : BitVec 2) (mask value : Byte), reg ≠ 0 → Judging 8 [chk] s →
      (chk &&& mask = value &&& mask →
        exec (.statusRegWrite reg mask value) s = .next (answered { s.resp with ok := true } none s)) ∧
      (chk &&& mask ≠ value &&& mask →
        Rejects .statusVerifyMismatch s (exec (.statusRegWrite reg mask value) s))) ∧
    (∀ ph, Judging 9 [chk] s → s.phase = some ph →
      (chk.getLsbD 2 = true → exec .init s = .next (s.setPhase (some (phaseAt 10 ph.old)))) ∧
      (chk.getLsbD 2 = false → Rejects .statusVerifyMismatch s (exec .init s)))

/-- R162's last step: a read-back equal to `TXBUF` answers `OK = 1` with it in `VBUF`; any other is
`VerificationMismatch`, with what was read back in `VBUF`. -/
def Obligations.PageProgramAnswers : Prop :=
  ∀ (s : State) (b sec pg off : Byte) (tx rx : List Byte), sec.toNat ≤ 15 → pg.toNat ≤ 15 →
    off.toNat + tx.length ≤ 256 → Judging 6 rx s →
    (rx = tx → exec (.pageProgram b sec pg off tx) s =
      .next (answered { s.resp with ok := true, vbuf := tx } none s)) ∧
    (rx ≠ tx → ∃ t, exec (.pageProgram b sec pg off tx) s = .next t ∧ t.resp.ok = false ∧ t.resp.vbuf = rx ∧
      t.cause = some .verificationMismatch ∧ t.run = 0 ∧ t.chip = s.chip ∧ t.trace = .resp t.resp :: s.trace)

/-- R171, R172, R173: an erase answers `OK = 1` when the last poll shows WEL clear; while it shows WEL set it polls
again. -/
def Obligations.EraseAnswers : Prop :=
  ∀ (s : State) (v b sec : Byte), sec.toNat ≤ 15 →
    (v.getLsbD 1 = false →
      (Judging 6 [v] s → exec (.blockErase b) s = .next (answered { s.resp with ok := true } none s) ∧
        exec (.sectorErase b sec) s = .next (answered { s.resp with ok := true } none s)) ∧
      (Judging 7 [v] s → exec .chipErase s = .next (answered { s.resp with ok := true } none s))) ∧
    (v.getLsbD 1 = true →
      (Judging 6 [v] s → ∃ old, exec (.blockErase b) s = .next (s.setPhase (some (phaseAt 6 old))) ∧
        exec (.sectorErase b sec) s = .next (s.setPhase (some (phaseAt 6 old)))) ∧
      (Judging 7 [v] s → ∃ old, exec .chipErase s = .next (s.setPhase (some (phaseAt 7 old)))))

/-- R182, R183: a block already in the target state is refused after the query, with nothing else sent; otherwise the
operation goes on. Only bit `LOCK_BIT` is looked at (R92). -/
def Obligations.LockStateConflictRefused : Prop :=
  ∀ (s : State) (b v : Byte), Judging 0 [v] s →
    (v.getLsbD s.cfg.lockBit = true → Rejects .lockStateConflict s (exec (.blockLock b) s) ∧
      ∃ old, exec (.blockUnlock b) s = .next (s.setPhase (some (phaseAt 1 old)))) ∧
    (v.getLsbD s.cfg.lockBit = false → Rejects .lockStateConflict s (exec (.blockUnlock b) s) ∧
      ∃ old, exec (.blockLock b) s = .next (s.setPhase (some (phaseAt 1 old))))

/-! ### How a running operation goes on -/

/-- R231: after a failed bracket the operation ends at once with `OK = 0` and `TransportFailure`, with no further
event than `Resp`; the one exception is a poll under `POLL_FAIL` = retry, which polls again (R130, R232). -/
def Obligations.FirstFailureEndsOperation : Prop :=
  ∀ (i : Instr) (s : State) (ph : Phase) (m : Micro), isHost i = true → rejectCause i = none → s.phase = some ph →
    (hostSteps s.cfg ph.old i)[ph.pc]? = some m → stageFits m ph.stage → ph.stage = .judge → ph.ok = false →
    ((∀ op bit, m ≠ .poll op bit) ∨ s.cfg.pollFail = .abort → Rejects .transportFailure s (exec i s)) ∧
    (∀ op bit, m = .poll op bit → s.cfg.pollFail = .retry →
      exec i s = .next (s.setPhase (some (phaseAt ph.pc ph.old))))

/-- R130, R131, R232: a poll whose byte shows the bit set polls again, with no bound; one that shows it clear goes on
to the next step of the operation, or answers `OK = 1` after the last. A step of an operation that is at a poll leaves
it at that poll, unless the byte just read shows the bit clear, or the read failed under `POLL_FAIL` = abort, and then
`OK = 0`. -/
def Obligations.PollRepeatsUntilClear : Prop :=
  ∀ (i : Instr) (s : State) (ph : Phase) (op : Byte) (bit : Nat), isHost i = true → rejectCause i = none →
    s.phase = some ph → (hostSteps s.cfg ph.old i)[ph.pc]? = some (.poll op bit) →
    (ph.stage = .judge → ph.ok = true → (ph.rx.headD 0).getLsbD bit = true →
      exec i s = .next (s.setPhase (some (phaseAt ph.pc ph.old)))) ∧
    (ph.stage = .judge → ph.ok = true → (ph.rx.headD 0).getLsbD bit = false →
      (ph.pc + 1 < (hostSteps s.cfg ph.old i).length → exec i s = .next (s.setPhase (some (phaseAt (ph.pc + 1) ph.old)))) ∧
      (ph.pc + 1 = (hostSteps s.cfg ph.old i).length →
        exec i s = .next (answered { s.resp with ok := true } none s))) ∧
    (∀ t, exec i s = .next t →
      (∃ ph', t.phase = some ph' ∧ ph'.pc = ph.pc ∧ ph'.old = ph.old ∧ t.resp = s.resp) ∨
      (ph.stage = .judge ∧ ph.ok = true ∧ (ph.rx.headD 0).getLsbD bit = false) ∨
      (ph.stage = .judge ∧ ph.ok = false ∧ s.cfg.pollFail = .abort ∧ t.phase = none ∧ t.resp.ok = false))

/-- R113 to R116: a bracket is `CsLow`, the send exchange, for a `Sequential` whose send succeeded the receive
exchange of filler bytes, and `CsHigh`, which comes whether or not the exchanges succeeded. The chip's frame is emptied
at `CS(0)`, and at `CS(1)` it is taken for execution (R201, R202). That the chip holds the frame pending after `CsHigh`
and executes it in a step of its own, where R202 executes it at `CS(1)`, and that the judgement after the bracket is a
further step, is the model's choice (log 13). -/
def Obligations.BracketRunsItsExchanges : Prop :=
  ∀ (i : Instr) (s : State) (ph : Phase) (m : Micro) (tx : List Byte), isHost i = true → rejectCause i = none →
    s.phase = some ph → (hostSteps s.cfg ph.old i)[ph.pc]? = some m → sentBytes m = some tx →
    (ph.stage = .low → s.csN = true → ∃ t, exec i s = .next t ∧ t.csN = false ∧ t.trace = .cs false :: s.trace ∧
      t.chip = { s.chip with frame := [] } ∧ t.phase = some { ph with stage := .send }) ∧
    (ph.stage = .send → s.csN = false → ∃ t, exec i s = .next t ∧ t.csN = false ∧
      (∃ ok rx w, exchange s.cfg tx s.world = (ok, rx, w) ∧ t.chip = w.chip ∧ t.env = w.env ∧
        t.trace = .x tx rx ok :: s.trace ∧ t.phase = some { ph with
          stage := if ok = true ∧ (receiveCount m).isSome = true then .recv else .high, ok := ok, rx := rx })) ∧
    (∀ n, ph.stage = .recv → receiveCount m = some n → s.csN = false → ∃ t, exec i s = .next t ∧ t.csN = false ∧
      (∃ ok rx w, exchange s.cfg (List.replicate n 0x00) s.world = (ok, rx, w) ∧ t.chip = w.chip ∧ t.env = w.env ∧
        t.trace = .x (List.replicate n 0x00) rx ok :: s.trace ∧
        t.phase = some { ph with stage := .high, ok := ok, rx := rx })) ∧
    (ph.stage = .high → s.csN = false → ∃ t, exec i s = .next t ∧ t.csN = true ∧ t.trace = .cs true :: s.trace ∧
      t.chip = { s.chip with frame := [], closed := some s.chip.frame } ∧ t.phase = some { ph with stage := .judge })

/-- R274 (with R133, R152, R153, R173, R250): the fixed delays, each one event `D` in microseconds, and the next step: 1
between a status write frame, of `status_reg_write` or of `init`, and the first poll; 30 between the reset-device frame
and the status read that judges it; 150 000 between the chip-erase frame and the first poll. No other step of an
operation is a delay. -/
def Obligations.FixedDelays : Prop :=
  ∀ (s : State) (old mask value : Byte) (reg : BitVec 2) (r : SrNum), srOfReg reg = some r →
    let t := s.cfg.ops
    let between := fun (i : Instr) (pc us : Nat) (before after : Micro) =>
      (hostSteps s.cfg old i)[pc - 1]? = some before ∧ (hostSteps s.cfg old i)[pc + 1]? = some after ∧
        (s.phase = some (phaseAt pc old) → exec i s = .next (emit (.d us) (s.setPhase (some (phaseAt (pc + 1) old)))))
    between (.statusRegWrite reg mask value) 5 1 (.send [wrsrOp t r, maskedUpdate old mask value]) (.poll t.rdsr1 0) ∧
    between .init 6 1 (.send [t.wrsr3, maskedUpdate old 0x04 0x04]) (.poll t.rdsr1 0) ∧
    between .reset 6 30 (.send [t.rst]) (.query [t.rdsr1] 1 (.expectBit 1 false .resetVerifyFailure)) ∧
    between .chipErase 5 150000 (.send [t.ce]) (.poll t.rdsr1 0) ∧
    (∀ (i : Instr) (pc us : Nat), rejectCause i = none → (hostSteps s.cfg old i)[pc]? = some (.delay us) →
      ((∃ reg mask value, i = .statusRegWrite reg mask value) ∧ pc = 5 ∧ us = 1) ∨ (i = .init ∧ pc = 6 ∧ us = 1) ∨
        (i = .reset ∧ pc = 6 ∧ us = 30) ∨ (i = .chipErase ∧ pc = 5 ∧ us = 150000))

/-- R23: each step of an operation performs at most one boundary event, and adds to the trace without changing it. -/
def Obligations.OneBoundaryEventPerStep : Prop :=
  ∀ (i : Instr) (s t : State), isHost i = true → exec i s = .next t →
    ∃ evs, t.trace = evs ++ s.trace ∧ (evs.filter isBoundary).length ≤ 1

/-- The frame of a host operation's step (R21, R22, R27): the request latch, the waiting requests, the parameters and
the reset line are unchanged; of the chip the array, the lock bits, registers 2 and 3, bits 7:2 of register 1 and
`rst_en` are unchanged, and BUSY and WEL do not rise; BUSY, WEL and `vsr_en` may clear at a point of completion inside
the step (R208; where those points lie is log 14). That this holds of the `CsHigh` step too is the model's choice (log
13): R202 executes the frame at `CS(1)`, the model in the chip's own step directly after `CsHigh`, which is no step of
a host operation. -/
def Obligations.HostStepFrame : Prop :=
  ∀ (i : Instr) (s t : State), isHost i = true → exec i s = .next t →
    t.cfg = s.cfg ∧ t.req = s.req ∧ t.inbox = s.inbox ∧ t.rstLine = s.rstLine ∧
    t.chip.array = s.chip.array ∧ (∀ a, t.chip.array.read a = s.chip.array.read a) ∧ t.chip.lock = s.chip.lock ∧
    t.chip.sr2 = s.chip.sr2 ∧ t.chip.sr3 = s.chip.sr3 ∧ t.chip.rstEn = s.chip.rstEn ∧
    (∀ k : Nat, 2 ≤ k → t.chip.sr1.getLsbD k = s.chip.sr1.getLsbD k) ∧
    (chipBusy s.chip = false → t.chip.sr1 = s.chip.sr1 ∧ t.chip.vsrEn = s.chip.vsrEn) ∧
    (chipBusy t.chip = true → chipBusy s.chip = true) ∧ (chipWel t.chip = true → chipWel s.chip = true)

/-- R25: while an operation goes on its steps leave the response latch alone: it is written at `Resp`. -/
def Obligations.ResponseLatchWrittenAtResp : Prop :=
  ∀ (i : Instr) (s t : State), isHost i = true → exec i s = .next t → s.phase ≠ none → t.phase ≠ none → t.resp = s.resp

/-- R242 and R230: a running operation that ends with `OK = 0` is IDLE, has a ghost cause, has emitted its `Resp` and
nothing else in that step, and has left the chip and the line alone. -/
def Obligations.FailureExit : Prop :=
  ∀ (i : Instr) (s t : State), isHost i = true → s.phase ≠ none → exec i s = .next t → t.phase = none →
    t.resp.ok = false → t.run = 0 ∧ t.cause ≠ none ∧ t.trace = .resp t.resp :: s.trace ∧ t.chip = s.chip ∧ t.csN = s.csN

/-- R137, R163 and section 5 of the glossary: a self-verifying operation that ends with `OK = 1` has just read back
the outcome it was asked for. -/
def Obligations.SelfVerifyingOperations : Prop :=
  ∀ (s t : State) (ph : Phase), s.phase = some ph → t.phase = none → t.resp.ok = true →
    (exec .writeEnable s = .next t → (ph.rx.headD 0).getLsbD 1 = true) ∧
    (exec .reset s = .next t → (ph.rx.headD 0).getLsbD 1 = false) ∧
    (∀ reg mask value, exec (.statusRegWrite reg mask value) s = .next t →
      ph.rx.headD 0 &&& mask = value &&& mask) ∧
    (∀ b sec pg off tx, exec (.pageProgram b sec pg off tx) s = .next t → ph.rx = tx ∧ t.resp.vbuf = tx)

/-! ### Invariants and whole-machine rules -/

/-- R122, R23, R201, R202: every step keeps the bracket discipline of the trace and the line, and the phase a position
of the accepted operation in the latch. That a closed frame may be pending at the chip outside a bracket is the model's
choice (log 13). -/
def Obligations.StepKeepsBracketDiscipline : Prop :=
  ∀ s t : State, RunInv s → step s = .next t → RunInv t

/-- With the discipline kept a step never stops on a fault, and it does not stop at all when what the host presents is
a request (R22: `LEN` at most `LEN_MAX`, `TXBUF` of `LEN` bytes). That a tuple which is no request is refused is the
model's choice (log 17). -/
def Obligations.DisciplinedBlockNeverStops : Prop :=
  ∀ s : State, RunInv s →
    Safe (step s) ∧
    ((∀ r rest, s.inbox = r :: rest → ∃ i, decode s.cfg (.request r) = .ok i) → ∃ t, step s = .next t)

/-- Every step keeps the array in its canonical form. The form is the model's choice (log 3). -/
def Obligations.StepKeepsMemoryCanonical : Prop :=
  ∀ s t : State, Memory.wf s.chip.array → step s = .next t → Memory.wf t.chip.array

/-- R37, R260: reset leaves the block IDLE with the line inactive and nothing emitted, and the state meets the
invariants every step keeps. The chip's contents at reset are the model's choice (logs 2 and 3). -/
def Obligations.ResetMeetsInvariants : Prop :=
  State.reset.run = 0 ∧ State.reset.phase = none ∧ State.reset.csN = true ∧ State.reset.trace = [] ∧
    RunInv State.reset ∧ Memory.wf State.reset.chip.array

/-- R260, R261, R273: reset of the block, at any phase with no closed frame pending at the chip: IDLE, line inactive, no
event, an open bracket closed at the chip, the parameters as they were (R10). The reset changes nothing else of the
chip: it is as the point of completion at the start of the step leaves it, where with BUSY = 1 a completion may clear
BUSY, WEL and `vsr_en` (R208; that a step begins with such a point is log 14). That no reset falls while a closed frame is pending,
that the waiting requests stay, that the trace starts anew, and that the frame the reset closed is then executed, is the
model's choice (logs 13 and 15). -/
def Obligations.BlockResetSparesChip : Prop :=
  ∀ s : State, s.chip.closed = none → resetAsserted s = true →
    ∃ t, step s = .next t ∧ t.run = 0 ∧ t.csN = true ∧ t.trace = [] ∧ t.inbox = s.inbox ∧ t.cfg = s.cfg ∧
      t.chip = { (tick s.world).chip with
        frame := if s.csN then (tick s.world).chip.frame else []
        closed := if s.csN then none else some (tick s.world).chip.frame }

/-- R22: the request latch is constant from `Req` to `Resp`, and no step changes the parameters (R10). -/
def Obligations.LatchConstantWhileRunning : Prop :=
  ∀ s t : State, step s = .next t → t.cfg = s.cfg ∧ (s.phase ≠ none → t.phase ≠ none → t.req = s.req)

/-- R230: the ghost cause, and with it the trace, influences nothing. -/
def Obligations.GhostInfluencesNothing : Prop :=
  ∀ s : State, dropGhostOut (step s) = dropGhostOut (step (dropGhost s))

/-- Which instructions change what on the chip (R34): the array only page-program and the erases; the lock bits only
block-lock, block-unlock, global-unlock (R33) and reset-device (R215); registers 2 and 3, and bits 7:2 of register 1,
only their status write and reset-device (R29, R207, R215). BUSY is set only by a status write, page-program or an
erase. WEL is set only by write-enable (R204), and cleared only by a cycle that ends during a step of the block (R208), a
page-program or an erase (refused as protected), a lock command under `LOCK_CLEARS_WEL` (R213) or reset-device; a status
write of register 1 writes it only where `RO(1)`, a parameter (R207), leaves it writable. `vsr_en` is set only by
volatile-write-enable (R205) and cleared only by a cycle that ends or reset-device; `rst_en` is set only by enable-reset
and cleared only by another command (R202, R215; that a command not accepted clears it is log 19, DEDUCED). -/
def Obligations.ChipStateChangedOnlyBy : Prop :=
  ∀ (i : Instr) (s t : State), exec i s = .next t →
    let program := ∃ a2 a1 a0 d, i = Instr.wirePp a2 a1 a0 d
    let erase := (∃ a2 a1 a0, i = Instr.wireBe a2 a1 a0 ∨ i = .wireSe a2 a1 a0) ∨ i = .wireCe
    let lock := (∃ a2 a1 a0, i = Instr.wireBlockLock a2 a1 a0 ∨ i = .wireBlockUnlock a2 a1 a0) ∨ i = .wireGunlock
    let status1 := ∃ d, i = Instr.wireWrsr1 d
    let status2 := ∃ d, i = Instr.wireWrsr2 d
    let status3 := ∃ d, i = Instr.wireWrsr3 d
    let completed := isHost i = true ∧ chipBusy s.chip = true
    (t.chip.array ≠ s.chip.array → program ∨ erase) ∧
    (t.chip.lock ≠ s.chip.lock → lock ∨ i = .wireRst) ∧
    (t.chip.sr2 ≠ s.chip.sr2 → status2 ∨ i = .wireRst) ∧
    (t.chip.sr3 ≠ s.chip.sr3 → status3 ∨ i = .wireRst) ∧
    (∀ k : Nat, 2 ≤ k → t.chip.sr1.getLsbD k ≠ s.chip.sr1.getLsbD k → status1 ∨ i = .wireRst) ∧
    (chipBusy s.chip = false → chipBusy t.chip = true → status1 ∨ status2 ∨ status3 ∨ program ∨ erase) ∧
    (chipWel s.chip = false → chipWel t.chip = true →
      i = .wireWren ∨ (status1 ∧ s.cfg.ro1.getLsbD 1 = false)) ∧
    (chipWel s.chip = true → chipWel t.chip = false →
      completed ∨ program ∨ erase ∨ (lock ∧ s.cfg.lockClearsWel = true) ∨ i = .wireRst ∨
        (status1 ∧ s.cfg.ro1.getLsbD 1 = false)) ∧
    (s.chip.vsrEn = false → t.chip.vsrEn = true → i = .wireVwren) ∧
    (s.chip.vsrEn = true → t.chip.vsrEn = false → completed ∨ i = .wireRst) ∧
    (s.chip.rstEn = false → t.chip.rstEn = true → i = .wireRsten) ∧
    (s.chip.rstEn = true → t.chip.rstEn = false → isHost i = false ∧ i ≠ .wireRsten)

/-- R32: the block cannot end a cycle; BUSY falls only by the chip's own `Complete`. No command ends it, and a step of
an operation ends it only together with WEL and `vsr_en`, as R208's `Complete` does. -/
def Obligations.OnlyCompletionClearsBusy : Prop :=
  ∀ (i : Instr) (s t : State), exec i s = .next t → chipBusy s.chip = true → chipBusy t.chip = false →
    isHost i = true ∧ chipWel t.chip = false ∧ t.chip.vsrEn = false

/-- R237: a chip that goes on showing the polled bit hangs the operation. For every `n` there is the run of `n` more
status reads of register 1 (six steps each: the line, two exchanges, the line, the chip's command, the judgement)
after which the operation is where it was and no `Resp` has come. The six steps are the model's choice (log 13). -/
def Obligations.StuckChipHangs : Prop :=
  ∀ (n : Nat) (i : Instr) (s : State) (bit pc : Nat) (old : Byte),
    decode s.cfg (.request s.req) = .ok i → rejectCause i = none → s.phase = some (phaseAt pc old) →
    (hostSteps s.cfg old i)[pc]? = some (.poll s.cfg.ops.rdsr1 bit) → s.csN = true → s.chip.closed = none →
    s.rstLine = [] → s.env.answers = .responder → s.cfg.ops.Distinct → s.chip.sr1.getLsbD bit = true →
    LinkDelivers (2 * n) s →
    (chipBusy s.chip = true → ∃ rest, s.env.complete = List.replicate (7 * n) false ++ rest) →
    ∃ t, runSteps (6 * n) s = .next t ∧ t.phase = some (phaseAt pc old) ∧ t.resp = s.resp ∧ t.req = s.req ∧
      t.chip.sr1 = s.chip.sr1 ∧ Sent s t (List.replicate n [[s.cfg.ops.rdsr1], [0x00]]).flatten

/-! ### Operands and flags -/

/-- R36 and R91: the masked update bit by bit; that it is the data byte of the status write frame of `status_reg_write`
and, with mask and value `1 << WPS_BIT` on register 3, of `init`; that `old` is the byte the read of the same register
before it in the same operation returned, which no other step changes; and that no accepted operation sends any other
status write. -/
def Obligations.MaskedUpdate : Prop :=
  (∀ (old mask value : Byte) (k : Nat), k < 8 →
    (maskedUpdate old mask value).getLsbD k = if mask.getLsbD k then value.getLsbD k else old.getLsbD k) ∧
  (∀ (s : State) (r : SrNum) (i : Instr) (mask value : Byte) (read write : Nat),
    ((∃ reg, srOfReg reg = some r ∧ i = .statusRegWrite reg mask value ∧ read = 1 ∧ write = 4) ∨
      (i = .init ∧ r = .three ∧ mask = 0x04 ∧ value = 0x04 ∧ read = 2 ∧ write = 5)) →
    (∃ u, ∀ old, (hostSteps s.cfg old i)[read]? = some (.query [rdsrOp s.cfg.ops r] 1 u)) ∧
    (∀ v, Judging read [v] s → exec i s = .next (s.setPhase (some (phaseAt (read + 1) v)))) ∧
    (∀ t ph ph', s.phase = some ph → ph.pc ≠ read → exec i s = .next t → t.phase = some ph' → ph'.old = ph.old) ∧
    (∀ ph, s.phase = some ph → ph.pc = write → ph.stage = .send → s.csN = false →
      ∃ t rx ok, exec i s = .next t ∧
        t.trace = .x [wrsrOp s.cfg.ops r, maskedUpdate ph.old mask value] rx ok :: s.trace)) ∧
  (∀ (p : Config.Params) (old : Byte) (i : Instr) (m : Micro) (tx : List Byte) (r : SrNum), p.ops.Distinct →
    rejectCause i = none → m ∈ hostSteps p old i → sentBytes m = some tx → tx.head? = some (wrsrOp p.ops r) →
    (∃ reg mask value, i = .statusRegWrite reg mask value ∧ srOfReg reg = some r ∧
      tx = [wrsrOp p.ops r, maskedUpdate old mask value]) ∨
    (i = .init ∧ r = .three ∧ tx = [wrsrOp p.ops r, maskedUpdate old 0x04 0x04]))

/-- R51, R52, R53: for valid coordinates the linear address is below 2^24, its bit fields are the coordinates, its
three bytes are BLOCK, SECTOR*16 + PAGE and OFFSET, and the chip reads the same address back from them. R58, R209: a
valid program stays inside its page, data byte `k` going to the linear address plus `k`. -/
def Obligations.AddressFieldsAndBytes : Prop :=
  ∀ b sec pg off : Byte, sec.toNat ≤ 15 → pg.toNat ≤ 15 →
    let a := linearAddr b sec pg off
    a < 16777216 ∧ a / 65536 = b.toNat ∧ a / 4096 % 16 = sec.toNat ∧ a / 256 % 16 = pg.toNat ∧ a % 256 = off.toNat ∧
    addrByte2 a = b ∧ (addrByte1 a).toNat = sec.toNat * 16 + pg.toNat ∧ addrByte0 a = off ∧
    headerAddr (addrByte2 a) (addrByte1 a) (addrByte0 a) = a ∧
    ∀ k : Nat, off.toNat + k < 256 → pageAddr a k = a + k ∧ (a + k) / 256 = a / 256

/-- R211, R212: the test an erase makes is that some byte of its region is protected. -/
def Obligations.RegionProtectedIffSomeByteIs : Prop :=
  ∀ (c : Chip) (base size : Nat), 0 < size →
    (regionProtected c base size = true ↔ ∃ a, base ≤ a ∧ a < base + size ∧ protectedAt c a = true)

/-! ### The link and the chip's answers -/

/-- R110, R117, R118, R120: an exchange that succeeds delivers every byte, one that fails a prefix of them; either way as
many bytes come back as were sent, and nothing of the chip but its frame and a completed cycle (R208) changes. Whatever
its length, the link may draw success, and failure after every number of bytes from none to all of them. -/
def Obligations.ExchangeDeliversPrefix : Prop :=
  ∀ (p : Config.Params) (tx : List Byte) (w : World),
    let drawn := fun o => { w with env := { w.env with link := o :: w.env.link } }
    (exchange p tx w).2.1.length = tx.length ∧
    (∃ c, (c = w.chip ∨ (chipBusy w.chip = true ∧ c = completeCycle w.chip)) ∧
      (exchange p tx w).2.2.chip = { c with frame := w.chip.frame ++
        (match failedAfter (nextLink w.env) tx.length with
          | none => tx
          | some j => tx.take j) }) ∧
    ((exchange p tx w).1 = true ↔ failedAfter (nextLink w.env) tx.length = none) ∧
    (∀ j, failedAfter (nextLink w.env) tx.length = some j → j ≤ tx.length) ∧
    (∃ o, nextLink (drawn o).env = o ∧ failedAfter o tx.length = none ∧ (exchange p tx (drawn o)).1 = true) ∧
    (∀ j, j ≤ tx.length →
      ∃ o, nextLink (drawn o).env = o ∧ failedAfter o tx.length = some j ∧ (exchange p tx (drawn o)).1 = false)

/-- R203, R206, R210, R213, R214: the byte that comes back at the next wire position from a conforming chip: after the
opcode of a status read the register; after the header of a read or of a lock query, with BUSY = 0, the array's byte or
the lock bit, with BUSY = 1 a draw; in every other position of every frame (the opcode, the header, all of any other
command and of an opcode not in the table) a draw. -/
def Obligations.ResponderAnswers : Prop :=
  ∀ (p : Config.Params) (w : World) (rest : List Byte), p.ops.Distinct → w.env.answers = .responder →
    (∀ r, w.chip.frame = rdsrOp p.ops r :: rest → answerByte p w = (srValue w.chip r, w.env)) ∧
    (∀ a2 a1 a0 d, w.chip.frame = p.ops.read :: a2 :: a1 :: a0 :: d → chipBusy w.chip = false →
      answerByte p w = (w.chip.array.read ((headerAddr a2 a1 a0 + d.length) % 16777216), w.env)) ∧
    (∀ a2 a1 a0 d, w.chip.frame = p.ops.rdlock :: a2 :: a1 :: a0 :: d → chipBusy w.chip = false →
      ∃ v, answerByte p w = (v, w.env) ∧ v.getLsbD p.lockBit = w.chip.lock.getLsbD a2.toNat ∧
        ∀ k : Nat, k < 8 → k ≠ p.lockBit.val → v.getLsbD k = false) ∧
    (w.chip.frame = [] → answerByte p w = (nextByte w.env, afterByte w.env)) ∧
    (∀ a2 a1 a0 d, w.chip.frame = p.ops.read :: a2 :: a1 :: a0 :: d ∨
        w.chip.frame = p.ops.rdlock :: a2 :: a1 :: a0 :: d → chipBusy w.chip = true →
      answerByte p w = (nextByte w.env, afterByte w.env)) ∧
    (∀ op, w.chip.frame = op :: rest → (∀ r, op ≠ rdsrOp p.ops r) →
      (op = p.ops.read ∨ op = p.ops.rdlock → rest.length < 3) →
      answerByte p w = (nextByte w.env, afterByte w.env))

/-- R56, R210: `n` bytes clocked after a read header return the array from the header's address on, in ascending
order, wrapping from 0xFFFFFF to 0. -/
def Obligations.ReadReturnsArrayInOrder : Prop :=
  ∀ (p : Config.Params) (w : World) (a2 a1 a0 : Byte) (n : Nat), p.ops.Distinct → w.env.answers = .responder →
    chipBusy w.chip = false → w.chip.frame = [p.ops.read, a2, a1, a0] →
    (clockBytes p (fillerBytes n) w).1 =
      (List.range n).map fun k => w.chip.array.read ((headerAddr a2 a1 a0 + k) % 16777216)

/-- R208: `Complete` may fire exactly when BUSY = 1, and then clears BUSY, WEL and `vsr_en` and nothing else. -/
def Obligations.CompletionClearsLatches : Prop :=
  ∀ w : World,
    (chipBusy w.chip = false → tick w = w) ∧
    (chipBusy w.chip = true → nextComplete w.env = false → (tick w).chip = w.chip) ∧
    (chipBusy w.chip = true → nextComplete w.env = true →
      ∃ v : Byte, (tick w).chip = { w.chip with sr1 := v, vsrEn := false } ∧ v.getLsbD 0 = false ∧
        v.getLsbD 1 = false ∧ ∀ k : Nat, 2 ≤ k → v.getLsbD k = w.chip.sr1.getLsbD k)

/-! ### The wire commands -/

/-- R204 (the spec's decision D31): write-enable sets WEL when BUSY = 0 and is ignored when BUSY = 1; nothing else of
the chip changes but that the frame is done and `rst_en` clears (R202; of the ignored command log 19, DEDUCED). -/
def Obligations.WireWriteEnable : Prop :=
  ∀ s : State, ∃ v : Byte,
    exec .wireWren s = .next (s.setChip { s.chip with sr1 := v, rstEn := false, closed := none }) ∧
    (chipBusy s.chip = true → v = s.chip.sr1) ∧
    (chipBusy s.chip = false → v.getLsbD 1 = true ∧ ∀ k : Nat, k ≠ 1 → v.getLsbD k = s.chip.sr1.getLsbD k)

/-- R205 (the spec's decision D28): volatile-write-enable sets `vsr_en` when BUSY = 0 and does not change WEL. The end of
the command clears `rst_en` (R202), with BUSY = 1 too, where R205 accepts nothing (log 19, DEDUCED). -/
def Obligations.WireVolatileWriteEnable : Prop :=
  ∀ s : State, exec .wireVwren s = .next (s.setChip { s.chip with
    vsrEn := s.chip.vsrEn || !s.chip.sr1.getLsbD 0, rstEn := false, closed := none })

/-- R206, R210, R213: the status reads, the array read and the lock query have no effect on the chip but that the
frame is done and `rst_en` clears (R202; with BUSY = 1, where a read or query is not accepted, log 19, DEDUCED); every
byte of the array reads as before. -/
def Obligations.WireReadsChangeNothing : Prop :=
  ∀ (s : State) (a2 a1 a0 : Byte) (n : Nat) (i : Instr),
    i ∈ [Instr.wireRdsr1 n, .wireRdsr2 n, .wireRdsr3 n, .wireRead a2 a1 a0 n, .wireRdlock a2 a1 a0 n] →
    exec i s = .next (s.setChip { s.chip with rstEn := false, closed := none })

/-- R207: a status write, accepted when BUSY = 0 and WEL or `vsr_en` is set, writes the bits `RO(r)` leaves writable
and sets BUSY; otherwise it changes nothing. Either way the frame is done and `rst_en` clears (R202; of the command that
is not accepted log 19, DEDUCED). -/
def Obligations.WireStatusWrite : Prop :=
  ∀ (s : State) (r : SrNum) (d : Byte),
    let i := match r with
      | .one => Instr.wireWrsr1 d
      | .two => Instr.wireWrsr2 d
      | .three => Instr.wireWrsr3 d
    (chipBusy s.chip = true ∨ (chipWel s.chip = false ∧ s.chip.vsrEn = false) →
      exec i s = .next (s.setChip { s.chip with rstEn := false, closed := none })) ∧
    (chipBusy s.chip = false → chipWel s.chip = true ∨ s.chip.vsrEn = true →
      ∃ v : Byte, exec i s = .next (s.setChip (setBusy true (setSr { s.chip with rstEn := false, closed := none } r v))) ∧
        ∀ k : Nat, k < 8 → v.getLsbD k =
          if (roMask s.cfg r).getLsbD k then (srValue s.chip r).getLsbD k else d.getLsbD k)

/-- R209 (the spec's decisions D29, D30): page-program. Accepted (BUSY = 0, WEL = 1, at least one data byte,
unprotected) it ANDs data byte `k` into the array at `P(k)`, leaves every other byte, and sets BUSY; protected it only
clears WEL; otherwise it changes nothing. In every case the frame is done and `rst_en` clears (R202; of the ignored and
the refused command log 19, DEDUCED). -/
def Obligations.WirePageProgram : Prop :=
  ∀ (s : State) (a2 a1 a0 : Byte) (d : List Byte), Memory.wf s.chip.array → d.length ≤ 256 →
    let a := headerAddr a2 a1 a0
    (chipBusy s.chip = true ∨ chipWel s.chip = false ∨ d = [] →
      exec (.wirePp a2 a1 a0 d) s = .next (s.setChip { s.chip with rstEn := false, closed := none })) ∧
    (chipBusy s.chip = false → chipWel s.chip = true → d ≠ [] → protectedAt s.chip a = true →
      exec (.wirePp a2 a1 a0 d) s =
        .next (s.setChip (setWel false { s.chip with rstEn := false, closed := none }))) ∧
    (chipBusy s.chip = false → chipWel s.chip = true → d ≠ [] → protectedAt s.chip a = false →
      ∃ m, exec (.wirePp a2 a1 a0 d) s =
          .next (s.setChip (setBusy true { s.chip with array := m, rstEn := false, closed := none })) ∧
        (∀ (k : Nat) (b : Byte), d[k]? = some b → m.read (pageAddr a k) = s.chip.array.read (pageAddr a k) &&& b) ∧
        (∀ x, (∀ k : Nat, k < d.length → x ≠ pageAddr a k) → m.read x = s.chip.array.read x))

/-- R211 (the spec's decisions D29, D30): the erases. Accepted (BUSY = 0, WEL = 1, no byte of the region protected)
the region reads 0xFF, every other byte as before, and BUSY is set; with the region protected only WEL clears;
otherwise nothing changes. The region is the block or the sector the header addresses, its low address bits ignored, or
the whole array. In every case the frame is done and `rst_en` clears (R202; of the ignored and the refused command log
19, DEDUCED). -/
def Obligations.WireErase : Prop :=
  ∀ (s : State) (a2 a1 a0 : Byte) (i : Instr) (base size : Nat),
    (i, base, size) ∈ [(Instr.wireBe a2 a1 a0, a2.toNat * 65536, 65536),
      (.wireSe a2 a1 a0, a2.toNat * 65536 + a1.toNat / 16 * 4096, 4096), (.wireCe, 0, 16777216)] →
    (chipBusy s.chip = true ∨ chipWel s.chip = false →
      exec i s = .next (s.setChip { s.chip with rstEn := false, closed := none })) ∧
    (chipBusy s.chip = false → chipWel s.chip = true → regionProtected s.chip base size = true →
      exec i s = .next (s.setChip (setWel false { s.chip with rstEn := false, closed := none }))) ∧
    (chipBusy s.chip = false → chipWel s.chip = true → regionProtected s.chip base size = false →
      ∃ m, exec i s =
          .next (s.setChip (setBusy true { s.chip with array := m, rstEn := false, closed := none })) ∧
        (∀ x, base ≤ x → x < base + size → m.read x = 0xFF) ∧
        (∀ x, x < base ∨ base + size ≤ x → m.read x = s.chip.array.read x))

/-- R213: the lock commands. Accepted (BUSY = 0, WEL = 1, WPS = 1) block-lock sets and block-unlock clears the
addressed block's bit, global-unlock clears every bit, no other lock bit changes, BUSY is not set, and WEL clears when
`LOCK_CLEARS_WEL`; otherwise nothing changes. Either way the frame is done and `rst_en` clears (R202; of the command
that is not accepted log 19, DEDUCED). -/
def Obligations.WireLockCommands : Prop :=
  ∀ (s : State) (a2 a1 a0 : Byte),
    let ok := !chipBusy s.chip && chipWel s.chip && chipWps s.chip
    let after := fun l : BitVec 256 =>
      let c := { s.chip with lock := l, rstEn := false, closed := none }
      Host.Outcome.next (s.setChip (if s.cfg.lockClearsWel then setWel false c else c))
    (ok = false → ∀ i ∈ [Instr.wireBlockLock a2 a1 a0, .wireBlockUnlock a2 a1 a0, .wireGunlock],
      exec i s = .next (s.setChip { s.chip with rstEn := false, closed := none })) ∧
    (ok = true →
      (∃ l, exec (.wireBlockLock a2 a1 a0) s = after l ∧
        ∀ b, b < 256 → l.getLsbD b = if b = a2.toNat then true else s.chip.lock.getLsbD b) ∧
      (∃ l, exec (.wireBlockUnlock a2 a1 a0) s = after l ∧
        ∀ b, b < 256 → l.getLsbD b = if b = a2.toNat then false else s.chip.lock.getLsbD b) ∧
      (∃ l, exec .wireGunlock s = after l ∧ ∀ b, l.getLsbD b = false))

/-- R215 (the spec's decision D32): enable-reset sets `rst_en` when BUSY = 0. Reset-device, accepted when BUSY = 0 and
`rst_en` = 1, clears WEL, `vsr_en` and `rst_en`, keeps the array, and leaves the drawn image in the volatile registers
and lock bits; otherwise nothing changes but that the frame is done and `rst_en` clears (R202; of the command that is not
accepted log 19, DEDUCED). -/
def Obligations.WireResetCommands : Prop :=
  ∀ s : State,
    exec .wireRsten s = .next (s.setChip { s.chip with
      rstEn := s.chip.rstEn || !s.chip.sr1.getLsbD 0, closed := none }) ∧
    (chipBusy s.chip = true ∨ s.chip.rstEn = false →
      exec .wireRst s = .next (s.setChip { s.chip with rstEn := false, closed := none })) ∧
    (chipBusy s.chip = false → s.chip.rstEn = true →
      ∃ t, exec .wireRst s = .next t ∧ chipWel t.chip = false ∧ chipBusy t.chip = false ∧ t.chip.vsrEn = false ∧
        t.chip.rstEn = false ∧ t.chip.closed = none ∧ t.chip.frame = s.chip.frame ∧ t.chip.array = s.chip.array ∧
        (∀ k : Nat, 2 ≤ k → k < 8 → t.chip.sr1.getLsbD k = (nextImage s.env).sr1.getLsbD k) ∧
        t.chip.sr2 = (nextImage s.env).sr2 ∧ t.chip.sr3 = (nextImage s.env).sr3 ∧ t.chip.lock = (nextImage s.env).lock ∧
        t = (s.setChip t.chip).setEnv t.env)

/-- R214: while BUSY = 1 no wire command has an effect: the chip is as before but that the frame is done and `rst_en`
is at most cleared (R202; log 19, DEDUCED). -/
def Obligations.BusyChipIgnoresCommands : Prop :=
  ∀ (i : Instr) (s : State), isHost i = false → chipBusy s.chip = true →
    ∃ b : Bool, exec i s = .next (s.setChip { s.chip with rstEn := b, closed := none }) ∧
      (b = true → s.chip.rstEn = true)

/-! ### Whole operations against the conforming chip -/

/-- R134: `write_enable` on a READY chip. -/
def Obligations.WriteEnableRun : Prop :=
  ∀ s : State, ReadyFor .writeEnable s → LinkDelivers 5 s →
    RunsTo s fun t => t.resp.ok = true ∧ chipWel t.chip = true ∧ t.chip.array = s.chip.array ∧
      Sent s t [[s.cfg.ops.rdsr1], [0x00], [s.cfg.ops.wren], [s.cfg.ops.rdsr1], [0x00]]

/-- R135: `volatile_write_enable` on a READY chip. -/
def Obligations.VolatileWriteEnableRun : Prop :=
  ∀ s : State, ReadyFor .volatileWriteEnable s → LinkDelivers 3 s →
    RunsTo s fun t => t.resp.ok = true ∧ t.chip.vsrEn = true ∧ chipWel t.chip = chipWel s.chip ∧
      Sent s t [[s.cfg.ops.rdsr1], [0x00], [s.cfg.ops.vwren]]

/-- R132, R190: `status_reg_read`, at a conforming chip BUSY or not, returns the register's value: with BUSY = 0 the one
the chip holds; with BUSY = 1 that, or the one after its cycle has completed in the meantime (R208), and while the cycle
goes on that with BUSY still 1 (95 V24). -/
def Obligations.StatusRegReadRun : Prop :=
  ∀ (s : State) (reg : BitVec 2) (r : SrNum), srOfReg reg = some r → RequestReady (.statusRegRead reg) s →
    LinkDelivers 2 s →
    (RunsTo s fun t => t.resp.ok = true ∧
      (t.resp.rval = srValue s.chip r ∨
        (chipBusy s.chip = true ∧ t.resp.rval = srValue (completeCycle s.chip) r)) ∧
      Sent s t [[rdsrOp s.cfg.ops r], [0x00]]) ∧
    (∀ rest, chipBusy s.chip = true → s.env.complete = List.replicate 8 false ++ rest →
      RunsTo s fun t => t.resp.ok = true ∧ t.resp.rval = srValue s.chip r ∧ chipBusy t.chip = true ∧
        Sent s t [[rdsrOp s.cfg.ops r], [0x00]])

/-- R133: `status_reg_write` on a READY chip, with a mask that selects no read-only bit (R207; of register 1 neither
BUSY nor WEL): it sends the masked update of what the register held (R36), and the register ends with it, each bit but
BUSY and WEL. -/
def Obligations.StatusRegWriteRun : Prop :=
  ∀ (s : State) (reg : BitVec 2) (r : SrNum) (mask value : Byte), srOfReg reg = some r →
    roMask s.cfg r &&& mask = 0 → (r = .one → mask.getLsbD 0 = false ∧ mask.getLsbD 1 = false) →
    ReadyFor (.statusRegWrite reg mask value) s → LinkDelivers 14 s → CycleEnds s →
    RunsTo s fun t => t.resp.ok = true ∧ chipBusy t.chip = false ∧ chipWel t.chip = false ∧
      (∀ k : Nat, k < 8 → (r = .one → 2 ≤ k) → (srValue t.chip r).getLsbD k =
        if mask.getLsbD k then value.getLsbD k else (srValue s.chip r).getLsbD k) ∧
      Sent s t [[s.cfg.ops.rdsr1], [0x00], [rdsrOp s.cfg.ops r], [0x00], [s.cfg.ops.rdsr1], [0x00], [s.cfg.ops.vwren],
        [wrsrOp s.cfg.ops r, maskedUpdate (srValue s.chip r) mask value], [s.cfg.ops.rdsr1], [0x00],
        [s.cfg.ops.rdsr1], [0x00], [rdsrOp s.cfg.ops r], [0x00]]

/-- R152: `reset` on a READY chip ends with WEL clear. -/
def Obligations.ResetRun : Prop :=
  ∀ s : State, ReadyFor .reset s → LinkDelivers 11 s →
    RunsTo s fun t => t.resp.ok = true ∧ chipWel t.chip = false ∧ t.chip.array = s.chip.array ∧
      Sent s t [[s.cfg.ops.rdsr1], [0x00], [s.cfg.ops.rdsr1], [0x00], [s.cfg.ops.wren], [s.cfg.ops.rdsr1], [0x00],
        [s.cfg.ops.rsten], [s.cfg.ops.rst], [s.cfg.ops.rdsr1], [0x00]]

/-- R153, R155: `init` on a READY chip whose WPS bit can be written (R207) ends with WPS set and every block unlocked,
with exactly the frames of R153 on the wire. -/
def Obligations.InitRun : Prop :=
  ∀ s : State, s.cfg.ro3.getLsbD 2 = false → ReadyFor .init s → LinkDelivers 22 s → CycleEnds s →
    RunsTo s fun t => t.resp.ok = true ∧ chipWps t.chip = true ∧ t.chip.lock = 0 ∧ t.chip.array = s.chip.array ∧
      Sent s t [[s.cfg.ops.rdsr3], [0x00], [s.cfg.ops.rdsr1], [0x00], [s.cfg.ops.rdsr3], [0x00], [s.cfg.ops.rdsr1], [0x00],
        [s.cfg.ops.vwren], [s.cfg.ops.wrsr3, maskedUpdate s.chip.sr3 0x04 0x04], [s.cfg.ops.rdsr1], [0x00],
        [s.cfg.ops.rdsr1], [0x00], [s.cfg.ops.rdsr3], [0x00], [s.cfg.ops.rdsr1], [0x00], [s.cfg.ops.wren],
        [s.cfg.ops.rdsr1], [0x00], [s.cfg.ops.gunlock]]

/-- R161: `read` on a READY chip returns the array from the linear address on. -/
def Obligations.ReadRun : Prop :=
  ∀ (s : State) (b sec pg off : Byte) (len : Nat), sec.toNat ≤ 15 → pg.toNat ≤ 15 →
    ReadyFor (.read b sec pg off len) s → LinkDelivers 4 s →
    RunsTo s fun t => t.resp.ok = true ∧ t.chip.array = s.chip.array ∧
      t.resp.rxbuf = (List.range len).map (fun k => s.chip.array.read ((linearAddr b sec pg off + k) % 16777216)) ∧
      Sent s t [[s.cfg.ops.rdsr1], [0x00],
        [s.cfg.ops.read, b, addrByte1 (linearAddr b sec pg off), off], List.replicate len 0x00]

/-- R162, R195: `page_program` into erased bytes that are not protected (R212, at the chip that has just set WEL)
succeeds; the bytes read as written and every other byte as before; exactly the frames of R162 are on the wire. -/
def Obligations.PageProgramRun : Prop :=
  ∀ (s : State) (b sec pg off : Byte) (tx : List Byte), sec.toNat ≤ 15 → pg.toNat ≤ 15 → off.toNat + tx.length ≤ 256 →
    let a := linearAddr b sec pg off
    Memory.wf s.chip.array → protectedAt (setWel true s.chip) a = false →
    (∀ k : Nat, k < tx.length → s.chip.array.read (a + k) = 0xFF) →
    ReadyFor (.pageProgram b sec pg off tx) s → LinkDelivers 12 s → CycleEnds s →
    RunsTo s fun t => t.resp.ok = true ∧ t.resp.vbuf = tx ∧
      (∀ (k : Nat) (v : Byte), tx[k]? = some v → t.chip.array.read (a + k) = v) ∧
      (∀ x, (x < a ∨ a + tx.length ≤ x) → t.chip.array.read x = s.chip.array.read x) ∧
      Sent s t [[s.cfg.ops.rdsr1], [0x00], [s.cfg.ops.rdsr1], [0x00], [s.cfg.ops.wren], [s.cfg.ops.rdsr1], [0x00],
        [s.cfg.ops.pp, b, addrByte1 a, off] ++ tx, [s.cfg.ops.rdsr1], [0x00],
        [s.cfg.ops.read, b, addrByte1 a, off], List.replicate tx.length 0x00]

/-- R171 to R174: an erase of a region no byte of which is protected (R212, at the chip that has just set WEL), on a
READY chip, answers `OK = 1`; the region reads 0xFF, every other byte as before; the lock bits, registers 2 and 3 and
bits 7:2 of register 1 are as before; BUSY, WEL and `vsr_en` are clear (R208), and `rst_en` (R202). Exactly the frames of
R171, R172 or R173 are on the wire. -/
def Obligations.EraseRun : Prop :=
  ∀ (s : State) (b sec : Byte) (i : Instr) (base size : Nat) (frame : List Byte), sec.toNat ≤ 15 →
    (i, base, size, frame) ∈ [(Instr.blockErase b, b.toNat * 65536, 65536, [s.cfg.ops.be, b, 0x00, 0x00]),
      (.sectorErase b sec, b.toNat * 65536 + sec.toNat * 4096, 4096,
        [s.cfg.ops.se, b, addrByte1 (linearAddr b sec 0 0), 0x00]),
      (.chipErase, 0, 16777216, [s.cfg.ops.ce])] →
    (∀ x, base ≤ x → x < base + size → protectedAt (setWel true s.chip) x = false) →
    ReadyFor i s → LinkDelivers 12 s → CycleEnds s →
    RunsTo s fun t => t.resp.ok = true ∧ chipBusy t.chip = false ∧ chipWel t.chip = false ∧
      (∀ x, base ≤ x → x < base + size → t.chip.array.read x = 0xFF) ∧
      (∀ x, x < base ∨ base + size ≤ x → t.chip.array.read x = s.chip.array.read x) ∧
      t.chip.lock = s.chip.lock ∧ t.chip.sr2 = s.chip.sr2 ∧ t.chip.sr3 = s.chip.sr3 ∧
      (∀ k : Nat, 2 ≤ k → t.chip.sr1.getLsbD k = s.chip.sr1.getLsbD k) ∧ t.chip.vsrEn = false ∧ t.chip.rstEn = false ∧
      Sent s t [[s.cfg.ops.rdsr1], [0x00], [s.cfg.ops.rdsr1], [0x00], [s.cfg.ops.wren], [s.cfg.ops.rdsr1], [0x00],
        frame, [s.cfg.ops.rdsr1], [0x00], [s.cfg.ops.rdsr1], [0x00]]

/-- R171, R172, R173, 95 V55: an erase of a block, a sector or the whole chip with a protected byte (R212) answers
`OK = 1` with the array unchanged: erase is confirmed, not verified. -/
def Obligations.ProtectedEraseConfirmedNotVerified : Prop :=
  ∀ (s : State) (b sec : Byte) (i : Instr) (base size : Nat) (frame : List Byte) (x : Nat), sec.toNat ≤ 15 →
    (i, base, size, frame) ∈ [(Instr.blockErase b, b.toNat * 65536, 65536, [s.cfg.ops.be, b, 0x00, 0x00]),
      (.sectorErase b sec, b.toNat * 65536 + sec.toNat * 4096, 4096,
        [s.cfg.ops.se, b, addrByte1 (linearAddr b sec 0 0), 0x00]),
      (.chipErase, 0, 16777216, [s.cfg.ops.ce])] →
    base ≤ x → x < base + size → protectedAt (setWel true s.chip) x = true → ReadyFor i s → LinkDelivers 12 s →
    RunsTo s fun t => t.resp.ok = true ∧ t.chip.array = s.chip.array ∧ chipWel t.chip = false ∧
      Sent s t [[s.cfg.ops.rdsr1], [0x00], [s.cfg.ops.rdsr1], [0x00], [s.cfg.ops.wren], [s.cfg.ops.rdsr1], [0x00],
        frame, [s.cfg.ops.rdsr1], [0x00], [s.cfg.ops.rdsr1], [0x00]]

/-- R182 to R184: `block_lock` of an unlocked block and `block_unlock` of a locked one answer `OK = 1`; with WPS = 1
that bit alone flips, with WPS = 0 none does (R213). The call that finds its target state is refused with WEL and the
locks untouched and only the lock query on the wire. -/
def Obligations.LockRun : Prop :=
  ∀ (s : State) (b : Byte) (target : Bool) (i : Instr),
    i = (if target then .blockLock b else .blockUnlock b) → ReadyFor i s → LinkDelivers 8 s →
    (s.chip.lock.getLsbD b.toNat = !target →
      RunsTo s fun t => t.resp.ok = true ∧ (∀ k : Nat, k < 256 → t.chip.lock.getLsbD k =
        if chipWps s.chip = true ∧ k = b.toNat then target else s.chip.lock.getLsbD k) ∧
        Sent s t [[s.cfg.ops.rdlock, b, 0x00, 0x00], [0x00], [s.cfg.ops.rdsr1], [0x00], [s.cfg.ops.wren],
          [s.cfg.ops.rdsr1], [0x00], [if target then s.cfg.ops.blockLock else s.cfg.ops.blockUnlock, b, 0x00, 0x00]]) ∧
    (s.chip.lock.getLsbD b.toNat = target →
      RunsTo s fun t => t.resp.ok = false ∧ t.cause = some .lockStateConflict ∧ t.chip.lock = s.chip.lock ∧
        chipWel t.chip = chipWel s.chip ∧ Sent s t [[s.cfg.ops.rdlock, b, 0x00, 0x00], [0x00]])
end

