-- ==== Sys2Proof/Laws/Decode.lean ====
section
/-!
SUPPORT. The laws of the opcode table and of the operand checks.
-/

namespace Sys2Proof

/-- In a distinct table (R89) a command's byte selects that command. -/
theorem Config.OpcodeTable.lookup_code (t : Config.OpcodeTable) (w : WireOp) (h : t.Distinct) :
    t.lookup (t.code w) = some w := by
  have key : ∀ l : List WireOp, (l.map t.code).Nodup → w ∈ l → l.find? (fun v => t.code v == t.code w) = some w := by
    intro l
    induction l with
    | nil => simp
    | cons x xs ih =>
      intro hn hm
      simp only [List.map_cons, List.nodup_cons, List.mem_map, not_exists, not_and] at hn
      rw [List.find?_cons]
      by_cases hx : t.code x = t.code w
      · rcases List.mem_cons.1 hm with rfl | hm
        · simp
        · exact absurd hx.symm (hn.1 w hm)
      · rw [show (t.code x == t.code w) = false by simpa using hx]
        rcases List.mem_cons.1 hm with rfl | hm
        · exact absurd rfl hx
        · exact ih hn.2 hm
  exact key _ h (by cases w <;> decide)

namespace Machine

/-- `Valid` (R52) as the two bounds. -/
theorem validCoords_eq (sector page : Byte) :
    validCoords sector page = decide (sector.toNat ≤ 15 ∧ page.toNat ≤ 15) := by
  simp [validCoords]

/-- `page_program`'s bounds (R58). -/
theorem validProgram_eq (offset : Byte) (len : Nat) :
    validProgram offset len = decide (len ≤ 256 ∧ offset.toNat + len ≤ 256) := by
  simp [validProgram]

end Machine

end Sys2Proof
end

