-- ==== Sys2Proof/Laws/Flags.lean ====
section
/-!
SUPPORT. The laws of the flags: a bit put into a byte, a lock bit, the protection test of an erase.
-/

namespace Sys2Proof.Machine

/-- The bits of a byte with one bit put. -/
theorem getLsbD_putBit (x : Byte) (i k : Nat) (v : Bool) :
    (putBit x i v).getLsbD k = if k = i ∧ k < 8 then v else x.getLsbD k := by
  have hone : (1#8 <<< i).getLsbD k = decide (k = i ∧ k < 8) := by
    rw [BitVec.getLsbD_shiftLeft, BitVec.getLsbD_one, Bool.eq_iff_iff]
    simp only [Bool.and_eq_true, Bool.not_eq_true', decide_eq_true_eq, decide_eq_false_iff_not]
    omega
  cases v
  · rw [putBit, if_neg (by simp), BitVec.getLsbD_and, BitVec.getLsbD_not, hone]
    by_cases h8 : k < 8
    · by_cases h : k = i
      · rw [decide_eq_true (show k = i ∧ k < 8 from ⟨h, h8⟩), if_pos ⟨h, h8⟩]; simp
      · simp [h8, h]
    · rw [BitVec.getLsbD_of_ge x k (by omega)]; simp
  · rw [putBit, if_pos rfl, BitVec.getLsbD_or, hone]
    by_cases h : k = i ∧ k < 8
    · rw [decide_eq_true h, if_pos h, Bool.or_true]
    · rw [decide_eq_false h, if_neg h, Bool.or_false]

@[simp] theorem chipBusy_setBusy (c : Chip) (v : Bool) : chipBusy (setBusy v c) = v := by
  simp only [chipBusy, setBusy, getLsbD_putBit]; rfl
@[simp] theorem chipBusy_setWel (c : Chip) (v : Bool) : chipBusy (setWel v c) = chipBusy c := by
  simp only [chipBusy, setWel, getLsbD_putBit]; rfl
@[simp] theorem chipBusy_setVsrEn (c : Chip) (v : Bool) : chipBusy (setVsrEn v c) = chipBusy c := rfl
@[simp] theorem chipWel_setWel (c : Chip) (v : Bool) : chipWel (setWel v c) = v := by
  simp only [chipWel, setWel, getLsbD_putBit]; rfl
@[simp] theorem chipWel_setBusy (c : Chip) (v : Bool) : chipWel (setBusy v c) = chipWel c := by
  simp only [chipWel, setBusy, getLsbD_putBit]; rfl
@[simp] theorem chipWel_setVsrEn (c : Chip) (v : Bool) : chipWel (setVsrEn v c) = chipWel c := rfl
@[simp] theorem chipWps_setWel (c : Chip) (v : Bool) : chipWps (setWel v c) = chipWps c := rfl
@[simp] theorem chipWps_setBusy (c : Chip) (v : Bool) : chipWps (setBusy v c) = chipWps c := rfl
@[simp] theorem chipWps_setVsrEn (c : Chip) (v : Bool) : chipWps (setVsrEn v c) = chipWps c := rfl

@[simp] theorem chipBusy_setLockBit (b : Nat) (v : Bool) (c : Chip) : chipBusy (setLockBit b v c) = chipBusy c := rfl
@[simp] theorem chipWel_setLockBit (b : Nat) (v : Bool) (c : Chip) : chipWel (setLockBit b v c) = chipWel c := rfl
@[simp] theorem chipWps_setLockBit (b : Nat) (v : Bool) (c : Chip) : chipWps (setLockBit b v c) = chipWps c := rfl
@[simp] theorem chipBusy_clearLocks (c : Chip) : chipBusy (clearLocks c) = chipBusy c := rfl
@[simp] theorem chipWel_clearLocks (c : Chip) : chipWel (clearLocks c) = chipWel c := rfl
@[simp] theorem chipWps_clearLocks (c : Chip) : chipWps (clearLocks c) = chipWps c := rfl

/-- A lock bit set or cleared changes that bit alone. -/
theorem getLsbD_setLockBit (c : Chip) (b k : Nat) (v : Bool) (hk : k < 256) :
    (setLockBit b v c).lock.getLsbD k = if k = b then v else c.lock.getLsbD k := by
  have hone : (1#256 <<< b).getLsbD k = decide (k = b) := by
    rw [BitVec.getLsbD_shiftLeft, BitVec.getLsbD_one, Bool.eq_iff_iff]
    simp only [Bool.and_eq_true, Bool.not_eq_true', decide_eq_true_eq, decide_eq_false_iff_not]
    omega
  cases v
  · rw [setLockBit]
    simp only [Bool.false_eq_true, if_false]
    rw [BitVec.getLsbD_and, BitVec.getLsbD_not, hone]
    by_cases h : k = b <;> simp [h, hk]
  · rw [setLockBit]
    simp only [if_true]
    rw [BitVec.getLsbD_or, hone]
    by_cases h : k = b <;> simp [h]

end Sys2Proof.Machine
end

