-- ==== Sys2Proof/Laws/Exchange.lean ====
section
/-!
SUPPORT. What a point of completion, a byte time, the bytes of an exchange and an exchange can do, each said once.
-/

namespace Sys2Proof.Machine

@[simp] theorem chipBusy_completeCycle (c : Chip) : chipBusy (completeCycle c) = false := by simp [completeCycle]
@[simp] theorem chipWel_completeCycle (c : Chip) : chipWel (completeCycle c) = false := by simp [completeCycle]
@[simp] theorem chipWps_completeCycle (c : Chip) : chipWps (completeCycle c) = chipWps c := by simp [completeCycle]
@[simp] theorem completeCycle_frame (c : Chip) : (completeCycle c).frame = c.frame := rfl
@[simp] theorem completeCycle_closed (c : Chip) : (completeCycle c).closed = c.closed := rfl
@[simp] theorem completeCycle_array (c : Chip) : (completeCycle c).array = c.array := rfl
@[simp] theorem completeCycle_lock (c : Chip) : (completeCycle c).lock = c.lock := rfl

/-- `c` is `d`, or `d` with its cycle completed. -/
def Settled (d c : Chip) : Prop := c = d ∨ (chipBusy d = true ∧ c = completeCycle d)

theorem Settled.refl (d : Chip) : Settled d d := .inl rfl

theorem Settled.frame {d c : Chip} (h : Settled d c) (f : List Byte) :
    Settled { d with frame := f } { c with frame := f } := by
  obtain rfl | ⟨hb, rfl⟩ := h
  · exact .inl rfl
  · exact .inr ⟨hb, rfl⟩

theorem Settled.trans {a b c : Chip} (h : Settled a b) (h' : Settled b c) : Settled a c := by
  obtain rfl | ⟨hb, rfl⟩ := h
  · exact h'
  · obtain rfl | ⟨hb', rfl⟩ := h'
    · exact .inr ⟨hb, rfl⟩
    · simp at hb'

theorem Settled.array {d c : Chip} (h : Settled d c) : c.array = d.array := by
  obtain rfl | ⟨-, rfl⟩ := h <;> rfl
theorem Settled.lock {d c : Chip} (h : Settled d c) : c.lock = d.lock := by
  obtain rfl | ⟨-, rfl⟩ := h <;> rfl
theorem Settled.closed {d c : Chip} (h : Settled d c) : c.closed = d.closed := by
  obtain rfl | ⟨-, rfl⟩ := h <;> rfl
theorem Settled.frame_eq {d c : Chip} (h : Settled d c) : c.frame = d.frame := by
  obtain rfl | ⟨-, rfl⟩ := h <;> rfl
theorem Settled.idle {d c : Chip} (h : Settled d c) (hb : chipBusy d = false) : c = d := by
  obtain rfl | ⟨h1, -⟩ := h
  · rfl
  · rw [hb] at h1; exact absurd h1 (by simp)

/-- A point of completion leaves the chip or completes its cycle. -/
theorem tick_settled (w : World) : Settled w.chip (tick w).chip := by
  unfold tick
  split
  · rename_i hb
    by_cases hc : nextComplete w.env = true
    · exact .inr ⟨hb, if_pos hc⟩
    · exact .inl (if_neg hc)
  · exact .inl rfl

/-- With BUSY = 0 nothing happens at a point of completion. -/
theorem tick_idle {w : World} (h : chipBusy w.chip = false) : tick w = w := by simp [tick, h]

/-- The bytes of an exchange append to the frame and may complete a cycle. -/
theorem clockBytes_settled (p : Config.Params) (tx : List Byte) :
    ∀ w : World, ∃ c, Settled w.chip c ∧ (clockBytes p tx w).2.chip = { c with frame := w.chip.frame ++ tx } := by
  induction tx with
  | nil => intro w; exact ⟨w.chip, .refl _, by simp [clockBytes]⟩
  | cons t ts ih =>
    intro w
    obtain ⟨c, hc, he⟩ := ih (clockByte p t w).2
    have h1 := tick_settled w
    have hch : (clockByte p t w).2.chip = { (tick w).chip with frame := w.chip.frame ++ [t] } := by
      simp [clockByte, h1.frame_eq]
    rw [hch] at hc he
    refine ⟨{ c with frame := w.chip.frame }, ((h1.frame (w.chip.frame ++ [t])).trans hc).frame w.chip.frame, ?_⟩
    simp only [clockBytes]
    rw [he, List.append_assoc]
    rfl

/-- As many bytes come back as are sent. -/
theorem clockBytes_length (p : Config.Params) (tx : List Byte) : ∀ w : World, (clockBytes p tx w).1.length = tx.length := by
  induction tx with
  | nil => intro w; rfl
  | cons t ts ih => intro w; simp [clockBytes, ih]

/-- The bytes of a successful or failed exchange that reach the chip. -/
def deliveredBytes (o : Config.LinkOutcome) (tx : List Byte) : List Byte :=
  match failedAfter o tx.length with
  | none => tx
  | some j => tx.take j

/-- What an exchange does to the chip. -/
theorem exchange_settled (p : Config.Params) (tx : List Byte) (w : World) :
    ∃ c, Settled w.chip c ∧
      (exchange p tx w).2.2.chip = { c with frame := w.chip.frame ++ deliveredBytes (nextLink w.env) tx } := by
  unfold exchange deliveredBytes
  cases failedAfter (nextLink w.env) tx.length with
  | none => exact clockBytes_settled p tx { w with env := afterLink w.env }
  | some j => exact clockBytes_settled p (tx.take j) { w with env := afterLink w.env }

/-- A failed exchange delivers at most what it was given. -/
theorem failedAfter_le {o : Config.LinkOutcome} {len j : Nat} (h : failedAfter o len = some j) : j ≤ len := by
  cases o with
  | delivered => simp [failedAfter] at h
  | busyAtEntry => simp [failedAfter] at h; omega
  | txTimeout i => simp only [failedAfter] at h; split at h <;> simp_all; omega
  | rxTimeout i => simp only [failedAfter] at h; split at h <;> simp_all; omega

/-- As many bytes come back from an exchange as it was given, whether or not it succeeds. -/
theorem exchange_length (p : Config.Params) (tx : List Byte) (w : World) : (exchange p tx w).2.1.length = tx.length := by
  unfold exchange
  cases failedAfter (nextLink w.env) tx.length with
  | none => exact clockBytes_length p tx _
  | some j => simp [failedBytes]

/-- An exchange the link delivers. -/
theorem exchange_delivered (p : Config.Params) (tx : List Byte) (w : World) {rest : List Config.LinkOutcome}
    (h : w.env.link = .delivered :: rest) :
    exchange p tx w = (true, clockBytes p tx { w with env := { w.env with link := rest } }) := by
  simp [exchange, nextLink, afterLink, h, failedAfter]

/-- With BUSY = 0 the bytes of an exchange append to the frame and change nothing else of the chip; of the environment's
choices they use bytes alone. -/
theorem clockBytes_idle (p : Config.Params) (tx : List Byte) : ∀ w : World, chipBusy w.chip = false →
    (clockBytes p tx w).2.chip = { w.chip with frame := w.chip.frame ++ tx } ∧
      (clockBytes p tx w).2.env.answers = w.env.answers ∧ (clockBytes p tx w).2.env.link = w.env.link ∧
      (clockBytes p tx w).2.env.complete = w.env.complete := by
  have key : ∀ w : World, (answerByte p w).2.answers = w.env.answers ∧ (answerByte p w).2.link = w.env.link ∧
      (answerByte p w).2.complete = w.env.complete := by
    intro w
    have hb : (afterByte w.env).answers = w.env.answers ∧ (afterByte w.env).link = w.env.link ∧
        (afterByte w.env).complete = w.env.complete := by
      unfold afterByte; split <;> exact ⟨rfl, rfl, rfl⟩
    unfold answerByte
    split
    · exact ⟨rfl, rfl, rfl⟩
    · exact hb
    · exact hb
  induction tx with
  | nil => intro w _; exact ⟨by simp [clockBytes], rfl, rfl, rfl⟩
  | cons t ts ih =>
    intro w hb
    have hc : (clockByte p t w).2.chip = { w.chip with frame := w.chip.frame ++ [t] } := by
      simp [clockByte, tick_idle hb]
    have he : (clockByte p t w).2.env = (answerByte p w).2 := by simp [clockByte, tick_idle hb]
    obtain ⟨k1, k2, k3⟩ := key w
    obtain ⟨h1, h2, h3, h4⟩ := ih (clockByte p t w).2 (by rw [hc]; exact hb)
    rw [he] at h2 h3 h4
    refine ⟨?_, h2.trans k1, h3.trans k2, h4.trans k3⟩
    simp only [clockBytes]
    rw [h1, hc, List.append_assoc]
    rfl

/-- A status read's data byte is the register. -/
theorem clockBytes_status {p : Config.Params} (hd : p.ops.Distinct) (r : SrNum) {w : World}
    (ha : w.env.answers = .responder) (hb : chipBusy w.chip = false) (hf : w.chip.frame = [rdsrOp p.ops r]) :
    (clockBytes p (fillerBytes 1) w).1 = [srValue w.chip r] := by
  have hl : ∀ o, p.ops.lookup (p.ops.code o) = some o := fun o => Config.OpcodeTable.lookup_code p.ops o hd
  have h1 := hl .rdsr1
  have h2 := hl .rdsr2
  have h3 := hl .rdsr3
  simp only [Config.OpcodeTable.code] at h1 h2 h3
  show [(answerByte p (tick w)).1] = _
  rw [tick_idle hb]
  cases r <;> simp_all [answerByte, drivenByte, rdsrOp, srValue]

/-- A lock query's data byte. -/
theorem clockBytes_rdlock {p : Config.Params} (hd : p.ops.Distinct) {w : World} {a2 a1 a0 : Byte}
    (ha : w.env.answers = .responder) (hb : chipBusy w.chip = false) (hf : w.chip.frame = [p.ops.rdlock, a2, a1, a0]) :
    (clockBytes p (fillerBytes 1) w).1 = [lockStatusByte p w.chip a2.toNat] := by
  have hl : p.ops.lookup p.ops.rdlock = some .rdlock := Config.OpcodeTable.lookup_code p.ops .rdlock hd
  show [(answerByte p (tick w)).1] = _
  rw [tick_idle hb]
  simp [answerByte, ha, drivenByte, hf, hl, hb]

/-- The bytes clocked after a read header and `d` more bytes are the array's, in ascending order. -/
theorem clockBytes_read {p : Config.Params} (hd : p.ops.Distinct) (a2 a1 a0 : Byte) (n : Nat) :
    ∀ (w : World) (d : List Byte), w.env.answers = .responder → chipBusy w.chip = false →
      w.chip.frame = p.ops.read :: a2 :: a1 :: a0 :: d → (clockBytes p (fillerBytes n) w).1 =
        (List.range n).map fun k =>
          w.chip.array.read ((headerAddr a2 a1 a0 + d.length + k) % Config.arraySize) := by
  have hread : p.ops.lookup p.ops.read = some .read := Config.OpcodeTable.lookup_code p.ops .read hd
  induction n with
  | zero => intros; rfl
  | succ n ih =>
    intro w d ha hb hf
    have h1 : answerByte p w = (w.chip.array.read ((headerAddr a2 a1 a0 + d.length) % Config.arraySize), w.env) := by
      simp [answerByte, ha, drivenByte, hf, hread, hb]
    have h2 : clockByte p Config.filler w =
        (w.chip.array.read ((headerAddr a2 a1 a0 + d.length) % Config.arraySize),
          { chip := { w.chip with frame := w.chip.frame ++ [Config.filler] }, env := w.env }) := by
      simp [clockByte, tick_idle hb, h1]
    rw [fillerBytes, List.replicate_succ, clockBytes, h2, List.range_succ_eq_map, List.map_cons, List.map_map]
    dsimp only
    have := ih (World.mk { w.chip with frame := w.chip.frame ++ [Config.filler] } w.env) (d ++ [Config.filler]) ha hb
      (by simp [hf])
    refine congrArg₂ List.cons (by rw [Nat.add_zero]) (this.trans ?_)
    apply List.map_congr_left
    intro k _
    simp only [List.length_append, List.length_singleton, Function.comp]
    rw [show headerAddr a2 a1 a0 + (d.length + 1) + k = headerAddr a2 a1 a0 + d.length + k.succ by omega]

end Sys2Proof.Machine
end

