-- ==== Sys2Proof/Laws/State.lean ====
section
/-!
SUPPORT. What each named update of State leaves in each field: one lemma per field per update.
-/

namespace Sys2Proof.Machine

section
variable (s : State) (v : Option Phase)
@[simp] theorem State.setPhase_cfg : (s.setPhase v).cfg = s.cfg := rfl
@[simp] theorem State.setPhase_inbox : (s.setPhase v).inbox = s.inbox := rfl
@[simp] theorem State.setPhase_rstLine : (s.setPhase v).rstLine = s.rstLine := rfl
@[simp] theorem State.setPhase_req : (s.setPhase v).req = s.req := rfl
@[simp] theorem State.setPhase_resp : (s.setPhase v).resp = s.resp := rfl
@[simp] theorem State.setPhase_phase : (s.setPhase v).phase = v := rfl
@[simp] theorem State.setPhase_csN : (s.setPhase v).csN = s.csN := rfl
@[simp] theorem State.setPhase_chip : (s.setPhase v).chip = s.chip := rfl
@[simp] theorem State.setPhase_env : (s.setPhase v).env = s.env := rfl
@[simp] theorem State.setPhase_trace : (s.setPhase v).trace = s.trace := rfl
@[simp] theorem State.setPhase_cause : (s.setPhase v).cause = s.cause := rfl
end

section
variable (s : State) (v : Bool)
@[simp] theorem State.setCs_cfg : (s.setCs v).cfg = s.cfg := rfl
@[simp] theorem State.setCs_inbox : (s.setCs v).inbox = s.inbox := rfl
@[simp] theorem State.setCs_rstLine : (s.setCs v).rstLine = s.rstLine := rfl
@[simp] theorem State.setCs_req : (s.setCs v).req = s.req := rfl
@[simp] theorem State.setCs_resp : (s.setCs v).resp = s.resp := rfl
@[simp] theorem State.setCs_phase : (s.setCs v).phase = s.phase := rfl
@[simp] theorem State.setCs_csN : (s.setCs v).csN = v := rfl
@[simp] theorem State.setCs_chip : (s.setCs v).chip = s.chip := rfl
@[simp] theorem State.setCs_env : (s.setCs v).env = s.env := rfl
@[simp] theorem State.setCs_trace : (s.setCs v).trace = s.trace := rfl
@[simp] theorem State.setCs_cause : (s.setCs v).cause = s.cause := rfl
end

section
variable (s : State) (v : Chip)
@[simp] theorem State.setChip_cfg : (s.setChip v).cfg = s.cfg := rfl
@[simp] theorem State.setChip_inbox : (s.setChip v).inbox = s.inbox := rfl
@[simp] theorem State.setChip_rstLine : (s.setChip v).rstLine = s.rstLine := rfl
@[simp] theorem State.setChip_req : (s.setChip v).req = s.req := rfl
@[simp] theorem State.setChip_resp : (s.setChip v).resp = s.resp := rfl
@[simp] theorem State.setChip_phase : (s.setChip v).phase = s.phase := rfl
@[simp] theorem State.setChip_csN : (s.setChip v).csN = s.csN := rfl
@[simp] theorem State.setChip_chip : (s.setChip v).chip = v := rfl
@[simp] theorem State.setChip_env : (s.setChip v).env = s.env := rfl
@[simp] theorem State.setChip_trace : (s.setChip v).trace = s.trace := rfl
@[simp] theorem State.setChip_cause : (s.setChip v).cause = s.cause := rfl
end

section
variable (s : State) (v : Env)
@[simp] theorem State.setEnv_cfg : (s.setEnv v).cfg = s.cfg := rfl
@[simp] theorem State.setEnv_inbox : (s.setEnv v).inbox = s.inbox := rfl
@[simp] theorem State.setEnv_rstLine : (s.setEnv v).rstLine = s.rstLine := rfl
@[simp] theorem State.setEnv_req : (s.setEnv v).req = s.req := rfl
@[simp] theorem State.setEnv_resp : (s.setEnv v).resp = s.resp := rfl
@[simp] theorem State.setEnv_phase : (s.setEnv v).phase = s.phase := rfl
@[simp] theorem State.setEnv_csN : (s.setEnv v).csN = s.csN := rfl
@[simp] theorem State.setEnv_chip : (s.setEnv v).chip = s.chip := rfl
@[simp] theorem State.setEnv_env : (s.setEnv v).env = v := rfl
@[simp] theorem State.setEnv_trace : (s.setEnv v).trace = s.trace := rfl
@[simp] theorem State.setEnv_cause : (s.setEnv v).cause = s.cause := rfl
end

section
variable (s : State) (v : Response)
@[simp] theorem State.setResp_cfg : (s.setResp v).cfg = s.cfg := rfl
@[simp] theorem State.setResp_inbox : (s.setResp v).inbox = s.inbox := rfl
@[simp] theorem State.setResp_rstLine : (s.setResp v).rstLine = s.rstLine := rfl
@[simp] theorem State.setResp_req : (s.setResp v).req = s.req := rfl
@[simp] theorem State.setResp_resp : (s.setResp v).resp = v := rfl
@[simp] theorem State.setResp_phase : (s.setResp v).phase = s.phase := rfl
@[simp] theorem State.setResp_csN : (s.setResp v).csN = s.csN := rfl
@[simp] theorem State.setResp_chip : (s.setResp v).chip = s.chip := rfl
@[simp] theorem State.setResp_env : (s.setResp v).env = s.env := rfl
@[simp] theorem State.setResp_trace : (s.setResp v).trace = s.trace := rfl
@[simp] theorem State.setResp_cause : (s.setResp v).cause = s.cause := rfl
end

section
variable (s : State) (v : Request)
@[simp] theorem State.setReq_cfg : (s.setReq v).cfg = s.cfg := rfl
@[simp] theorem State.setReq_inbox : (s.setReq v).inbox = s.inbox := rfl
@[simp] theorem State.setReq_rstLine : (s.setReq v).rstLine = s.rstLine := rfl
@[simp] theorem State.setReq_req : (s.setReq v).req = v := rfl
@[simp] theorem State.setReq_resp : (s.setReq v).resp = s.resp := rfl
@[simp] theorem State.setReq_phase : (s.setReq v).phase = s.phase := rfl
@[simp] theorem State.setReq_csN : (s.setReq v).csN = s.csN := rfl
@[simp] theorem State.setReq_chip : (s.setReq v).chip = s.chip := rfl
@[simp] theorem State.setReq_env : (s.setReq v).env = s.env := rfl
@[simp] theorem State.setReq_trace : (s.setReq v).trace = s.trace := rfl
@[simp] theorem State.setReq_cause : (s.setReq v).cause = s.cause := rfl
end

section
variable (s : State) (v : List Request)
@[simp] theorem State.setInbox_cfg : (s.setInbox v).cfg = s.cfg := rfl
@[simp] theorem State.setInbox_inbox : (s.setInbox v).inbox = v := rfl
@[simp] theorem State.setInbox_rstLine : (s.setInbox v).rstLine = s.rstLine := rfl
@[simp] theorem State.setInbox_req : (s.setInbox v).req = s.req := rfl
@[simp] theorem State.setInbox_resp : (s.setInbox v).resp = s.resp := rfl
@[simp] theorem State.setInbox_phase : (s.setInbox v).phase = s.phase := rfl
@[simp] theorem State.setInbox_csN : (s.setInbox v).csN = s.csN := rfl
@[simp] theorem State.setInbox_chip : (s.setInbox v).chip = s.chip := rfl
@[simp] theorem State.setInbox_env : (s.setInbox v).env = s.env := rfl
@[simp] theorem State.setInbox_trace : (s.setInbox v).trace = s.trace := rfl
@[simp] theorem State.setInbox_cause : (s.setInbox v).cause = s.cause := rfl
end

section
variable (s : State) (v : List Bool)
@[simp] theorem State.setRstLine_cfg : (s.setRstLine v).cfg = s.cfg := rfl
@[simp] theorem State.setRstLine_inbox : (s.setRstLine v).inbox = s.inbox := rfl
@[simp] theorem State.setRstLine_rstLine : (s.setRstLine v).rstLine = v := rfl
@[simp] theorem State.setRstLine_req : (s.setRstLine v).req = s.req := rfl
@[simp] theorem State.setRstLine_resp : (s.setRstLine v).resp = s.resp := rfl
@[simp] theorem State.setRstLine_phase : (s.setRstLine v).phase = s.phase := rfl
@[simp] theorem State.setRstLine_csN : (s.setRstLine v).csN = s.csN := rfl
@[simp] theorem State.setRstLine_chip : (s.setRstLine v).chip = s.chip := rfl
@[simp] theorem State.setRstLine_env : (s.setRstLine v).env = s.env := rfl
@[simp] theorem State.setRstLine_trace : (s.setRstLine v).trace = s.trace := rfl
@[simp] theorem State.setRstLine_cause : (s.setRstLine v).cause = s.cause := rfl
end

section
variable (s : State) (v : Option Cause)
@[simp] theorem State.setCause_cfg : (s.setCause v).cfg = s.cfg := rfl
@[simp] theorem State.setCause_inbox : (s.setCause v).inbox = s.inbox := rfl
@[simp] theorem State.setCause_rstLine : (s.setCause v).rstLine = s.rstLine := rfl
@[simp] theorem State.setCause_req : (s.setCause v).req = s.req := rfl
@[simp] theorem State.setCause_resp : (s.setCause v).resp = s.resp := rfl
@[simp] theorem State.setCause_phase : (s.setCause v).phase = s.phase := rfl
@[simp] theorem State.setCause_csN : (s.setCause v).csN = s.csN := rfl
@[simp] theorem State.setCause_chip : (s.setCause v).chip = s.chip := rfl
@[simp] theorem State.setCause_env : (s.setCause v).env = s.env := rfl
@[simp] theorem State.setCause_trace : (s.setCause v).trace = s.trace := rfl
@[simp] theorem State.setCause_cause : (s.setCause v).cause = v := rfl
end

section
variable (s : State) (v : List Event)
@[simp] theorem State.setTrace_cfg : (s.setTrace v).cfg = s.cfg := rfl
@[simp] theorem State.setTrace_inbox : (s.setTrace v).inbox = s.inbox := rfl
@[simp] theorem State.setTrace_rstLine : (s.setTrace v).rstLine = s.rstLine := rfl
@[simp] theorem State.setTrace_req : (s.setTrace v).req = s.req := rfl
@[simp] theorem State.setTrace_resp : (s.setTrace v).resp = s.resp := rfl
@[simp] theorem State.setTrace_phase : (s.setTrace v).phase = s.phase := rfl
@[simp] theorem State.setTrace_csN : (s.setTrace v).csN = s.csN := rfl
@[simp] theorem State.setTrace_chip : (s.setTrace v).chip = s.chip := rfl
@[simp] theorem State.setTrace_env : (s.setTrace v).env = s.env := rfl
@[simp] theorem State.setTrace_trace : (s.setTrace v).trace = v := rfl
@[simp] theorem State.setTrace_cause : (s.setTrace v).cause = s.cause := rfl
end

end Sys2Proof.Machine
end

