-- ==== Sys2Proof/Laws/Sequencer.lean ====
section
/-!
SUPPORT. What an instruction can do, said once: a host operation is its pseudocode run by `runHost` or a rejection; a step
of the pseudocode is one of five moves; a wire command changes the chip and its draws alone.
-/

namespace Sys2Proof.Machine

@[simp] theorem emit_trace (e : Event) (s : State) : (emit e s).trace = e :: s.trace := rfl
@[simp] theorem emit_cfg (e : Event) (s : State) : (emit e s).cfg = s.cfg := rfl
@[simp] theorem emit_inbox (e : Event) (s : State) : (emit e s).inbox = s.inbox := rfl
@[simp] theorem emit_rstLine (e : Event) (s : State) : (emit e s).rstLine = s.rstLine := rfl
@[simp] theorem emit_req (e : Event) (s : State) : (emit e s).req = s.req := rfl
@[simp] theorem emit_resp (e : Event) (s : State) : (emit e s).resp = s.resp := rfl
@[simp] theorem emit_phase (e : Event) (s : State) : (emit e s).phase = s.phase := rfl
@[simp] theorem emit_csN (e : Event) (s : State) : (emit e s).csN = s.csN := rfl
@[simp] theorem emit_chip (e : Event) (s : State) : (emit e s).chip = s.chip := rfl
@[simp] theorem emit_env (e : Event) (s : State) : (emit e s).env = s.env := rfl
@[simp] theorem emit_cause (e : Event) (s : State) : (emit e s).cause = s.cause := rfl

/-- The failure exit always rejects in the sense of R236, whatever result field it keeps. -/
theorem raiseCause_rejects (c : Cause) (v : Option (List Byte)) (s : State) : Rejects c s (.next (raiseCause c v s)) :=
  ⟨_, rfl, rfl, rfl, rfl, rfl, rfl, rfl, rfl, rfl, rfl, rfl⟩

/-- `return OK = 1` is an answer. -/
theorem respondOk_eq (s : State) : respondOk s = answered { s.resp with ok := true } none s := rfl

/-- A host operation is rejected by validation or is its pseudocode (R236, R23). -/
theorem exec_host {i : Instr} (h : isHost i = true) (s : State) :
    exec i s =
      match rejectCause i with
      | some c => rejectRequest c s
      | none => runHost (hostSteps s.cfg (oldOf s) i) s := by
  cases i <;> first
    | rfl
    | (simp [isHost] at h; done)
    | skip
  · rename_i reg mask value
    simp only [exec, execStatusRegWrite, rejectCause, hostSteps]
    cases srOfReg reg <;> rfl
  · rename_i reg
    simp only [exec, execStatusRegRead, rejectCause, hostSteps]
    cases srOfReg reg <;> rfl
  · rename_i b sec pg off len
    simp only [exec, execRead, rejectCause, hostSteps]
    cases validCoords sec pg <;> rfl
  · rename_i b sec pg off tx
    simp only [exec, execPageProgram, rejectCause, hostSteps]
    cases validCoords sec pg && validProgram off tx.length <;> rfl
  · rename_i b sec
    simp only [exec, execSectorErase, rejectCause, hostSteps]
    cases validCoords sec 0 <;> rfl

/-- A running, accepted host operation takes the step its phase names. -/
theorem exec_running {i : Instr} {s : State} {ph : Phase} {m : Micro} (hi : isHost i = true)
    (hr : rejectCause i = none) (hp : s.phase = some ph) (hm : (hostSteps s.cfg ph.old i)[ph.pc]? = some m) :
    exec i s = microStep (hostSteps s.cfg ph.old i) ph m s := by
  rw [exec_host hi, hr]
  simp only [oldOf, hp, runHost, hm]

/-- The number of steps of an operation does not depend on the value it keeps. -/
theorem hostSteps_length (p : Config.Params) (old old' : Byte) (i : Instr) :
    (hostSteps p old i).length = (hostSteps p old' i).length := by
  cases i <;> rfl

/-- An accepted host operation has a first step. -/
theorem hostSteps_ne_nil (p : Config.Params) (old : Byte) {i : Instr} (h : isHost i = true) (hr : rejectCause i = none) :
    0 < (hostSteps p old i).length := by
  cases i <;> first
    | exact Nat.succ_pos _
    | (simp [isHost] at h; done)
    | (simp [rejectCause] at hr)

/-- The end of a pseudocode step: the next one, or `OK = 1`. -/
theorem advance_cases (prog : List Micro) (ph : Phase) (s : State) :
    (ph.pc + 1 < prog.length ∧ advance prog ph s = s.setPhase (some (phaseAt (ph.pc + 1) ph.old))) ∨
      (prog.length ≤ ph.pc + 1 ∧ advance prog ph s = respondOk s) := by
  unfold advance
  split
  · exact .inl ⟨‹_›, rfl⟩
  · exact .inr ⟨by omega, rfl⟩

/-- The step writes a result field of the response latch. -/
def writesResult : Micro → Bool
  | .poll _ _ => false
  | .send _ => false
  | .delay _ => false
  | .query _ _ u =>
    match u with
    | .discard => false
    | .keepOld => false
    | .expectBit _ _ _ => false
    | .expectMasked _ _ => false
    | .toRval => true
    | .toRxbuf => true
    | .verify _ => true
    | .refuseLocked _ _ => false

/-- Only the last step of an operation writes a result field. -/
theorem writesResult_last {p : Config.Params} {old : Byte} {i : Instr} {k : Nat} {m : Micro}
    (h : (hostSteps p old i)[k]? = some m) (hw : writesResult m = true) : (hostSteps p old i).length ≤ k + 1 := by
  have key : (hostSteps p old i).dropLast.all (fun m => !writesResult m) = true := by cases i <;> rfl
  by_contra hk
  have hk : k + 1 < (hostSteps p old i).length := by omega
  have hm : m ∈ (hostSteps p old i).dropLast := by
    refine List.mem_of_getElem? (i := k) ?_
    rw [List.getElem?_dropLast, if_pos (by omega), h]
  have := List.all_eq_true.1 key m hm
  simp [hw] at this

/-- The end of a bracket: on to the next step (perhaps with a result written or a value kept), the failure exit, or the
poll again. -/
theorem judge_cases (prog : List Micro) (ph : Phase) (m : Micro) (s : State) (hm : ∀ us, m ≠ .delay us) :
    (∃ old r, judge prog ph m s = advance prog { ph with old := old } (s.setResp r) ∧
        (writesResult m = false → r = s.resp)) ∨
      (∃ c v, judge prog ph m s = raiseCause c v s) ∨
      judge prog ph m s = s.setPhase (some (phaseAt ph.pc ph.old)) := by
  cases m with
  | delay us => exact absurd rfl (hm us)
  | poll op bit =>
    simp only [judge]
    split
    · split
      · exact .inr (.inr rfl)
      · exact .inl ⟨ph.old, s.resp, rfl, fun _ => rfl⟩
    · split
      · exact .inr (.inl ⟨_, _, rfl⟩)
      · exact .inr (.inr rfl)
  | send tx =>
    simp only [judge]
    split
    · exact .inl ⟨ph.old, s.resp, rfl, fun _ => rfl⟩
    · exact .inr (.inl ⟨_, _, rfl⟩)
  | query tx n u =>
    simp only [judge]
    split
    · cases u <;> simp only [useBytes]
      case discard => exact .inl ⟨ph.old, s.resp, rfl, fun _ => rfl⟩
      case keepOld => exact .inl ⟨_, s.resp, rfl, fun _ => rfl⟩
      case expectBit =>
        split
        · exact .inl ⟨ph.old, s.resp, rfl, fun _ => rfl⟩
        · exact .inr (.inl ⟨_, _, rfl⟩)
      case expectMasked =>
        split
        · exact .inl ⟨ph.old, s.resp, rfl, fun _ => rfl⟩
        · exact .inr (.inl ⟨_, _, rfl⟩)
      case toRval => exact .inl ⟨ph.old, _, rfl, by simp [writesResult]⟩
      case toRxbuf => exact .inl ⟨ph.old, _, rfl, by simp [writesResult]⟩
      case verify =>
        split
        · exact .inl ⟨ph.old, _, rfl, by simp [writesResult]⟩
        · exact .inr (.inl ⟨_, _, rfl⟩)
      case refuseLocked =>
        split
        · exact .inr (.inl ⟨_, _, rfl⟩)
        · exact .inl ⟨ph.old, s.resp, rfl, fun _ => rfl⟩
    · exact .inr (.inl ⟨_, _, rfl⟩)

/-- What a step of the pseudocode does when it answers a next state: a delay, the opening of a bracket, an exchange, the
closing of a bracket, or its judgement. -/
theorem microStep_cases {prog : List Micro} {ph : Phase} {m : Micro} {s t : State}
    (h : microStep prog ph m s = .next t) :
    (∃ us, m = .delay us ∧ ph.stage = .low ∧ t = advance prog ph (delayUs us s)) ∨
      (ph.stage = .low ∧ (∀ us, m ≠ .delay us) ∧ s.csN = true ∧
        t = (csLow s).setPhase (some { ph with stage := .send })) ∨
      (∃ tx next, s.csN = false ∧ t = exchanged tx ph next s ∧
        ((ph.stage = .send ∧ sentBytes m = some tx ∧ next = afterSend m) ∨
          ∃ n, ph.stage = .recv ∧ receiveCount m = some n ∧ tx = fillerBytes n ∧ next = fun _ => .high)) ∨
      (ph.stage = .high ∧ (∀ us, m ≠ .delay us) ∧ t = (csHigh s).setPhase (some { ph with stage := .judge })) ∨
      (ph.stage = .judge ∧ (∀ us, m ≠ .delay us) ∧ t = judge prog ph m s) := by
  have key : ∀ tx, sentBytes m = some tx → bracketStep prog ph m tx s = .next t →
      (ph.stage = .low ∧ (∀ us, m ≠ .delay us) ∧ s.csN = true ∧
        t = (csLow s).setPhase (some { ph with stage := .send })) ∨
      (∃ tx next, s.csN = false ∧ t = exchanged tx ph next s ∧
        ((ph.stage = .send ∧ sentBytes m = some tx ∧ next = afterSend m) ∨
          ∃ n, ph.stage = .recv ∧ receiveCount m = some n ∧ tx = fillerBytes n ∧ next = fun _ => .high)) ∨
      (ph.stage = .high ∧ (∀ us, m ≠ .delay us) ∧ t = (csHigh s).setPhase (some { ph with stage := .judge })) ∨
      (ph.stage = .judge ∧ (∀ us, m ≠ .delay us) ∧ t = judge prog ph m s) := by
    intro tx htx hb
    have hd : ∀ us, m ≠ .delay us := by rintro us rfl; simp [sentBytes] at htx
    unfold bracketStep at hb
    cases hst : ph.stage <;> simp only [hst] at hb
    · split at hb
      · exact .inl ⟨rfl, hd, ‹_›, by simpa using hb.symm⟩
      · simp at hb
    · simp only [exchangeStep] at hb
      split at hb
      · simp at hb
      · exact .inr (.inl ⟨tx, _, eq_false_of_ne_true ‹_›, by simpa using hb.symm, .inl ⟨rfl, htx, rfl⟩⟩)
    · split at hb
      · rename_i n hn
        simp only [exchangeStep] at hb
        split at hb
        · simp at hb
        · exact .inr (.inl ⟨_, _, eq_false_of_ne_true ‹_›, by simpa using hb.symm, .inr ⟨n, rfl, hn, rfl, rfl⟩⟩)
      · simp at hb
    · exact .inr (.inr (.inl ⟨rfl, hd, by simpa using hb.symm⟩))
    · exact .inr (.inr (.inr ⟨rfl, hd, by simpa using hb.symm⟩))
  cases m with
  | delay us =>
    simp only [microStep] at h
    split at h
    · exact .inl ⟨us, rfl, ‹_›, by simpa using h.symm⟩
    · simp at h
  | poll op bit => exact .inr (key _ rfl h)
  | send tx => exact .inr (key _ rfl h)
  | query tx n u => exact .inr (key _ rfl h)

/-- What a host operation does when it answers a next state: rejection, acceptance, or a step of its pseudocode. -/
theorem exec_host_cases {i : Instr} {s t : State} (hi : isHost i = true) (h : exec i s = .next t) :
    (∃ c, rejectCause i = some c ∧ t = raiseCause c none s) ∨
      (rejectCause i = none ∧ s.phase = none ∧ t = startOperation s) ∨
      (rejectCause i = none ∧ ∃ ph m, s.phase = some ph ∧ (hostSteps s.cfg ph.old i)[ph.pc]? = some m ∧
        microStep (hostSteps s.cfg ph.old i) ph m s = .next t) := by
  rw [exec_host hi] at h
  cases hr : rejectCause i with
  | some c =>
    rw [hr] at h
    exact .inl ⟨c, rfl, by simpa [rejectRequest] using h.symm⟩
  | none =>
    rw [hr] at h
    simp only [runHost] at h
    cases hp : s.phase with
    | none =>
      rw [hp] at h
      exact .inr (.inl ⟨rfl, rfl, by simpa using h.symm⟩)
    | some ph =>
      simp only [hp, oldOf] at h
      split at h
      · rename_i m hm
        exact .inr (.inr ⟨rfl, ph, m, rfl, hm, h⟩)
      · simp at h

/-- What a host operation's step can change: not the latch, what waits, the parameters or the reset line; of the chip its
frame, its closed frame, and what a completed cycle changes. -/
theorem exec_host_moves {i : Instr} {s t : State} (hi : isHost i = true) (h : exec i s = .next t) :
    (t.cfg = s.cfg ∧ t.req = s.req ∧ t.inbox = s.inbox ∧ t.rstLine = s.rstLine) ∧
      ∃ c f g, Settled s.chip c ∧ t.chip = { c with frame := f, closed := g } := by
  have same : ∀ d : Chip, ∃ c f g, Settled d c ∧ d = { c with frame := f, closed := g } :=
    fun d => ⟨d, d.frame, d.closed, .refl d, rfl⟩
  have adv : ∀ (prog : List Micro) (ph : Phase) (r : Response),
      advance prog ph (s.setResp r) = t → (t.cfg = s.cfg ∧ t.req = s.req ∧ t.inbox = s.inbox ∧ t.rstLine = s.rstLine) ∧
        t.chip = s.chip := by
    rintro prog ph r rfl
    obtain ⟨-, h⟩ | ⟨-, h⟩ := advance_cases prog ph (s.setResp r) <;> rw [h] <;> exact ⟨⟨rfl, rfl, rfl, rfl⟩, rfl⟩
  obtain ⟨c, -, rfl⟩ | ⟨-, -, rfl⟩ | ⟨-, ph, m, hp, hm, h⟩ := exec_host_cases hi h
  · exact ⟨⟨rfl, rfl, rfl, rfl⟩, same s.chip⟩
  · exact ⟨⟨rfl, rfl, rfl, rfl⟩, same s.chip⟩
  · obtain ⟨us, -, -, rfl⟩ | ⟨-, -, -, rfl⟩ | ⟨tx, nx, -, rfl, -⟩ | ⟨-, -, rfl⟩ | ⟨-, hd, rfl⟩ := microStep_cases h
    · obtain ⟨-, h⟩ | ⟨-, h⟩ := advance_cases (hostSteps s.cfg ph.old i) ph (delayUs us s) <;> rw [h] <;>
        exact ⟨⟨rfl, rfl, rfl, rfl⟩, same s.chip⟩
    · exact ⟨⟨rfl, rfl, rfl, rfl⟩, s.chip, [], s.chip.closed, .refl _, rfl⟩
    · obtain ⟨c, hc, he⟩ := exchange_settled s.cfg tx s.world
      exact ⟨⟨rfl, rfl, rfl, rfl⟩, c, _, c.closed, hc, he⟩
    · simp only [csHigh, closeBracket]
      split
      · exact ⟨⟨rfl, rfl, rfl, rfl⟩, same s.chip⟩
      · exact ⟨⟨rfl, rfl, rfl, rfl⟩, s.chip, [], some s.chip.frame, .refl _, rfl⟩
    · obtain ⟨old, r, h, -⟩ | ⟨c, v, h⟩ | h := judge_cases (hostSteps s.cfg ph.old i) ph m s hd
      · obtain ⟨h1, h2⟩ := adv _ _ r h.symm
        exact ⟨h1, h2 ▸ same s.chip⟩
      · rw [h]; exact ⟨⟨rfl, rfl, rfl, rfl⟩, same s.chip⟩
      · rw [h]; exact ⟨⟨rfl, rfl, rfl, rfl⟩, same s.chip⟩

/-- A wire command always answers a next state; it changes the chip and its draws alone, and is done with its frame. -/
theorem exec_wire {i : Instr} (hi : isHost i = false) (s : State) :
    ∃ c e, exec i s = .next ((s.setChip c).setEnv e) ∧ c.frame = s.chip.frame ∧ c.closed = none := by
  have key : ∀ f : Chip → Chip, (∀ c, (f c).frame = c.frame) →
      ∃ c e, chipCommand f s = .next ((s.setChip c).setEnv e) ∧ c.frame = s.chip.frame ∧ c.closed = none :=
    fun f hf => ⟨finishCommand (f s.chip), s.env, rfl, hf s.chip, rfl⟩
  have hlock : ∀ p f, (∀ c : Chip, (f c).frame = c.frame) → ∀ c, (lockCommand p f c).frame = c.frame := by
    intro p f hf c
    unfold lockCommand
    split
    · split
      · exact hf c
      · exact hf c
    · rfl
  have hset : ∀ b v c, (setLockBit b v c).frame = c.frame := fun _ _ _ => rfl
  have hsw : ∀ p r d c, (statusWrite p r d c).frame = c.frame := by
    intro p r d c
    unfold statusWrite
    split
    · cases r <;> rfl
    · rfl
  have her : ∀ b n c, (eraseRegion b n c).frame = c.frame := by
    intro b n c
    unfold eraseRegion
    split
    · split <;> rfl
    · rfl
  have hpp : ∀ a d c, (pageProgram a d c).frame = c.frame := by
    intro a d c
    unfold pageProgram
    split
    · split <;> rfl
    · rfl
  cases i <;> first
    | (simp [isHost] at hi; done)
    | exact key id fun _ => rfl
    | exact key _ (hsw _ _ _)
    | exact key _ (her _ _)
    | exact key _ (hpp _ _)
    | exact key _ (hlock _ _ (hset _ _))
    | exact key _ (hlock _ _ fun _ => rfl)
    | skip
  case wireWren => exact key (fun c => if chipBusy c then c else setWel true c) fun c => by split <;> rfl
  case wireVwren => exact key (fun c => if chipBusy c then c else setVsrEn true c) fun c => by split <;> rfl
  case wireRsten =>
    exact ⟨{ s.chip with closed := none, rstEn := if chipBusy s.chip then s.chip.rstEn else true }, s.env, rfl, rfl, rfl⟩
  case wireRst =>
    show ∃ c e, execWireRst s = _ ∧ _
    unfold execWireRst
    split
    · exact ⟨_, _, rfl, rfl, rfl⟩
    · exact key id fun _ => rfl

/-- A request tuple decodes to a host operation. -/
theorem decodeRequest_isHost {p : Config.Params} {r : Request} {i : Instr} (h : decodeRequest p r = .ok i) :
    isHost i = true := by
  unfold decodeRequest at h
  split at h <;> first
    | (split at h <;> first | exact (Except.ok.inj h) ▸ rfl | simp at h)
    | exact (Except.ok.inj h) ▸ rfl

/-- A frame decodes to a wire command. -/
theorem decodeFrame_isWire {p : Config.Params} {f : List Byte} {i : Instr} (h : decodeFrame p f = .ok i) :
    isHost i = false := by
  cases f with
  | nil => simp [decodeFrame] at h
  | cons op rest =>
    simp only [decodeFrame, withAddress, withData] at h
    split at h <;> first
      | (simp at h; done)
      | (split at h <;> first | exact (Except.ok.inj h) ▸ rfl | simp at h)
      | exact (Except.ok.inj h) ▸ rfl

end Sys2Proof.Machine
end

