-- ==== Sys2Proof/Laws/Step.lean ====
section
/-!
SUPPORT. What a step can do, said once, and the fields of the state in which it runs an instruction.
-/

namespace Sys2Proof.Machine

variable (s : State)

@[simp] theorem stepBase_cfg : (stepBase s).cfg = s.cfg := rfl
@[simp] theorem stepBase_inbox : (stepBase s).inbox = s.inbox := rfl
@[simp] theorem stepBase_rstLine : (stepBase s).rstLine = s.rstLine.tail := rfl
@[simp] theorem stepBase_req : (stepBase s).req = s.req := rfl
@[simp] theorem stepBase_resp : (stepBase s).resp = s.resp := rfl
@[simp] theorem stepBase_phase : (stepBase s).phase = s.phase := rfl
@[simp] theorem stepBase_csN : (stepBase s).csN = s.csN := rfl
@[simp] theorem stepBase_chip : (stepBase s).chip = (tick s.world).chip := rfl
@[simp] theorem stepBase_env : (stepBase s).env = (tick s.world).env := rfl
@[simp] theorem stepBase_trace : (stepBase s).trace = s.trace := rfl
@[simp] theorem stepBase_cause : (stepBase s).cause = s.cause := rfl

variable (r : Request) (rest : List Request)

@[simp] theorem takeRequest_cfg : (takeRequest r rest s).cfg = s.cfg := rfl
@[simp] theorem takeRequest_inbox : (takeRequest r rest s).inbox = rest := rfl
@[simp] theorem takeRequest_rstLine : (takeRequest r rest s).rstLine = s.rstLine := rfl
@[simp] theorem takeRequest_req : (takeRequest r rest s).req = r := rfl
@[simp] theorem takeRequest_resp : (takeRequest r rest s).resp = s.resp := rfl
@[simp] theorem takeRequest_phase : (takeRequest r rest s).phase = s.phase := rfl
@[simp] theorem takeRequest_csN : (takeRequest r rest s).csN = s.csN := rfl
@[simp] theorem takeRequest_chip : (takeRequest r rest s).chip = s.chip := rfl
@[simp] theorem takeRequest_env : (takeRequest r rest s).env = s.env := rfl
@[simp] theorem takeRequest_trace : (takeRequest r rest s).trace = .req r :: s.trace := rfl
@[simp] theorem takeRequest_cause : (takeRequest r rest s).cause = s.cause := rfl

variable {s r rest}

/-- With BUSY = 0 the chip and the environment are as before at the instruction. -/
theorem stepBase_idle (h : chipBusy s.chip = false) : stepBase s = s.setRstLine s.rstLine.tail := by
  have : tick s.world = s.world := tick_idle h
  rw [stepBase, environmentTick, this]
  rfl

/-- A closed frame that is a command: the chip executes it. -/
theorem step_frame {f : List Byte} {i : Instr} (h : s.chip.closed = some f) (hd : decode s.cfg (.frame f) = .ok i) :
    step s = exec i s := by
  simp [step, h, runFrame, hd]

/-- A running block takes the operation's next step. -/
theorem step_running {ph : Phase} {i : Instr} (h : s.chip.closed = none) (hr : resetAsserted s = false)
    (hp : s.phase = some ph) (hd : decode s.cfg (.request s.req) = .ok i) : step s = exec i (stepBase s) := by
  simp [step, h, hr, blockStep, hp, runRequest, hd]

/-- An idle block takes the host's next request. -/
theorem step_request {i : Instr} (h : s.chip.closed = none) (hr : resetAsserted s = false) (hp : s.phase = none)
    (hi : s.inbox = r :: rest) (hd : decode s.cfg (.request r) = .ok i) :
    step s = exec i (takeRequest r rest (stepBase s)) := by
  simp [step, h, hr, blockStep, hp, hi, runRequest, hd]

/-- Everything a step can do when it answers a next state. -/
theorem step_cases {t : State} (h : step s = .next t) :
    (∃ f i, s.chip.closed = some f ∧ decode s.cfg (.frame f) = .ok i ∧ isHost i = false ∧ exec i s = .next t) ∨
      (∃ f e, s.chip.closed = some f ∧ decode s.cfg (.frame f) = .error e ∧ t = dropFrame s) ∨
      (s.chip.closed = none ∧ resetAsserted s = true ∧ t = blockReset (stepBase s)) ∨
      (∃ ph i, s.chip.closed = none ∧ resetAsserted s = false ∧ s.phase = some ph ∧
        decode s.cfg (.request s.req) = .ok i ∧ isHost i = true ∧ exec i (stepBase s) = .next t) ∨
      (∃ r rest i, s.chip.closed = none ∧ resetAsserted s = false ∧ s.phase = none ∧ s.inbox = r :: rest ∧
        decode s.cfg (.request r) = .ok i ∧ isHost i = true ∧ exec i (takeRequest r rest (stepBase s)) = .next t) ∨
      (s.chip.closed = none ∧ resetAsserted s = false ∧ s.phase = none ∧ s.inbox = [] ∧ t = stepBase s) := by
  unfold step at h
  cases hc : s.chip.closed with
  | some f =>
    simp only [hc, runFrame] at h
    split at h
    · rename_i i hd
      exact .inl ⟨f, i, rfl, hd, decodeFrame_isWire hd, h⟩
    · rename_i e hd
      exact .inr (.inl ⟨f, e, rfl, hd, (Host.Outcome.next.inj h).symm⟩)
  | none =>
    simp only [hc] at h
    split at h
    · exact .inr (.inr (.inl ⟨rfl, ‹_›, (Host.Outcome.next.inj h).symm⟩))
    · have hr : resetAsserted s = false := eq_false_of_ne_true ‹_›
      unfold blockStep at h
      simp only [stepBase_phase, stepBase_inbox] at h
      cases hp : s.phase with
      | some ph =>
        simp only [hp, runRequest] at h
        split at h
        · rename_i i hd
          exact .inr (.inr (.inr (.inl ⟨ph, i, rfl, hr, rfl, hd, decodeRequest_isHost hd, h⟩)))
        · simp at h
      | none =>
        simp only [hp] at h
        cases hi : s.inbox with
        | nil =>
          simp only [hi] at h
          exact .inr (.inr (.inr (.inr (.inr ⟨rfl, hr, rfl, rfl, (Host.Outcome.next.inj h).symm⟩))))
        | cons r rest =>
          simp only [hi, runRequest] at h
          split at h
          · rename_i i hd
            exact .inr (.inr (.inr (.inr (.inl ⟨r, rest, i, rfl, hr, rfl, rfl, hd, decodeRequest_isHost hd, h⟩))))
          · simp at h

/-- What a reset of the block leaves. -/
theorem blockReset_fields (s : State) :
    (blockReset s).phase = none ∧ (blockReset s).csN = true ∧ (blockReset s).trace = [] ∧
      (blockReset s).inbox = s.inbox ∧ (blockReset s).cfg = s.cfg ∧ (blockReset s).rstLine = s.rstLine ∧
      (blockReset s).chip = if s.csN then s.chip else { s.chip with frame := [], closed := some s.chip.frame } := by
  cases h : s.csN <;> simp [blockReset, closeBracket, h]

/-- A step only takes from what waits at the host port, and only its first request. -/
theorem step_inbox {t : State} (h : step s = .next t) : t.inbox = s.inbox ∨ ∃ r, s.inbox = r :: t.inbox := by
  obtain ⟨f, i, -, -, hi, h⟩ | ⟨f, e, -, -, rfl⟩ | ⟨-, -, rfl⟩ | ⟨ph, i, -, -, -, -, hi, h⟩ |
    ⟨r, rest, i, -, -, -, hs, -, hi, h⟩ | ⟨-, -, -, -, rfl⟩ := step_cases h
  · obtain ⟨c, e, he, -, -⟩ := exec_wire hi s
    rw [he] at h
    rw [← Host.Outcome.next.inj h]
    exact .inl rfl
  · exact .inl rfl
  · exact .inl (blockReset_fields (stepBase s)).2.2.2.1
  · exact .inl (exec_host_moves hi h).1.2.2.1
  · exact .inr ⟨r, by rw [hs, (exec_host_moves hi h).1.2.2.1]; rfl⟩
  · exact .inl rfl

end Sys2Proof.Machine
end

