-- ==== Sys2Proof/Laws/Discipline.lean ====
section
/-!
SUPPORT. How an operation ends with `OK = 1`, that a disciplined block never stops, and that a step of an operation keeps
the discipline.
-/

namespace Sys2Proof.Machine

/-- A query whose operation ends with `OK = 1` has passed its own test. -/
theorem query_ends {prog : List Micro} {ph : Phase} {tx : List Byte} {n : Nat} {u : Use} {s t : State}
    (h : microStep prog ph (.query tx n u) s = .next t) (ht : t.phase = none) (hok : t.resp.ok = true) :
    t = useBytes prog ph u s := by
  obtain ⟨us, hm, -⟩ | ⟨-, -, -, rfl⟩ | ⟨tx, nx, -, rfl, -⟩ | ⟨-, -, rfl⟩ | ⟨hst, hd, rfl⟩ := microStep_cases h
  · simp at hm
  · simp at ht
  · simp [exchanged] at ht
  · simp at ht
  · simp only [judge] at hok ⊢
    split
    · rfl
    · rename_i hc; rw [if_neg hc] at hok; simp [raiseCause, respond] at hok

/-- An operation that ends with `OK = 1` was at the last step of its pseudocode. -/
theorem ends_at_last {i : Instr} {s t : State} {ph : Phase} (hi : isHost i = true) (hp : s.phase = some ph)
    (h : exec i s = .next t) (ht : t.phase = none) (hok : t.resp.ok = true) :
    ∃ m, (hostSteps s.cfg ph.old i)[ph.pc]? = some m ∧ ph.pc + 1 = (hostSteps s.cfg ph.old i).length ∧
      microStep (hostSteps s.cfg ph.old i) ph m s = .next t := by
  obtain ⟨c, -, rfl⟩ | ⟨-, hn, rfl⟩ | ⟨-, ph', m, hp', hm, h⟩ := exec_host_cases hi h
  · simp [raiseCause, respond] at hok
  · simp [startOperation] at ht
  · obtain rfl : ph = ph' := by rw [hp] at hp'; exact Option.some.inj hp'
    refine ⟨m, hm, ?_, h⟩
    have hlt : ph.pc < (hostSteps s.cfg ph.old i).length := by
      by_contra hge
      rw [List.getElem?_eq_none (by omega)] at hm
      simp at hm
    obtain ⟨us, -, -, rfl⟩ | ⟨-, -, -, rfl⟩ | ⟨tx, nx, -, rfl, -⟩ | ⟨-, -, rfl⟩ | ⟨hst, hd, rfl⟩ := microStep_cases h
    · obtain ⟨-, h⟩ | ⟨hl, h⟩ := advance_cases (hostSteps s.cfg ph.old i) ph (delayUs us s)
      · rw [h] at ht; simp at ht
      · omega
    · simp at ht
    · simp [exchanged] at ht
    · simp at ht
    · obtain ⟨old, r, h, -⟩ | ⟨c, v, h⟩ | h := judge_cases (hostSteps s.cfg ph.old i) ph m s hd
      · obtain ⟨-, h'⟩ | ⟨hl, h'⟩ := advance_cases (hostSteps s.cfg ph.old i) { ph with old := old } (s.setResp r)
        · rw [h, h'] at ht; simp at ht
        · have : ({ ph with old := old } : Phase).pc = ph.pc := rfl
          omega
      · rw [h] at hok; simp [raiseCause, respond] at hok
      · rw [h] at ht; simp at ht

/-- At a position of its pseudocode a step never stops. -/
theorem microStep_next (prog : List Micro) {ph : Phase} {m : Micro} {s : State} (hc : s.csN = stageLine ph.stage)
    (hf : stageFits m ph.stage) : ∃ t, microStep prog ph m s = .next t := by
  have key : ∀ tx, (∀ us, m ≠ .delay us) → ∃ t, bracketStep prog ph m tx s = .next t := by
    intro tx hd
    unfold bracketStep
    cases hst : ph.stage <;> rw [hst] at hc hf
    · exact ⟨_, if_pos hc⟩
    · simp only [exchangeStep]; exact ⟨_, if_neg (by rw [hc]; simp [stageLine])⟩
    · cases m with
      | delay us => exact absurd rfl (hd us)
      | send tx => exact absurd rfl hf
      | poll op bit => simp only [receiveCount, exchangeStep]; exact ⟨_, if_neg (by rw [hc]; simp [stageLine])⟩
      | query tx n u => simp only [receiveCount, exchangeStep]; exact ⟨_, if_neg (by rw [hc]; simp [stageLine])⟩
    · exact ⟨_, rfl⟩
    · exact ⟨_, rfl⟩
  cases m with
  | delay us => simp only [stageFits] at hf; simp only [microStep, hf]; exact ⟨_, rfl⟩
  | poll op bit => exact key _ (by simp)
  | send tx => exact key _ (by simp)
  | query tx n u => exact key _ (by simp)

/-- A `Resp` outside a bracket keeps the trace outside. -/
theorem scan_resp {t : List Event} {r : Response} (h : scanTrace t = some none) : scanTrace (.resp r :: t) = some none := by simp [scanTrace, h]

/-- A step of the operation in the latch keeps the discipline. -/
theorem exec_host_inv {i : Instr} {s t : State} (hi : isHost i = true) (hb : Bracketed s) (hcl : s.chip.closed = none)
    (hd : decode s.cfg (.request s.req) = .ok i) (hw : WellPhased s) (h : exec i s = .next t) : RunInv t := by
  obtain ⟨h1, h2, h3, h4⟩ := hb
  obtain ⟨c, hr, rfl⟩ | ⟨hr, hn, rfl⟩ | ⟨hr, ph, m, hp, hm, h⟩ := exec_host_cases hi h
  · have hn : s.phase = none := by
      cases hp : s.phase with
      | none => rfl
      | some ph =>
        obtain ⟨i', m, hd', hr', -⟩ := hw ph hp
        rw [hd] at hd'
        obtain rfl := Except.ok.inj hd'
        rw [hr] at hr'; simp at hr'
    rw [hn] at h1 h4
    exact ⟨⟨h1, h2, h3, scan_resp h4⟩, fun ph h => by simp [raiseCause, respond] at h⟩
  · rw [hn] at h1 h4
    refine ⟨⟨h1, h2, h3, h4⟩, fun ph h => ?_⟩
    obtain rfl := Option.some.inj h
    have := hostSteps_ne_nil s.cfg 0 hi hr
    obtain ⟨m, hm⟩ : ∃ m, (hostSteps s.cfg 0 i)[0]? = some m := ⟨_, List.getElem?_eq_getElem this⟩
    exact ⟨i, m, hd, hr, hm, by cases m <;> simp [stageFits, phaseAt]⟩
  · obtain ⟨i', m', hd', -, hm', hf⟩ := hw ph hp
    rw [hd] at hd'
    obtain rfl := Except.ok.inj hd'
    rw [hm] at hm'
    obtain rfl := Option.some.inj hm'
    have adv : ∀ (old : Byte) (u : State), u.csN = true → u.chip = s.chip → scanTrace u.trace = some none →
        u.cfg = s.cfg → u.req = s.req → (u.csN = true → u.chip.frame = []) →
        RunInv (advance (hostSteps s.cfg ph.old i) { ph with old := old } u) := by
      intro old u e1 e2 e3 e4 e5 e6
      obtain ⟨hl, h⟩ | ⟨-, h⟩ := advance_cases (hostSteps s.cfg ph.old i) { ph with old := old } u
      · rw [h]
        refine ⟨⟨e1, e6, fun _ => e1, e3⟩, fun ph' h' => ?_⟩
        obtain rfl := Option.some.inj h'
        simp only at hl
        rw [hostSteps_length _ _ old] at hl
        refine ⟨i, _, ?_, hr, by rw [State.setPhase_cfg, e4]; exact List.getElem?_eq_getElem hl, ?_⟩
        · simp only [State.setPhase_cfg, State.setPhase_req, e4, e5]; exact hd
        · generalize (hostSteps s.cfg old i)[ph.pc + 1] = m; cases m <;> simp [stageFits, phaseAt]
      · rw [h]
        exact ⟨⟨e1, e6, fun _ => e1, scan_resp e3⟩, fun ph h => by simp [respondOk, respond] at h⟩
    rw [hp] at h1 h4
    simp only [lineAt, traceAt] at h1 h4
    obtain ⟨us, rfl, hst, rfl⟩ | ⟨hst, hnd, hcs, rfl⟩ | ⟨tx, nx, hcs, rfl, hx⟩ | ⟨hst, hnd, rfl⟩ | ⟨hst, hnd, rfl⟩ :=
      microStep_cases h
    · rw [hst] at h1 h4
      refine adv ph.old (delayUs us s) h1 rfl ?_ rfl rfl h2
      simp only [stageTrace] at h4
      simp [delayUs, scanTrace, h4]
    · rw [hst] at h1 h4
      refine ⟨⟨rfl, fun h => by simp [csLow] at h, ?_, ?_⟩, fun ph' h' => ?_⟩
      · intro hne; exact absurd hcl hne
      · simp only [stageTrace] at h4
        show scanTrace (.cs false :: s.trace) = some (some 0)
        simp [scanTrace, h4]
      · obtain rfl := Option.some.inj h'
        exact ⟨i, m, hd, hr, hm, by cases m <;> simp [stageFits] ; exact absurd rfl (hnd _)⟩
    · obtain ⟨c, hc, he⟩ := exchange_settled s.cfg tx s.world
      have hcl' : (exchanged tx ph nx s).chip.closed = none := by
        show (exchange s.cfg tx s.world).2.2.chip.closed = none
        rw [he]; exact hc.closed.trans hcl
      have hline : (exchanged tx ph nx s).csN = false := hcs
      have hph : (exchanged tx ph nx s).phase = some { ph with
        stage := nx (exchange s.cfg tx s.world).1, ok := (exchange s.cfg tx s.world).1
        rx := (exchange s.cfg tx s.world).2.1 } := rfl
      have htr : (exchanged tx ph nx s).trace =
        .x tx (exchange s.cfg tx s.world).2.1 (exchange s.cfg tx s.world).1 :: s.trace := rfl
      refine ⟨⟨?_, ?_, ?_, ?_⟩, ?_⟩
      · rw [hline, hph]
        obtain ⟨-, -, rfl⟩ | ⟨n, -, -, -, rfl⟩ := hx
        · simp only [lineAt, afterSend]; split <;> rfl
        · rfl
      · rw [hline]; simp
      · intro hne; exact absurd hcl' hne
      · rw [hph, htr]
        obtain ⟨hst, -, rfl⟩ | ⟨n, hst, -, -, rfl⟩ := hx
        · rw [hst] at h4; simp only [stageTrace] at h4
          simp only [traceAt, afterSend, scanTrace, h4]
          split <;> simp [stageTrace]
        · rw [hst] at h4; simp only [stageTrace] at h4
          simp [traceAt, scanTrace, h4, stageTrace]
      · intro ph' h'
        rw [hph] at h'
        obtain rfl := Option.some.inj h'
        refine ⟨i, m, hd, hr, hm, ?_⟩
        obtain ⟨-, hs, rfl⟩ | ⟨n, -, hs, -, rfl⟩ := hx <;> cases m <;>
          simp [stageFits, afterSend, sentBytes, receiveCount] at *
    · rw [hst] at h1 h4
      have hcs : s.csN = false := h1
      have e : csHigh s =
          emit (.cs true) ((s.setCs true).setChip { s.chip with frame := [], closed := some s.chip.frame }) := by
        simp [csHigh, closeBracket, hcs]
      rw [e]
      refine ⟨⟨rfl, fun _ => rfl, fun _ => rfl, ?_⟩, fun ph' h' => ?_⟩
      · simp only [stageTrace] at h4
        show scanTrace (.cs true :: s.trace) = some none
        rw [scanTrace, if_pos h4]
      · obtain rfl := Option.some.inj h'
        exact ⟨i, m, hd, hr, hm, by cases m <;> simp [stageFits] ; exact absurd rfl (hnd _)⟩
    · rw [hst] at h1 h4
      simp only [stageTrace, stageLine] at h1 h4
      obtain ⟨old, r, h, -⟩ | ⟨c, v, h⟩ | h := judge_cases (hostSteps s.cfg ph.old i) ph m s hnd
      · rw [h]; exact adv old (s.setResp r) h1 rfl h4 rfl rfl h2
      · rw [h]; exact ⟨⟨h1, h2, h3, scan_resp h4⟩, fun ph h => by simp [raiseCause, respond] at h⟩
      · rw [h]
        refine ⟨⟨h1, h2, h3, h4⟩, fun ph' h' => ?_⟩
        obtain rfl := Option.some.inj h'
        exact ⟨i, m, hd, hr, hm, by cases m <;> simp [stageFits, phaseAt]⟩

/-- A point of completion and the reset line keep the discipline. -/
theorem stepBase_inv {s : State} (hb : RunInv s) (hc : s.chip.closed = none) :
    RunInv (stepBase s) ∧ (stepBase s).chip.closed = none := by
  obtain ⟨⟨h1, h2, h3, h4⟩, h5⟩ := hb
  have ht := tick_settled s.world
  refine ⟨⟨⟨h1, fun h => ?_, fun h => ?_, h4⟩, h5⟩, ?_⟩
  · exact ht.frame_eq.trans (h2 h)
  · exact absurd (ht.closed.trans hc) h
  · exact ht.closed.trans hc

end Sys2Proof.Machine
end

