-- ==== Sys2Proof/Laws/Memory.lean ====
section
/-!
SUPPORT. The laws of the flash array: a read after a write, after an erase, after a page-program, and that every
operation keeps the canonical form.
-/

namespace Sys2Proof.Machine

@[simp] theorem Memory.read_nil (a : Nat) : Memory.read [] a = Memory.unlisted := rfl

theorem Memory.read_cons (x : Host.Cell) (t : Memory) (a : Nat) :
    Memory.read (x :: t) a = if x.1 = a then x.2 else Memory.read t a := rfl

theorem Memory.wf_nil : Memory.wf [] := by simp [Memory.wf]

theorem Memory.wf_cons {x : Host.Cell} {t : Memory} :
    Memory.wf (x :: t) ↔ (∀ y ∈ t, x.1 < y.1) ∧ x.2 ≠ Memory.unlisted ∧ x.1 < Config.arraySize ∧ Memory.wf t := by
  simp only [Memory.wf, List.pairwise_cons, List.mem_cons, forall_eq_or_imp]
  tauto

/-- An address no entry of the list has reads as unlisted. -/
theorem Memory.read_of_forall_ne (m : Memory) (a : Nat) (h : ∀ y ∈ m, y.1 ≠ a) : m.read a = Memory.unlisted := by
  induction m with
  | nil => rfl
  | cons x t ih =>
    rw [Memory.read_cons, if_neg (h x (by simp))]
    exact ih fun y hy => h y (by simp [hy])

/-- Every address in a written array was there or is the one written. -/
theorem Memory.mem_write {m : Memory} {a : Nat} {b : Byte} {y : Host.Cell} (h : y ∈ m.write a b) :
    y ∈ m ∨ (y = (a, b) ∧ b ≠ Memory.unlisted) := by
  induction m with
  | nil =>
    by_cases hb : b = Memory.unlisted <;> simp_all [Memory.write]
  | cons x t ih =>
    simp only [Memory.write] at h
    split at h
    · split at h
      · exact .inl h
      · simp only [List.mem_cons] at h ⊢; tauto
    · split at h
      · split at h
        · exact .inl (by simp [h])
        · simp only [List.mem_cons] at h ⊢; tauto
      · simp only [List.mem_cons] at h ⊢; tauto

/-- A write keeps the canonical form. -/
theorem Memory.write_wf {m : Memory} {a : Nat} {b : Byte} (h : m.wf) (ha : a < Config.arraySize) : (m.write a b).wf := by
  induction m with
  | nil =>
    by_cases hb : b = Memory.unlisted
    · simpa [Memory.write, hb] using h
    · simp only [Memory.write, if_neg hb]
      exact Memory.wf_cons.2 ⟨by simp, hb, ha, h⟩
  | cons x t ih =>
    obtain ⟨h1, h2, h3, h4⟩ := Memory.wf_cons.1 h
    simp only [Memory.write]
    split
    · rename_i hlt
      split
      · exact h
      · rename_i hb
        refine Memory.wf_cons.2 ⟨?_, hb, ha, h⟩
        intro y hy
        rcases List.mem_cons.1 hy with rfl | hy
        · exact hlt
        · exact Nat.lt_trans hlt (h1 y hy)
    · rename_i hge
      split
      · rename_i heq
        split
        · exact h4
        · rename_i hb
          exact Memory.wf_cons.2 ⟨fun y hy => heq ▸ h1 y hy, hb, ha, h4⟩
      · rename_i hne
        refine Memory.wf_cons.2 ⟨?_, h2, h3, ih h4⟩
        intro y hy
        rcases Memory.mem_write hy with hy | ⟨rfl, -⟩
        · exact h1 y hy
        · simp only; omega

/-- A read after a write to the same address gives the byte written. -/
theorem Memory.read_write_self {m : Memory} {a : Nat} {b : Byte} (h : m.wf) : (m.write a b).read a = b := by
  induction m with
  | nil => by_cases hb : b = Memory.unlisted <;> simp [Memory.write, hb, Memory.read]
  | cons x t ih =>
    obtain ⟨h1, h2, h3, h4⟩ := Memory.wf_cons.1 h
    have habove : ∀ c : Nat, c ≤ x.1 → ∀ y ∈ t, y.1 ≠ c := fun c hc y hy => by have := h1 y hy; omega
    simp only [Memory.write]
    split
    · rename_i hlt
      split
      · rename_i hb
        rw [Memory.read_cons, if_neg (by omega), Memory.read_of_forall_ne t a (habove a (by omega)), hb]
      · simp [Memory.read]
    · split
      · rename_i heq
        split
        · rename_i hb
          rw [Memory.read_of_forall_ne t a (habove a (by omega)), hb]
        · simp [Memory.read]
      · rw [Memory.read_cons, if_neg (by omega), ih h4]

/-- A write leaves every other address alone. -/
theorem Memory.read_write_ne {m : Memory} {a c : Nat} {b : Byte} (hc : c ≠ a) : (m.write a b).read c = m.read c := by
  induction m with
  | nil => by_cases hb : b = Memory.unlisted <;> simp [Memory.write, hb, Memory.read, hc.symm]
  | cons x t ih =>
    simp only [Memory.write]
    split
    · split
      · rfl
      · rw [Memory.read_cons (a, b), if_neg (by simpa using hc.symm)]
    · split
      · rename_i heq
        split
        · rw [Memory.read_cons, if_neg (by omega)]
        · rw [Memory.read_cons, Memory.read_cons x, if_neg (by simpa using hc.symm), if_neg (by omega)]
      · rw [Memory.read_cons, Memory.read_cons x, ih]

/-- An erase keeps the canonical form. -/
theorem Memory.erase_wf {m : Memory} {base size : Nat} (h : m.wf) : (m.erase base size).wf :=
  ⟨h.1.filter _, fun x hx => h.2 x (List.mem_filter.1 hx).1⟩

/-- An erased address reads as the erased value. -/
theorem Memory.read_erase_inside (m : Memory) {base size a : Nat} (h1 : base ≤ a) (h2 : a < base + size) :
    (m.erase base size).read a = Config.erased := by
  refine Memory.read_of_forall_ne _ a fun y hy hya => ?_
  have := (List.mem_filter.1 hy).2
  simp_all

/-- An erase leaves every address outside its region alone. -/
theorem Memory.read_erase_outside (m : Memory) {base size a : Nat} (h : a < base ∨ base + size ≤ a) :
    (m.erase base size).read a = m.read a := by
  induction m with
  | nil => rfl
  | cons x t ih =>
    simp only [Memory.erase, List.filter_cons] at ih ⊢
    split
    · rw [Memory.read_cons, Memory.read_cons, ih]
    · rename_i hx
      rw [Memory.read_cons, if_neg, ih]
      simp only [Bool.not_and, Bool.or_eq_true, Bool.not_eq_true', decide_eq_false_iff_not, not_or, not_not] at hx
      omega

/-- A page-program's addresses stay in the address space. -/
theorem pageAddr_lt {a i : Nat} (h : a < Config.arraySize) : pageAddr a i < Config.arraySize := by
  simp only [pageAddr, Config.pageSize, Config.arraySize] at *
  omega

/-- Within 256 bytes the addresses of a page-program are distinct. -/
theorem pageAddr_inj {a i j : Nat} (hi : i < 256) (hj : j < 256) (h : pageAddr a i = pageAddr a j) : i = j := by
  simp only [pageAddr, Config.pageSize] at h
  omega

/-- A page-program keeps the canonical form. -/
theorem programFrom_wf {a : Nat} (ha : a < Config.arraySize) (d : List Byte) :
    ∀ (i : Nat) {m : Memory}, m.wf → (programFrom a i d m).wf := by
  induction d with
  | nil => intro i m h; exact h
  | cons b t ih => intro i m h; exact ih (i + 1) (Memory.write_wf h (pageAddr_lt ha))

/-- A page-program leaves every address it does not reach alone. -/
theorem read_programFrom_outside {a x : Nat} (d : List Byte) :
    ∀ (i : Nat) (m : Memory), (∀ k, k < d.length → x ≠ pageAddr a (i + k)) → (programFrom a i d m).read x = m.read x := by
  induction d with
  | nil => intro i m _; rfl
  | cons b t ih =>
    intro i m h
    have h0 : x ≠ pageAddr a i := by simpa using h 0 (by simp)
    rw [programFrom, ih (i + 1) _ fun k hk => by
      have := h (k + 1) (by simpa using hk)
      rwa [show i + 1 + k = i + (k + 1) by omega], Memory.read_write_ne h0]

/-- Data byte `k` is ANDed into the byte at its address. -/
theorem read_programFrom_inside {a : Nat} (ha : a < Config.arraySize) (d : List Byte) :
    ∀ (i k : Nat) (m : Memory) (b : Byte), m.wf → i + d.length ≤ 256 → d[k]? = some b →
      (programFrom a i d m).read (pageAddr a (i + k)) = m.read (pageAddr a (i + k)) &&& b := by
  induction d with
  | nil => intro i k m b _ _ hk; simp at hk
  | cons c t ih =>
    intro i k m b hm hlen hk
    simp only [List.length_cons] at hlen
    have hne : ∀ j, j < t.length → pageAddr a i ≠ pageAddr a (i + 1 + j) := fun j hj h => by
      have := pageAddr_inj (by omega) (by omega) h; omega
    rw [programFrom]
    cases k with
    | zero =>
      obtain rfl : c = b := by simpa using hk
      simp only [Nat.add_zero]
      rw [read_programFrom_outside t (i + 1) _ hne, Memory.read_write_self hm]
    | succ k =>
      have hk' : t[k]? = some b := by simpa using hk
      have hlt : k < t.length := by
        by_contra hge
        rw [List.getElem?_eq_none (by omega)] at hk'
        exact absurd hk' (by simp)
      rw [show i + (k + 1) = i + 1 + k by omega,
        ih (i + 1) k _ b (Memory.write_wf hm (pageAddr_lt ha)) (by omega) hk', Memory.read_write_ne (hne k hlt).symm]

end Sys2Proof.Machine
end

