-- ==== Sys2Proof/Laws/Wire.lean ====
section
/-!
SUPPORT. What each wire command can do to the chip, said once, and the address bounds of their headers.
-/

namespace Sys2Proof.Machine

theorem finishCommand_eq (c : Chip) : finishCommand c = { c with rstEn := false, closed := none } := rfl

/-- A header's address is below 2^24. -/
theorem headerAddr_lt (a2 a1 a0 : Byte) : headerAddr a2 a1 a0 < Config.arraySize := by
  have := a2.isLt; have := a1.isLt; have := a0.isLt
  simp only [headerAddr, Config.arraySize]; omega

theorem blockBase_header (a2 a1 a0 : Byte) : blockBase (headerAddr a2 a1 a0) = a2.toNat * 65536 := by
  have := a2.isLt; have := a1.isLt; have := a0.isLt
  simp only [blockBase, headerAddr, Config.blockSize]; omega

theorem sectorBase_header (a2 a1 a0 : Byte) :
    sectorBase (headerAddr a2 a1 a0) = a2.toNat * 65536 + a1.toNat / 16 * 4096 := by
  have := a2.isLt; have := a1.isLt; have := a0.isLt
  simp only [sectorBase, headerAddr, Config.sectorSize]; omega

theorem statusWrite_cases (p : Config.Params) (r : SrNum) (d : Byte) (c : Chip) :
    statusWrite p r d c = c ∨
      (chipBusy c = false ∧
        statusWrite p r d c = setBusy true (setSr c r (statusWriteValue (srValue c r) (roMask p r) d))) := by
  unfold statusWrite
  split
  · rename_i h
    simp only [Bool.and_eq_true, Bool.not_eq_true'] at h
    exact .inr ⟨h.1, rfl⟩
  · exact .inl rfl

theorem pageProgram_cases (a : Nat) (d : List Byte) (c : Chip) :
    pageProgram a d c = c ∨ (chipBusy c = false ∧ (pageProgram a d c = setWel false c ∨
      pageProgram a d c = setBusy true { c with array := programFrom a 0 d c.array })) := by
  unfold pageProgram
  split
  · rename_i h
    simp only [Bool.and_eq_true, Bool.not_eq_true'] at h
    refine .inr ⟨h.1.1, ?_⟩
    split
    · exact .inl rfl
    · exact .inr rfl
  · exact .inl rfl

theorem eraseRegion_cases (base size : Nat) (c : Chip) :
    eraseRegion base size c = c ∨ (chipBusy c = false ∧ (eraseRegion base size c = setWel false c ∨
      eraseRegion base size c = setBusy true { c with array := c.array.erase base size })) := by
  unfold eraseRegion
  split
  · rename_i h
    simp only [Bool.and_eq_true, Bool.not_eq_true'] at h
    refine .inr ⟨h.1, ?_⟩
    split
    · exact .inl rfl
    · exact .inr rfl
  · exact .inl rfl

theorem lockCommand_cases (p : Config.Params) (f : Chip → Chip) (c : Chip) :
    lockCommand p f c = c ∨ (chipBusy c = false ∧ (lockCommand p f c = setWel false (f c) ∨ lockCommand p f c = f c)) := by
  unfold lockCommand
  split
  · rename_i h
    simp only [Bool.and_eq_true, Bool.not_eq_true'] at h
    refine .inr ⟨h.1.1, ?_⟩
    split
    · exact .inl rfl
    · exact .inr rfl
  · exact .inl rfl

/-- What a wire command can do to the chip: nothing (but for the end of the command); set WEL; set `vsr_en`; the effect of
a status write, a page-program, an erase or a lock command; enable-reset; or an accepted reset-device. -/
theorem exec_wire_cases {i : Instr} {s t : State} (hi : isHost i = false) (h : exec i s = .next t) :
    (∃ f : Chip → Chip, t = s.setChip (finishCommand (f s.chip)) ∧
      (f = id ∨ (i = .wireWren ∧ f = fun c => if chipBusy c then c else setWel true c) ∨
        (i = .wireVwren ∧ f = fun c => if chipBusy c then c else setVsrEn true c) ∨
        (∃ d, i = .wireWrsr1 d ∧ f = statusWrite s.cfg .one d) ∨
        (∃ d, i = .wireWrsr2 d ∧ f = statusWrite s.cfg .two d) ∨
        (∃ d, i = .wireWrsr3 d ∧ f = statusWrite s.cfg .three d) ∨
        (∃ a2 a1 a0 d, i = .wirePp a2 a1 a0 d ∧ f = pageProgram (headerAddr a2 a1 a0) d) ∨
        (∃ base size, ((∃ a2 a1 a0, i = .wireBe a2 a1 a0) ∨ (∃ a2 a1 a0, i = .wireSe a2 a1 a0) ∨ i = .wireCe) ∧
          f = eraseRegion base size) ∨
        (∃ b v, ((∃ a2 a1 a0, i = .wireBlockLock a2 a1 a0) ∨ ∃ a2 a1 a0, i = .wireBlockUnlock a2 a1 a0) ∧
          f = lockCommand s.cfg (setLockBit b v)) ∨
        (i = .wireGunlock ∧ f = lockCommand s.cfg clearLocks))) ∨
      (i = .wireRsten ∧ t = s.setChip
        { s.chip with closed := none, rstEn := if chipBusy s.chip then s.chip.rstEn else true }) ∨
      (i = .wireRst ∧ chipBusy s.chip = false ∧ s.chip.rstEn = true ∧
        t = (s.setChip (finishCommand (resetDevice (nextImage s.env) s.chip))).setEnv (afterImage s.env)) := by
  have key : ∀ f : Chip → Chip, chipCommand f s = .next t → t = s.setChip (finishCommand (f s.chip)) :=
    fun f hf => (Host.Outcome.next.inj hf).symm
  cases i <;> first
    | (simp [isHost] at hi; done)
    | skip
  case wireWren => exact .inl ⟨_, key (fun c => if chipBusy c then c else setWel true c) h, .inr (.inl ⟨rfl, rfl⟩)⟩
  case wireVwren =>
    exact .inl ⟨_, key (fun c => if chipBusy c then c else setVsrEn true c) h, .inr (.inr (.inl ⟨rfl, rfl⟩))⟩
  case wireRsten => exact .inr (.inl ⟨rfl, (Host.Outcome.next.inj h).symm⟩)
  case wireRst =>
    have h : execWireRst s = .next t := h
    unfold execWireRst at h
    split at h
    · rename_i hc
      simp only [Bool.and_eq_true, Bool.not_eq_true'] at hc
      exact .inr (.inr ⟨rfl, hc.1, hc.2, (Host.Outcome.next.inj h).symm⟩)
    · exact .inl ⟨_, key _ h, .inl rfl⟩
  case wireRead => exact .inl ⟨_, key _ h, .inl rfl⟩
  case wireRdlock => exact .inl ⟨_, key _ h, .inl rfl⟩
  case wireRdsr1 => exact .inl ⟨_, key _ h, .inl rfl⟩
  case wireRdsr2 => exact .inl ⟨_, key _ h, .inl rfl⟩
  case wireRdsr3 => exact .inl ⟨_, key _ h, .inl rfl⟩
  case wireWrsr1 d => exact .inl ⟨_, key _ h, .inr (.inr (.inr (.inl ⟨d, rfl, rfl⟩)))⟩
  case wireWrsr2 d => exact .inl ⟨_, key _ h, .inr (.inr (.inr (.inr (.inl ⟨d, rfl, rfl⟩))))⟩
  case wireWrsr3 d => exact .inl ⟨_, key _ h, .inr (.inr (.inr (.inr (.inr (.inl ⟨d, rfl, rfl⟩)))))⟩
  case wirePp a2 a1 a0 d =>
    exact .inl ⟨_, key _ h, .inr (.inr (.inr (.inr (.inr (.inr (.inl ⟨a2, a1, a0, d, rfl, rfl⟩))))))⟩
  case wireBe a2 a1 a0 =>
    exact .inl ⟨_, key _ h, .inr (.inr (.inr (.inr (.inr (.inr (.inr (.inl ⟨_, _, .inl ⟨a2, a1, a0, rfl⟩, rfl⟩)))))))⟩
  case wireSe a2 a1 a0 =>
    exact .inl ⟨_, key _ h,
      .inr (.inr (.inr (.inr (.inr (.inr (.inr (.inl ⟨_, _, .inr (.inl ⟨a2, a1, a0, rfl⟩), rfl⟩)))))))⟩
  case wireCe =>
    exact .inl ⟨_, key _ h, .inr (.inr (.inr (.inr (.inr (.inr (.inr (.inl ⟨_, _, .inr (.inr rfl), rfl⟩)))))))⟩
  case wireBlockLock a2 a1 a0 =>
    exact .inl ⟨_, key _ h,
      .inr (.inr (.inr (.inr (.inr (.inr (.inr (.inr (.inl ⟨_, _, .inl ⟨a2, a1, a0, rfl⟩, rfl⟩))))))))⟩
  case wireBlockUnlock a2 a1 a0 =>
    exact .inl ⟨_, key _ h,
      .inr (.inr (.inr (.inr (.inr (.inr (.inr (.inr (.inl ⟨_, _, .inr ⟨a2, a1, a0, rfl⟩, rfl⟩))))))))⟩
  case wireGunlock =>
    exact .inl ⟨_, key _ h, .inr (.inr (.inr (.inr (.inr (.inr (.inr (.inr (.inr ⟨rfl, rfl⟩))))))))⟩

/-- A wire command keeps the array in canonical form. -/
theorem exec_wire_array_wf {i : Instr} {s t : State} (hi : isHost i = false) (h : exec i s = .next t)
    (hm : s.chip.array.wf) : t.chip.array.wf := by
  obtain ⟨f, rfl, hf⟩ | ⟨-, rfl⟩ | ⟨-, -, -, rfl⟩ := exec_wire_cases hi h
  · show Memory.wf (f s.chip).array
    rcases hf with rfl | ⟨-, rfl⟩ | ⟨-, rfl⟩ | ⟨d, -, rfl⟩ | ⟨d, -, rfl⟩ | ⟨d, -, rfl⟩ | ⟨a2, a1, a0, d, -, rfl⟩ |
      ⟨b, n, -, rfl⟩ | ⟨b, v, -, rfl⟩ | ⟨-, rfl⟩
    · exact hm
    · dsimp only; split <;> exact hm
    · dsimp only; split <;> exact hm
    · obtain h | ⟨-, h⟩ := statusWrite_cases s.cfg .one d s.chip <;> rw [h] <;> exact hm
    · obtain h | ⟨-, h⟩ := statusWrite_cases s.cfg .two d s.chip <;> rw [h] <;> exact hm
    · obtain h | ⟨-, h⟩ := statusWrite_cases s.cfg .three d s.chip <;> rw [h] <;> exact hm
    · obtain h | ⟨-, h | h⟩ := pageProgram_cases (headerAddr a2 a1 a0) d s.chip <;> rw [h]
      · exact hm
      · exact hm
      · exact programFrom_wf (headerAddr_lt a2 a1 a0) d 0 hm
    · obtain h | ⟨-, h | h⟩ := eraseRegion_cases b n s.chip <;> rw [h]
      · exact hm
      · exact hm
      · exact Memory.erase_wf hm
    · obtain h | ⟨-, h | h⟩ := lockCommand_cases s.cfg (setLockBit b v) s.chip <;> rw [h] <;> exact hm
    · obtain h | ⟨-, h | h⟩ := lockCommand_cases s.cfg clearLocks s.chip <;> rw [h] <;> exact hm
  · exact hm
  · exact hm

end Sys2Proof.Machine
end

