-- ==== Sys2Proof/Laws/Run.lean ====
section
/-!
SUPPORT. Runs against the conforming chip, bracket by bracket: what a bracket whose exchanges the link delivers does to the
chip, the wire and the position in the pseudocode, so that a whole operation is a chain of these lemmas.
-/

namespace Sys2Proof.Machine

/-- `t` is reached from `s` by steps that answer next states. -/
def Reaches (s t : State) : Prop := ∃ n, runSteps n s = .next t

theorem Reaches.refl (s : State) : Reaches s s := ⟨0, rfl⟩

theorem coreRun_succ_next (M : Host.Core) (n : Nat) {s u : M.State} (h : M.step s = .next u) :
    M.run (n + 1) s = M.run n u := by
  simp [Host.Core.run, h]

theorem coreRun_succ (M : Host.Core) {n : Nat} {s t : M.State} (h : M.run (n + 1) s = .next t) :
    ∃ u, M.step s = .next u ∧ M.run n u = .next t := by
  simp only [Host.Core.run] at h
  split at h
  · exact ⟨_, ‹_›, h⟩
  · simp at h
  · simp at h

theorem runSteps_succ_next (n : Nat) {s u : State} (h : step s = .next u) : runSteps (n + 1) s = runSteps n u :=
  coreRun_succ_next Sys2Proof.core n h

theorem runSteps_succ {n : Nat} {s t : State} (h : runSteps (n + 1) s = .next t) :
    ∃ u, step s = .next u ∧ runSteps n u = .next t :=
  coreRun_succ Sys2Proof.core h

theorem Reaches.step {s u t : State} (h : Machine.step s = .next u) (h' : Reaches u t) : Reaches s t := by
  obtain ⟨n, hn⟩ := h'
  exact ⟨n + 1, (runSteps_succ_next n h).trans hn⟩

theorem Reaches.trans {s u t : State} (h : Reaches s u) (h' : Reaches u t) : Reaches s t := by
  obtain ⟨n, hn⟩ := h
  induction n generalizing s with
  | zero =>
    obtain rfl : s = u := Host.Outcome.next.inj hn
    exact h'
  | succ n ih =>
    obtain ⟨v, hv, hn⟩ := runSteps_succ hn
    exact .step hv (ih hn)

/-- With nothing waiting, nothing comes to wait. -/
theorem Reaches.inbox {s t : State} (h : Reaches s t) (hs : s.inbox = []) : t.inbox = [] := by
  obtain ⟨n, hn⟩ := h
  induction n generalizing s with
  | zero =>
    obtain rfl : s = t := Host.Outcome.next.inj hn
    exact hs
  | succ n ih =>
    obtain ⟨u, hu, hn⟩ := runSteps_succ hn
    refine ih ?_ hn
    obtain h | ⟨r, h⟩ := step_inbox hu
    · rw [h, hs]
    · rw [hs] at h; simp at h

/-- A run whose request has been taken, and whose last step is a `Resp`. -/
theorem Reaches.runsTo {s u t : State} {P : State → Prop} (h : Reaches s u) (hu : u.inbox = []) (h' : Reaches u t)
    (hp : t.phase = none) (ht : t.trace.head? = some (.resp t.resp)) (hP : P t) : RunsTo s P := by
  obtain ⟨n, hn⟩ := h.trans h'
  exact ⟨n, t, hn, hp, h'.inbox hu, ht, hP⟩

/-- The chip with no frame, at the end of a command. -/
def quiet (c : Chip) : Chip := { c with frame := [], closed := none, rstEn := false }

@[simp] theorem quiet_sr1 (c : Chip) : (quiet c).sr1 = c.sr1 := rfl
@[simp] theorem quiet_sr2 (c : Chip) : (quiet c).sr2 = c.sr2 := rfl
@[simp] theorem quiet_sr3 (c : Chip) : (quiet c).sr3 = c.sr3 := rfl
@[simp] theorem quiet_lock (c : Chip) : (quiet c).lock = c.lock := rfl
@[simp] theorem quiet_array (c : Chip) : (quiet c).array = c.array := rfl
@[simp] theorem quiet_vsrEn (c : Chip) : (quiet c).vsrEn = c.vsrEn := rfl
@[simp] theorem quiet_closed (c : Chip) : (quiet c).closed = none := rfl
@[simp] theorem chipBusy_quiet (c : Chip) : chipBusy (quiet c) = chipBusy c := rfl
@[simp] theorem chipWel_quiet (c : Chip) : chipWel (quiet c) = chipWel c := rfl
@[simp] theorem chipWps_quiet (c : Chip) : chipWps (quiet c) = chipWps c := rfl
@[simp] theorem srValue_quiet (c : Chip) (r : SrNum) : srValue (quiet c) r = srValue c r := by cases r <;> rfl

/-- What a run knows of its state: the parameters, the latch, the chip, the coming choices, the frames on the wire so far,
the position and the line. -/
structure Ctx (p : Config.Params) (r : Request) (c : Chip) (l : List Config.LinkOutcome) (k : List Bool)
    (fs : List (List Byte)) (ph : Phase) (line : Bool) (s : State) : Prop where
  cfg : s.cfg = p
  req : s.req = r
  rst : s.rstLine = []
  chip : s.chip = c
  answers : s.env.answers = .responder
  link : s.env.link = l
  complete : s.env.complete = k
  sent : s.trace.filterMap sentOf = fs
  phase : s.phase = some ph
  line : s.csN = line

variable {p : Config.Params} {r : Request} {c : Chip} {l : List Config.LinkOutcome} {k : List Bool}
  {fs : List (List Byte)} {ph : Phase} {line : Bool} {s : State} {i : Instr} {m : Micro}

/-- With BUSY = 0 a step of the block is the pseudocode's step in the same state. -/
theorem Ctx.step_eq (h : Ctx p r c l k fs ph line s) (hc : c.closed = none) (hb : chipBusy c = false)
    (hd : decode p (.request r) = .ok i) (hr : rejectCause i = none) (hm : (hostSteps p ph.old i)[ph.pc]? = some m) :
    step s = microStep (hostSteps p ph.old i) ph m s := by
  have hs : stepBase s = s := by
    rw [stepBase_idle (by rw [h.chip]; exact hb), h.rst]
    have := h.rst
    cases s
    simp only at this
    subst this
    rfl
  rw [step_running (i := i) (by rw [h.chip]; exact hc) (by simp [resetAsserted, h.rst]) h.phase
    (by rw [h.cfg, h.req]; exact hd), hs]
  have := exec_running (s := s) (decodeRequest_isHost hd) hr h.phase (by rw [h.cfg]; exact hm)
  rw [h.cfg] at this
  exact this

/-- A bracketed step of the pseudocode. -/
theorem microStep_bracket {prog : List Micro} {tx : List Byte} (htx : sentBytes m = some tx) :
    microStep prog ph m s = bracketStep prog ph m tx s := by
  cases m <;> simp_all [sentBytes, microStep]

theorem Ctx.low (h : Ctx p r c l k fs ph true s) (hc : c.closed = none) (hb : chipBusy c = false)
    (hd : decode p (.request r) = .ok i) (hr : rejectCause i = none) (hm : (hostSteps p ph.old i)[ph.pc]? = some m)
    {tx : List Byte} (htx : sentBytes m = some tx) (hst : ph.stage = .low) :
    ∃ t, step s = .next t ∧ Ctx p r { c with frame := [] } l k fs { ph with stage := .send } false t := by
  rw [h.step_eq hc hb hd hr hm, microStep_bracket htx]
  simp only [bracketStep, hst, h.line, if_true]
  exact ⟨_, rfl, h.cfg, h.req, h.rst, by rw [← h.chip]; rfl, h.answers, h.link, h.complete, h.sent, rfl, rfl⟩

/-- An exchange the link delivers, with BUSY = 0. -/
theorem exchanged_ctx (h : Ctx p r c (.delivered :: l) k fs ph false s) (hb : chipBusy c = false) (tx : List Byte)
    (next : Bool → Stage) : ∃ e : Env, e.answers = .responder ∧
      Ctx p r { c with frame := c.frame ++ tx } l k (tx :: fs)
        { ph with stage := next true, ok := true, rx := (clockBytes p tx { chip := c, env := e }).1 } false
        (exchanged tx ph next s) := by
  have he : exchange s.cfg tx s.world =
      (true, clockBytes p tx { chip := c, env := { s.env with link := l } }) := by
    rw [exchange_delivered s.cfg tx s.world h.link, h.cfg, ← h.chip]
    rfl
  obtain ⟨h1, h2, h3, h4⟩ := clockBytes_idle p tx { chip := c, env := { s.env with link := l } } hb
  refine ⟨{ s.env with link := l }, h.answers, ?_⟩
  unfold exchanged
  rw [he]
  exact ⟨h.cfg, h.req, h.rst, h1, h2.trans h.answers, h3, h4.trans h.complete,
    congrArg (List.cons tx) h.sent, rfl, h.line⟩

theorem Ctx.send (h : Ctx p r c (.delivered :: l) k fs ph false s) (hc : c.closed = none) (hb : chipBusy c = false)
    (hd : decode p (.request r) = .ok i) (hr : rejectCause i = none) (hm : (hostSteps p ph.old i)[ph.pc]? = some m)
    {tx : List Byte} (htx : sentBytes m = some tx) (hst : ph.stage = .send) :
    ∃ t rx, step s = .next t ∧ Ctx p r { c with frame := c.frame ++ tx } l k (tx :: fs)
      { ph with stage := afterSend m true, ok := true, rx := rx } false t := by
  rw [h.step_eq hc hb hd hr hm, microStep_bracket htx]
  simp only [bracketStep, hst, exchangeStep, h.line]
  obtain ⟨e, -, hx⟩ := exchanged_ctx h hb tx (afterSend m)
  exact ⟨_, _, rfl, hx⟩

theorem Ctx.recv (h : Ctx p r c (.delivered :: l) k fs ph false s) (hc : c.closed = none) (hb : chipBusy c = false)
    (hd : decode p (.request r) = .ok i) (hr : rejectCause i = none) (hm : (hostSteps p ph.old i)[ph.pc]? = some m)
    {tx : List Byte} (htx : sentBytes m = some tx) {n : Nat} (hn : receiveCount m = some n) (hst : ph.stage = .recv)
    {rx : List Byte} (hrx : ∀ e : Env, e.answers = .responder → (clockBytes p (fillerBytes n) ⟨c, e⟩).1 = rx) :
    ∃ t, step s = .next t ∧ Ctx p r { c with frame := c.frame ++ fillerBytes n } l k (fillerBytes n :: fs)
      { ph with stage := .high, ok := true, rx := rx } false t := by
  rw [h.step_eq hc hb hd hr hm, microStep_bracket htx]
  simp only [bracketStep, hst, hn, exchangeStep, h.line]
  obtain ⟨e, he, hx⟩ := exchanged_ctx h hb (fillerBytes n) fun _ => .high
  rw [hrx e he] at hx
  exact ⟨_, rfl, hx⟩

theorem Ctx.high (h : Ctx p r c l k fs ph false s) (hc : c.closed = none) (hb : chipBusy c = false)
    (hd : decode p (.request r) = .ok i) (hr : rejectCause i = none) (hm : (hostSteps p ph.old i)[ph.pc]? = some m)
    {tx : List Byte} (htx : sentBytes m = some tx) (hst : ph.stage = .high) :
    ∃ t, step s = .next t ∧
      Ctx p r { c with frame := [], closed := some c.frame } l k fs { ph with stage := .judge } true t := by
  rw [h.step_eq hc hb hd hr hm, microStep_bracket htx]
  simp only [bracketStep, hst]
  refine ⟨_, rfl, ?_⟩
  have hx : csHigh s =
      emit (.cs true) ((s.setCs true).setChip { s.chip with frame := [], closed := some s.chip.frame }) := by
    simp [csHigh, closeBracket, h.line]
  rw [hx]
  exact ⟨h.cfg, h.req, h.rst, by rw [← h.chip]; rfl, h.answers, h.link, h.complete, h.sent, rfl, rfl⟩

/-- The frame `f` is a command that takes the chip `c` (with that frame closed) to a chip with `R`, and uses no choice of
the link or of a completion. -/
def Runs (p : Config.Params) (f : List Byte) (c : Chip) (R : Chip → Prop) : Prop :=
  ∃ j, decode p (.frame f) = .ok j ∧ ∀ u : State, u.cfg = p → u.chip = { c with frame := [], closed := some f } →
    ∃ d e, exec j u = .next ((u.setChip d).setEnv e) ∧ R d ∧ e.answers = u.env.answers ∧ e.link = u.env.link ∧
      e.complete = u.env.complete

theorem Ctx.frame {f : List Byte} (h : Ctx p r { c with frame := [], closed := some f } l k fs ph line s)
    {R : Chip → Prop} (hf : Runs p f c R) : ∃ t d, step s = .next t ∧ R d ∧ Ctx p r d l k fs ph line t := by
  obtain ⟨j, hj, hf⟩ := hf
  obtain ⟨d, e, he, hR, h1, h2, h3⟩ := hf s h.cfg h.chip
  refine ⟨_, d, (step_frame (by rw [h.chip]) (by rw [h.cfg]; exact hj)).trans he, hR, ?_⟩
  exact ⟨h.cfg, h.req, h.rst, rfl, h1.trans h.answers, h2.trans h.link, h3.trans h.complete, h.sent, h.phase, h.line⟩

/-- A bracket without a receive phase, up to its judgement. -/
theorem Ctx.writeBracket {pc : Nat} {old : Byte} (h : Ctx p r c (.delivered :: l) k fs (phaseAt pc old) true s)
    (hc : c.closed = none) (hb : chipBusy c = false) (hd : decode p (.request r) = .ok i) (hr : rejectCause i = none)
    {tx : List Byte} (hm : (hostSteps p old i)[pc]? = some (.send tx)) {R : Chip → Prop} (hf : Runs p tx c R) :
    ∃ t d rx, Reaches s t ∧ R d ∧
      Ctx p r d l k (tx :: fs) { pc := pc, stage := .judge, ok := true, rx := rx, old := old } true t := by
  obtain ⟨s1, e1, h1⟩ := h.low hc hb hd hr hm rfl rfl
  obtain ⟨s2, rx, e2, h2⟩ := h1.send hc hb hd hr hm rfl rfl
  obtain ⟨s3, e3, h3⟩ := h2.high hc hb hd hr hm rfl rfl
  obtain ⟨s4, d, e4, hR, h4⟩ := Ctx.frame (c := c) h3 hf
  exact ⟨s4, d, rx, .step e1 (.step e2 (.step e3 (.step e4 (.refl _)))), hR, h4⟩

/-- A bracket with a receive phase, up to its judgement. -/
theorem Ctx.seqBracket {pc : Nat} {old : Byte}
    (h : Ctx p r c (.delivered :: .delivered :: l) k fs (phaseAt pc old) true s) (hc : c.closed = none)
    (hb : chipBusy c = false) (hd : decode p (.request r) = .ok i) (hr : rejectCause i = none)
    (hm : (hostSteps p old i)[pc]? = some m) {tx : List Byte} (htx : sentBytes m = some tx) {n : Nat}
    (hn : receiveCount m = some n) {R : Chip → Prop} (hf : Runs p (tx ++ fillerBytes n) c R) {rx : List Byte}
    (hrx : ∀ e : Env, e.answers = .responder → (clockBytes p (fillerBytes n) ⟨{ c with frame := tx }, e⟩).1 = rx) :
    ∃ t d, Reaches s t ∧ R d ∧ Ctx p r d l k (fillerBytes n :: tx :: fs)
      { pc := pc, stage := .judge, ok := true, rx := rx, old := old } true t := by
  obtain ⟨s1, e1, h1⟩ := h.low hc hb hd hr hm htx rfl
  obtain ⟨s2, rx', e2, h2⟩ := h1.send hc hb hd hr hm htx rfl
  have hst : afterSend m true = .recv := by simp [afterSend, hn]
  rw [hst] at h2
  obtain ⟨s3, e3, h3⟩ := h2.recv hc hb hd hr hm htx hn rfl hrx
  obtain ⟨s4, e4, h4⟩ := h3.high hc hb hd hr hm htx rfl
  obtain ⟨s5, d, e5, hR, h5⟩ := Ctx.frame (c := c) h4 hf
  exact ⟨s5, d, .step e1 (.step e2 (.step e3 (.step e4 (.step e5 (.refl _))))), hR, h5⟩

/-- A judgement with BUSY = 0. -/
theorem Ctx.judged (h : Ctx p r c l k fs ph true s) (hc : c.closed = none) (hb : chipBusy c = false)
    (hd : decode p (.request r) = .ok i) (hr : rejectCause i = none) (hm : (hostSteps p ph.old i)[ph.pc]? = some m)
    {tx : List Byte} (htx : sentBytes m = some tx) (hst : ph.stage = .judge) :
    step s = .next (judge (hostSteps p ph.old i) ph m s) := by
  rw [h.step_eq hc hb hd hr hm, microStep_bracket htx]
  simp only [bracketStep, hst]

/-- A judgement at which the chip's cycle completes. -/
theorem Ctx.judgedBusy (h : Ctx p r c l (true :: k) fs ph true s) (hc : c.closed = none) (hb : chipBusy c = true)
    (hd : decode p (.request r) = .ok i) (hr : rejectCause i = none) (hm : (hostSteps p ph.old i)[ph.pc]? = some m)
    {tx : List Byte} (htx : sentBytes m = some tx) (hst : ph.stage = .judge) :
    ∃ u, step s = .next (judge (hostSteps p ph.old i) ph m u) ∧ Ctx p r (completeCycle c) l k fs ph true u := by
  have ht : tick s.world = { chip := completeCycle c, env := { s.env with complete := k } } := by
    have h1 : s.world.chip = c := h.chip
    have h2 : s.env.complete = true :: k := h.complete
    have h3 : s.world.env = s.env := rfl
    simp only [tick, h1, hb, if_true, nextComplete, afterComplete, h2, h3]
  have hu : Ctx p r (completeCycle c) l k fs ph true (stepBase s) :=
    ⟨h.cfg, h.req, by rw [stepBase_rstLine, h.rst]; rfl, by rw [stepBase_chip, ht],
      by rw [stepBase_env, ht]; exact h.answers, by rw [stepBase_env, ht]; exact h.link, by rw [stepBase_env, ht],
      h.sent, h.phase, h.line⟩
  refine ⟨stepBase s, ?_, hu⟩
  rw [step_running (i := i) (by rw [h.chip]; exact hc) (by simp [resetAsserted, h.rst]) h.phase
    (by rw [h.cfg, h.req]; exact hd)]
  have := exec_running (s := stepBase s) (decodeRequest_isHost hd) hr hu.phase (by rw [hu.cfg]; exact hm)
  rw [hu.cfg] at this
  rw [this, microStep_bracket htx]
  simp only [bracketStep, hst]

/-- On to another position. -/
theorem Ctx.at (h : Ctx p r c l k fs ph line s) (ph' : Phase) : Ctx p r c l k fs ph' line (s.setPhase (some ph')) :=
  ⟨h.cfg, h.req, h.rst, h.chip, h.answers, h.link, h.complete, h.sent, rfl, h.line⟩

end Sys2Proof.Machine
end

