-- ==== Sys2Proof/Laws/Operation.lean ====
section
/-!
SUPPORT. The wire commands as moves of the chip inside a run, and the steps of the pseudocode as moves between its
positions.
-/

namespace Sys2Proof.Machine

variable {p : Config.Params} {r : Request} {c : Chip} {l : List Config.LinkOutcome} {k : List Bool}
  {fs : List (List Byte)} {s : State} {i : Instr} {m : Micro}

/-! ### Commands -/

/-- A command with the effect `g`, which does not look at the frame. -/
theorem runs_command {f : List Byte} {j : Instr} {g : Chip → Chip} (hj : decode p (.frame f) = .ok j)
    (he : ∀ u : State, u.cfg = p → exec j u = chipCommand g u)
    (hg : ∀ fr cl, g { c with frame := fr, closed := cl } = { g c with frame := fr, closed := cl }) :
    Runs p f c (· = quiet (g c)) := by
  refine ⟨j, hj, fun u hu hc => ⟨quiet (g c), u.env, ?_, rfl, rfl, rfl, rfl⟩⟩
  rw [he u hu, chipCommand, hc, hg]
  rfl

/-- The effects of the commands do not look at the frame. -/
theorem statusWrite_frame (n : SrNum) (d : Byte) (c : Chip) (fr : List Byte) (cl : Option (List Byte)) :
    statusWrite p n d { c with frame := fr, closed := cl } = { statusWrite p n d c with frame := fr, closed := cl } := by
  have hb : chipBusy { c with frame := fr, closed := cl } = chipBusy c := rfl
  have hw : chipWel { c with frame := fr, closed := cl } = chipWel c := rfl
  unfold statusWrite
  rw [hb, hw]
  dsimp only
  split
  · cases n <;> rfl
  · rfl

theorem pageProgram_frame (a : Nat) (d : List Byte) (c : Chip) (fr : List Byte) (cl : Option (List Byte)) :
    pageProgram a d { c with frame := fr, closed := cl } = { pageProgram a d c with frame := fr, closed := cl } := by
  have hb : chipBusy { c with frame := fr, closed := cl } = chipBusy c := rfl
  have hw : chipWel { c with frame := fr, closed := cl } = chipWel c := rfl
  have hp : protectedAt { c with frame := fr, closed := cl } a = protectedAt c a := rfl
  unfold pageProgram
  rw [hb, hw, hp]
  split
  · split <;> rfl
  · rfl

theorem eraseRegion_frame (base size : Nat) (c : Chip) (fr : List Byte) (cl : Option (List Byte)) :
    eraseRegion base size { c with frame := fr, closed := cl } =
      { eraseRegion base size c with frame := fr, closed := cl } := by
  have hb : chipBusy { c with frame := fr, closed := cl } = chipBusy c := rfl
  have hw : chipWel { c with frame := fr, closed := cl } = chipWel c := rfl
  have hp : regionProtected { c with frame := fr, closed := cl } base size = regionProtected c base size := rfl
  unfold eraseRegion
  rw [hb, hw, hp]
  split
  · split <;> rfl
  · rfl

theorem lockCommand_frame {f : Chip → Chip} (c : Chip) (fr : List Byte) (cl : Option (List Byte))
    (hf : f { c with frame := fr, closed := cl } = { f c with frame := fr, closed := cl }) :
    lockCommand p f { c with frame := fr, closed := cl } = { lockCommand p f c with frame := fr, closed := cl } := by
  have hb : chipBusy { c with frame := fr, closed := cl } = chipBusy c := rfl
  have hw : chipWel { c with frame := fr, closed := cl } = chipWel c := rfl
  have hp : chipWps { c with frame := fr, closed := cl } = chipWps c := rfl
  unfold lockCommand
  rw [hb, hw, hp, hf]
  split
  · split <;> rfl
  · rfl

variable (hd : p.ops.Distinct)
include hd

theorem runs_rdsr (n : SrNum) (rest : List Byte) : Runs p ([rdsrOp p.ops n] ++ rest) c (· = quiet c) := by
  cases n
  · exact runs_command (g := id) (j := .wireRdsr1 rest.length) (by
      have := Config.OpcodeTable.lookup_code p.ops .rdsr1 hd
      simp only [Config.OpcodeTable.code] at this
      simp [decode, decodeFrame, rdsrOp, this]) (fun _ _ => rfl) fun _ _ => rfl
  · exact runs_command (g := id) (j := .wireRdsr2 rest.length) (by
      have := Config.OpcodeTable.lookup_code p.ops .rdsr2 hd
      simp only [Config.OpcodeTable.code] at this
      simp [decode, decodeFrame, rdsrOp, this]) (fun _ _ => rfl) fun _ _ => rfl
  · exact runs_command (g := id) (j := .wireRdsr3 rest.length) (by
      have := Config.OpcodeTable.lookup_code p.ops .rdsr3 hd
      simp only [Config.OpcodeTable.code] at this
      simp [decode, decodeFrame, rdsrOp, this]) (fun _ _ => rfl) fun _ _ => rfl

theorem runs_wren (hb : chipBusy c = false) : Runs p [p.ops.wren] c (· = quiet (setWel true c)) := by
  have := Config.OpcodeTable.lookup_code p.ops .wren hd
  simp only [Config.OpcodeTable.code] at this
  have h := runs_command (p := p) (c := c) (f := [p.ops.wren]) (g := fun c => if chipBusy c then c else setWel true c)
    (j := .wireWren) (by simp [decode, decodeFrame, this]) (fun _ _ => rfl)
    fun fr cl => by
      show (if chipBusy c = true then _ else _) = _
      simp only [hb]; rfl
  simpa only [hb, Bool.false_eq_true, if_false] using h

theorem runs_vwren (hb : chipBusy c = false) : Runs p [p.ops.vwren] c (· = quiet (setVsrEn true c)) := by
  have := Config.OpcodeTable.lookup_code p.ops .vwren hd
  simp only [Config.OpcodeTable.code] at this
  have h := runs_command (p := p) (c := c) (f := [p.ops.vwren]) (g := fun c => if chipBusy c then c else setVsrEn true c)
    (j := .wireVwren) (by simp [decode, decodeFrame, this]) (fun _ _ => rfl)
    fun fr cl => by
      show (if chipBusy c = true then _ else _) = _
      simp only [hb]; rfl
  simpa only [hb, Bool.false_eq_true, if_false] using h

theorem runs_wrsr (n : SrNum) (d : Byte) (hb : chipBusy c = false) (hv : c.vsrEn = true) :
    Runs p [wrsrOp p.ops n, d] c
      (· = quiet (setBusy true (setSr c n (statusWriteValue (srValue c n) (roMask p n) d)))) := by
  have hg : statusWrite p n d c = setBusy true (setSr c n (statusWriteValue (srValue c n) (roMask p n) d)) := by
    simp [statusWrite, hb, hv]
  rw [← hg]
  cases n
  · exact runs_command (j := .wireWrsr1 d) (by
      have := Config.OpcodeTable.lookup_code p.ops .wrsr1 hd
      simp only [Config.OpcodeTable.code] at this
      simp [decode, decodeFrame, wrsrOp, withData, this]) (fun u hu => by rw [← hu]; rfl) (statusWrite_frame _ _ c)
  · exact runs_command (j := .wireWrsr2 d) (by
      have := Config.OpcodeTable.lookup_code p.ops .wrsr2 hd
      simp only [Config.OpcodeTable.code] at this
      simp [decode, decodeFrame, wrsrOp, withData, this]) (fun u hu => by rw [← hu]; rfl) (statusWrite_frame _ _ c)
  · exact runs_command (j := .wireWrsr3 d) (by
      have := Config.OpcodeTable.lookup_code p.ops .wrsr3 hd
      simp only [Config.OpcodeTable.code] at this
      simp [decode, decodeFrame, wrsrOp, withData, this]) (fun u hu => by rw [← hu]; rfl) (statusWrite_frame _ _ c)

theorem runs_rsten (hb : chipBusy c = false) : Runs p [p.ops.rsten] c (· = { quiet c with rstEn := true }) := by
  have := Config.OpcodeTable.lookup_code p.ops .rsten hd
  simp only [Config.OpcodeTable.code] at this
  refine ⟨.wireRsten, by simp [decode, decodeFrame, this], fun u _ hc =>
    ⟨{ quiet c with rstEn := true }, u.env, ?_, rfl, rfl, rfl, rfl⟩⟩
  have hb' : chipBusy u.chip = false := by rw [hc]; exact hb
  show execWireRsten u = _
  rw [execWireRsten, hb', hc]
  rfl

theorem runs_rst (hb : chipBusy c = false) (hr : c.rstEn = true) :
    Runs p [p.ops.rst] c (fun d => chipBusy d = false ∧ chipWel d = false ∧ d.array = c.array ∧ d.closed = none) := by
  have := Config.OpcodeTable.lookup_code p.ops .rst hd
  simp only [Config.OpcodeTable.code] at this
  refine ⟨.wireRst, by simp [decode, decodeFrame, this], fun u _ hc =>
    ⟨finishCommand (resetDevice (nextImage u.env) u.chip), afterImage u.env, ?_, ⟨?_, ?_, ?_, rfl⟩, ?_⟩⟩
  · have hb' : chipBusy u.chip = false := by rw [hc]; exact hb
    have hr' : u.chip.rstEn = true := by rw [hc]; exact hr
    show execWireRst u = _
    simp [execWireRst, hb', hr']
  · simp [chipBusy, finishCommand, resetDevice, Config.busyBit]
  · simp [chipWel, finishCommand, resetDevice, Config.welBit]
  · rw [hc]; rfl
  · unfold afterImage; split <;> exact ⟨rfl, rfl, rfl⟩

theorem runs_read (a2 a1 a0 : Byte) (rest : List Byte) : Runs p ([p.ops.read, a2, a1, a0] ++ rest) c (· = quiet c) := by
  have := Config.OpcodeTable.lookup_code p.ops .read hd
  simp only [Config.OpcodeTable.code] at this
  exact runs_command (g := id) (j := .wireRead a2 a1 a0 rest.length)
    (by simp [decode, decodeFrame, withAddress, this]) (fun _ _ => rfl) fun _ _ => rfl

theorem runs_rdlock (a2 a1 a0 : Byte) (rest : List Byte) :
    Runs p ([p.ops.rdlock, a2, a1, a0] ++ rest) c (· = quiet c) := by
  have := Config.OpcodeTable.lookup_code p.ops .rdlock hd
  simp only [Config.OpcodeTable.code] at this
  exact runs_command (g := id) (j := .wireRdlock a2 a1 a0 rest.length)
    (by simp [decode, decodeFrame, withAddress, this]) (fun _ _ => rfl) fun _ _ => rfl

theorem runs_pp (a2 a1 a0 : Byte) (d : List Byte) (hlen : d.length ≤ 256) :
    Runs p ([p.ops.pp, a2, a1, a0] ++ d) c (· = quiet (pageProgram (headerAddr a2 a1 a0) d c)) := by
  have := Config.OpcodeTable.lookup_code p.ops .pp hd
  simp only [Config.OpcodeTable.code] at this
  exact runs_command (j := .wirePp a2 a1 a0 d)
    (by simp [decode, decodeFrame, withAddress, this, List.take_of_length_le hlen]) (fun _ _ => rfl)
    (pageProgram_frame _ _ c)

theorem runs_be (a2 a1 a0 : Byte) :
    Runs p [p.ops.be, a2, a1, a0] c (· = quiet (eraseRegion (a2.toNat * 65536) 65536 c)) := by
  have := Config.OpcodeTable.lookup_code p.ops .be hd
  simp only [Config.OpcodeTable.code] at this
  exact runs_command (j := .wireBe a2 a1 a0) (by simp [decode, decodeFrame, withAddress, this])
    (fun _ _ => by rw [← blockBase_header a2 a1 a0]; rfl) (eraseRegion_frame _ _ c)

theorem runs_se (a2 a1 a0 : Byte) : Runs p [p.ops.se, a2, a1, a0] c
    (· = quiet (eraseRegion (a2.toNat * 65536 + a1.toNat / 16 * 4096) 4096 c)) := by
  have := Config.OpcodeTable.lookup_code p.ops .se hd
  simp only [Config.OpcodeTable.code] at this
  exact runs_command (j := .wireSe a2 a1 a0) (by simp [decode, decodeFrame, withAddress, this])
    (fun _ _ => by rw [← sectorBase_header a2 a1 a0]; rfl) (eraseRegion_frame _ _ c)

theorem runs_ce : Runs p [p.ops.ce] c (· = quiet (eraseRegion 0 16777216 c)) := by
  have := Config.OpcodeTable.lookup_code p.ops .ce hd
  simp only [Config.OpcodeTable.code] at this
  exact runs_command (j := .wireCe) (by simp [decode, decodeFrame, this]) (fun _ _ => rfl) (eraseRegion_frame _ _ c)

theorem runs_blockLock (a2 a1 a0 : Byte) (v : Bool) :
    Runs p [if v then p.ops.blockLock else p.ops.blockUnlock, a2, a1, a0] c
      (· = quiet (lockCommand p (setLockBit a2.toNat v) c)) := by
  cases v
  · have := Config.OpcodeTable.lookup_code p.ops .blockUnlock hd
    simp only [Config.OpcodeTable.code] at this
    exact runs_command (j := .wireBlockUnlock a2 a1 a0) (by simp [decode, decodeFrame, withAddress, this])
      (fun u hu => by rw [← hu]; rfl) fun fr cl => lockCommand_frame c fr cl rfl
  · have := Config.OpcodeTable.lookup_code p.ops .blockLock hd
    simp only [Config.OpcodeTable.code] at this
    exact runs_command (j := .wireBlockLock a2 a1 a0) (by simp [decode, decodeFrame, withAddress, this])
      (fun u hu => by rw [← hu]; rfl) fun fr cl => lockCommand_frame c fr cl rfl

theorem runs_gunlock : Runs p [p.ops.gunlock] c (· = quiet (lockCommand p clearLocks c)) := by
  have := Config.OpcodeTable.lookup_code p.ops .gunlock hd
  simp only [Config.OpcodeTable.code] at this
  exact runs_command (j := .wireGunlock) (by simp [decode, decodeFrame, this]) (fun u hu => by rw [← hu]; rfl)
    fun fr cl => lockCommand_frame c fr cl rfl

omit hd

/-! ### Steps of the pseudocode -/

variable {pc : Nat} {old : Byte}

/-- A `Sequential` up to and with its judgement. -/
theorem Ctx.seqJudged (h : Ctx p r c (.delivered :: .delivered :: l) k fs (phaseAt pc old) true s) (hc : c.closed = none)
    (hb : chipBusy c = false) (hd : decode p (.request r) = .ok i) (hr : rejectCause i = none)
    (hm : (hostSteps p old i)[pc]? = some m) {tx : List Byte} (htx : sentBytes m = some tx) {n : Nat}
    (hn : receiveCount m = some n) (hf : Runs p (tx ++ fillerBytes n) c (· = quiet c)) {rx : List Byte}
    (hrx : ∀ e : Env, e.answers = .responder → (clockBytes p (fillerBytes n) ⟨{ c with frame := tx }, e⟩).1 = rx) :
    ∃ u, Reaches s (judge (hostSteps p old i) { pc := pc, stage := .judge, ok := true, rx := rx, old := old } m u) ∧
      Ctx p r (quiet c) l k (fillerBytes n :: tx :: fs)
        { pc := pc, stage := .judge, ok := true, rx := rx, old := old } true u := by
  obtain ⟨t, d, e, rfl, h'⟩ := h.seqBracket hc hb hd hr hm htx hn hf hrx
  exact ⟨t, e.trans (.step (h'.judged rfl hb hd hr hm htx rfl) (.refl _)), h'⟩

/-- A `Write` up to and with its judgement. -/
theorem Ctx.writeJudged (h : Ctx p r c (.delivered :: l) k fs (phaseAt pc old) true s) (hc : c.closed = none)
    (hb : chipBusy c = false) (hd : decode p (.request r) = .ok i) (hr : rejectCause i = none) {tx : List Byte}
    (hm : (hostSteps p old i)[pc]? = some (.send tx)) {R : Chip → Prop} (hf : Runs p tx c R)
    (hR : ∀ d, R d → d.closed = none ∧ chipBusy d = false) :
    ∃ u d rx, R d ∧ Reaches s (advance (hostSteps p old i)
        { pc := pc, stage := .judge, ok := true, rx := rx, old := old } u) ∧
      Ctx p r d l k (tx :: fs) { pc := pc, stage := .judge, ok := true, rx := rx, old := old } true u := by
  obtain ⟨t, d, rx, e, hd', h'⟩ := h.writeBracket hc hb hd hr hm hf
  exact ⟨t, d, rx, hd', e.trans (.step (h'.judged (hR d hd').1 (hR d hd').2 hd hr hm rfl rfl) (.refl _)), h'⟩

/-- A `Write` that starts a cycle of the chip, which completes before its judgement. -/
theorem Ctx.writeJudgedBusy (h : Ctx p r c (.delivered :: l) (true :: k) fs (phaseAt pc old) true s)
    (hc : c.closed = none) (hb : chipBusy c = false) (hd : decode p (.request r) = .ok i) (hr : rejectCause i = none)
    {tx : List Byte} (hm : (hostSteps p old i)[pc]? = some (.send tx)) {d : Chip} (hf : Runs p tx c (· = d))
    (hR : d.closed = none ∧ chipBusy d = true) :
    ∃ u rx, Reaches s (advance (hostSteps p old i) { pc := pc, stage := .judge, ok := true, rx := rx, old := old } u) ∧
      Ctx p r (completeCycle d) l k (tx :: fs)
        { pc := pc, stage := .judge, ok := true, rx := rx, old := old } true u := by
  obtain ⟨t, _, rx, e, rfl, h'⟩ := h.writeBracket hc hb hd hr hm hf
  obtain ⟨u, e', h''⟩ := h'.judgedBusy hR.1 hR.2 hd hr hm rfl rfl
  exact ⟨u, rx, e.trans (.step e' (.refl _)), h''⟩

/-- The step is not the last: the next position. -/
theorem advance_next {prog : List Micro} {ph : Phase} (h : ph.pc + 1 < prog.length) (u : State) :
    advance prog ph u = u.setPhase (some (phaseAt (ph.pc + 1) ph.old)) := if_pos h

/-- The last step: the answer. -/
theorem advance_last {prog : List Micro} {ph : Phase} (h : prog.length = ph.pc + 1) (u : State) :
    advance prog ph u = answered { u.resp with ok := true } none u := by
  rw [advance, if_neg (by omega), respondOk_eq]

/-- A `Write` that is not the last step. -/
theorem Ctx.write (h : Ctx p r c (.delivered :: l) k fs (phaseAt pc old) true s) (hc : c.closed = none)
    (hb : chipBusy c = false) (hd : decode p (.request r) = .ok i) (hr : rejectCause i = none) {tx : List Byte}
    (hm : (hostSteps p old i)[pc]? = some (.send tx)) {R : Chip → Prop} (hf : Runs p tx c R)
    (hR : ∀ d, R d → d.closed = none ∧ chipBusy d = false) (hl : pc + 1 < (hostSteps p old i).length) :
    ∃ t d, R d ∧ Reaches s t ∧ Ctx p r d l k (tx :: fs) (phaseAt (pc + 1) old) true t := by
  obtain ⟨u, d, rx, hd', e, h'⟩ := h.writeJudged hc hb hd hr hm hf hR
  exact ⟨_, d, hd', e.trans (by rw [advance_next hl]; exact .refl _), h'.at _⟩

/-- A `Write` that starts a cycle and is not the last step. -/
theorem Ctx.writeBusy (h : Ctx p r c (.delivered :: l) (true :: k) fs (phaseAt pc old) true s)
    (hc : c.closed = none) (hb : chipBusy c = false) (hd : decode p (.request r) = .ok i) (hr : rejectCause i = none)
    {tx : List Byte} (hm : (hostSteps p old i)[pc]? = some (.send tx)) {d : Chip} (hf : Runs p tx c (· = d))
    (hR : d.closed = none ∧ chipBusy d = true) (hl : pc + 1 < (hostSteps p old i).length) :
    ∃ t, Reaches s t ∧ Ctx p r (completeCycle d) l k (tx :: fs) (phaseAt (pc + 1) old) true t := by
  obtain ⟨u, rx, e, h'⟩ := h.writeJudgedBusy hc hb hd hr hm hf hR
  exact ⟨_, e.trans (by rw [advance_next hl]; exact .refl _), h'.at _⟩

/-- A status read whose byte sends the operation on. -/
theorem Ctx.status (h : Ctx p r c (.delivered :: .delivered :: l) k fs (phaseAt pc old) true s) (hc : c.closed = none)
    (hb : chipBusy c = false) (ho : p.ops.Distinct) (hd : decode p (.request r) = .ok i) (hr : rejectCause i = none)
    (hm : (hostSteps p old i)[pc]? = some m) {n : SrNum} (htx : sentBytes m = some [rdsrOp p.ops n])
    (hn : receiveCount m = some 1) {old' : Byte}
    (hj : ∀ u : State, judge (hostSteps p old i)
      { pc := pc, stage := .judge, ok := true, rx := [srValue c n], old := old } m u =
        u.setPhase (some (phaseAt (pc + 1) old'))) :
    ∃ t, Reaches s t ∧
      Ctx p r (quiet c) l k ([0x00] :: [rdsrOp p.ops n] :: fs) (phaseAt (pc + 1) old') true t := by
  obtain ⟨u, e, h'⟩ := h.seqJudged hc hb hd hr hm htx hn (runs_rdsr ho n _) (rx := [srValue c n])
    fun e he => by
      refine (clockBytes_status (w := ⟨{ c with frame := [rdsrOp p.ops n] }, e⟩) ho n he hb rfl).trans ?_
      cases n <;> rfl
  exact ⟨_, e.trans (by rw [hj]; exact .refl _), h'.at _⟩

/-- A poll whose bit is clear and that is not the last step. -/
theorem Ctx.poll (h : Ctx p r c (.delivered :: .delivered :: l) k fs (phaseAt pc old) true s) (hc : c.closed = none)
    (hb : chipBusy c = false) (ho : p.ops.Distinct) (hd : decode p (.request r) = .ok i) (hr : rejectCause i = none)
    {bit : Nat} (hm : (hostSteps p old i)[pc]? = some (.poll p.ops.rdsr1 bit)) (hbit : c.sr1.getLsbD bit = false)
    (hl : pc + 1 < (hostSteps p old i).length) :
    ∃ t, Reaches s t ∧ Ctx p r (quiet c) l k ([0x00] :: [p.ops.rdsr1] :: fs) (phaseAt (pc + 1) old) true t :=
  h.status (n := .one) hc hb ho hd hr hm rfl rfl fun u =>
    (if_neg (by show ¬ c.sr1.getLsbD bit = true; simp [hbit])).trans (advance_next hl u)

/-- A status read that is the last step, up to its judgement. -/
theorem Ctx.statusLast (h : Ctx p r c (.delivered :: .delivered :: l) k fs (phaseAt pc old) true s) (hc : c.closed = none)
    (hb : chipBusy c = false) (ho : p.ops.Distinct) (hd : decode p (.request r) = .ok i) (hr : rejectCause i = none)
    (hm : (hostSteps p old i)[pc]? = some m) {n : SrNum} (htx : sentBytes m = some [rdsrOp p.ops n])
    (hn : receiveCount m = some 1) {a : Response → Response}
    (hj : ∀ u : State, judge (hostSteps p old i)
      { pc := pc, stage := .judge, ok := true, rx := [srValue c n], old := old } m u = answered (a u.resp) none u) :
    ∃ u, Reaches s (answered (a u.resp) none u) ∧ Ctx p r (quiet c) l k ([0x00] :: [rdsrOp p.ops n] :: fs)
      { pc := pc, stage := .judge, ok := true, rx := [srValue c n], old := old } true u := by
  obtain ⟨u, e, h'⟩ := h.seqJudged hc hb hd hr hm htx hn (runs_rdsr ho n _) (rx := [srValue c n])
    fun e he => by
      refine (clockBytes_status (w := ⟨{ c with frame := [rdsrOp p.ops n] }, e⟩) ho n he hb rfl).trans ?_
      cases n <;> rfl
  exact ⟨u, by rw [← hj]; exact e, h'⟩

/-- A poll whose bit is clear and that is the last step. -/
theorem Ctx.pollLast (h : Ctx p r c (.delivered :: .delivered :: l) k fs (phaseAt pc old) true s) (hc : c.closed = none)
    (hb : chipBusy c = false) (ho : p.ops.Distinct) (hd : decode p (.request r) = .ok i) (hr : rejectCause i = none)
    {bit : Nat} (hm : (hostSteps p old i)[pc]? = some (.poll p.ops.rdsr1 bit)) (hbit : c.sr1.getLsbD bit = false)
    (hl : (hostSteps p old i).length = pc + 1) :
    ∃ u, Reaches s (answered { u.resp with ok := true } none u) ∧ Ctx p r (quiet c) l k ([0x00] :: [p.ops.rdsr1] :: fs)
      { pc := pc, stage := .judge, ok := true, rx := [c.sr1], old := old } true u :=
  h.statusLast (n := .one) (a := fun r => { r with ok := true }) hc hb ho hd hr hm rfl rfl fun u =>
    (if_neg (by show ¬ c.sr1.getLsbD bit = true; simp [hbit])).trans (advance_last hl u)

/-- A delay that is not the last step. -/
theorem Ctx.delay (h : Ctx p r c l k fs (phaseAt pc old) true s) (hc : c.closed = none) (hb : chipBusy c = false)
    (hd : decode p (.request r) = .ok i) (hr : rejectCause i = none) {us : Nat}
    (hm : (hostSteps p old i)[pc]? = some (.delay us)) (hl : pc + 1 < (hostSteps p old i).length) :
    ∃ t, Reaches s t ∧ Ctx p r c l k fs (phaseAt (pc + 1) old) true t := by
  have e := h.step_eq hc hb hd hr hm
  refine ⟨(delayUs us s).setPhase (some (phaseAt (pc + 1) old)), .step (e.trans ?_) (.refl _), ?_⟩
  · exact congrArg Host.Outcome.next (advance_next (prog := hostSteps p old i) (ph := phaseAt pc old) hl (delayUs us s))
  · exact ⟨h.cfg, h.req, h.rst, h.chip, h.answers, h.link, h.complete, h.sent, rfl, h.line⟩

/-- `WriteEnable()` inside an operation that goes on after it. -/
theorem Ctx.writeEnable
    (h : Ctx p r c (.delivered :: .delivered :: .delivered :: .delivered :: .delivered :: l) k fs (phaseAt pc old) true s)
    (hc : c.closed = none) (hb : chipBusy c = false) (ho : p.ops.Distinct) (hd : decode p (.request r) = .ok i)
    (hr : rejectCause i = none) (h0 : (hostSteps p old i)[pc]? = some (busyCheck p.ops))
    (h1 : (hostSteps p old i)[pc + 1]? = some (.send [p.ops.wren]))
    (h2 : (hostSteps p old i)[pc + 2]? =
      some (srRead p.ops .one (.expectBit Config.welBit true .latchVerifyFailure)))
    (hl : pc + 3 < (hostSteps p old i).length) :
    ∃ t, Reaches s t ∧ Ctx p r (quiet (setWel true c)) l k
      ([0x00] :: [p.ops.rdsr1] :: [p.ops.wren] :: [0x00] :: [p.ops.rdsr1] :: fs) (phaseAt (pc + 3) old) true t := by
  obtain ⟨t1, e1, c1⟩ := h.poll hc hb ho hd hr h0 hb (by omega)
  obtain ⟨t2, _, rfl, e2, c2⟩ := c1.write rfl hb hd hr h1 (runs_wren ho hb)
    (by rintro d rfl; exact ⟨rfl, by simpa using hb⟩) (by omega)
  have hw : (setWel true c).sr1.getLsbD 1 = true := chipWel_setWel c true
  obtain ⟨t3, e3, c3⟩ := c2.status (n := .one) (m := srRead p.ops .one (.expectBit Config.welBit true .latchVerifyFailure))
    rfl (by simpa using hb) ho hd hr h2 rfl rfl (old' := old) fun u =>
      (if_pos hw).trans (advance_next hl u)
  exact ⟨t3, e1.trans (e2.trans e3), c3⟩

/-- `StatusRegWrite(r, mask, value)` up to its verifying read, with a mask that selects no read-only bit, its cycle ending
at once: `old` is what the register held, the chip holds the masked update but for BUSY and WEL, and these are clear. -/
theorem Ctx.statusRegWrite {n : SrNum} {mask value : Byte} (hro : roMask p n &&& mask = 0)
    (h : Ctx p r c (List.replicate 12 .delivered ++ l) (true :: k) fs (phaseAt pc old) true s) (hc : c.closed = none)
    (hb : chipBusy c = false) (ho : p.ops.Distinct) (hd : decode p (.request r) = .ok i) (hr : rejectCause i = none)
    (hm : ∀ o j, j < 9 → (statusRegWriteSteps p.ops n mask value o)[j]? = (hostSteps p o i)[pc + j]?)
    (hl : ∀ o, pc + 9 ≤ (hostSteps p o i).length) :
    ∃ t d, Reaches s t ∧ d.closed = none ∧ chipBusy d = false ∧ chipWel d = false ∧ d.array = c.array ∧ d.lock = c.lock ∧
      (∀ j : Nat, j < 8 → (n = .one → 2 ≤ j) → (srValue d n).getLsbD j =
        if mask.getLsbD j then value.getLsbD j else (srValue c n).getLsbD j) ∧
      Ctx p r d l k ([0x00] :: [p.ops.rdsr1] :: [0x00] :: [p.ops.rdsr1] ::
        [wrsrOp p.ops n, maskedUpdate (srValue c n) mask value] :: [p.ops.vwren] :: [0x00] :: [p.ops.rdsr1] ::
        [0x00] :: [rdsrOp p.ops n] :: [0x00] :: [p.ops.rdsr1] :: fs) (phaseAt (pc + 8) (srValue c n)) true t := by
  obtain ⟨t0, e0, c0⟩ := h.poll hc hb ho hd hr (bit := 0) ((hm old 0 (by omega)).symm.trans rfl) hb (by have := hl old; omega)
  obtain ⟨t1, e1, c1⟩ := c0.status (n := n) (m := srRead p.ops n .keepOld) rfl hb ho hd hr
    ((hm old 1 (by omega)).symm.trans rfl) rfl rfl (old' := srValue c n) fun u => by
      rw [srValue_quiet]
      exact advance_next (ph := { pc := pc + 1, stage := .judge, ok := true, rx := [srValue c n], old := srValue c n })
        (by have := hl old; show pc + 1 + 1 < _; omega) u
  obtain ⟨t2, e2, c2⟩ := c1.poll rfl hb ho hd hr (bit := 0) ((hm _ 2 (by omega)).symm.trans rfl) hb
    (by have := hl (srValue c n); omega)
  obtain ⟨t3, _, rfl, e3, c3⟩ := c2.write rfl hb hd hr ((hm _ 3 (by omega)).symm.trans rfl) (runs_vwren ho hb)
    (by rintro d rfl; exact ⟨rfl, hb⟩) (by have := hl (srValue c n); omega)
  have hs3 : srValue (quiet (setVsrEn true (quiet (quiet (quiet c))))) n = srValue c n := by cases n <;> rfl
  obtain ⟨t4, e4, c4⟩ := c3.writeBusy rfl hb hd hr ((hm _ 4 (by omega)).symm.trans rfl)
    (runs_wrsr ho n (maskedUpdate (srValue c n) mask value) hb rfl)
    ⟨rfl, by rw [chipBusy_quiet]; exact chipBusy_setBusy _ _⟩ (by have := hl (srValue c n); omega)
  have hv : ∀ j : Nat, j < 8 → (statusWriteValue (srValue (quiet (setVsrEn true (quiet (quiet (quiet c))))) n)
      (roMask p n) (maskedUpdate (srValue c n) mask value)).getLsbD j =
        if mask.getLsbD j then value.getLsbD j else (srValue c n).getLsbD j := by
    intro j hj
    have hx : (roMask p n).getLsbD j = true → mask.getLsbD j = false := by
      intro h1
      have h2 := congrArg (fun v : Byte => v.getLsbD j) hro
      simpa [h1] using h2
    rw [hs3]
    simp only [statusWriteValue, maskedUpdate, BitVec.getLsbD_or, BitVec.getLsbD_and, BitVec.getLsbD_not, hj,
      decide_true, Bool.true_and]
    cases h1 : (roMask p n).getLsbD j
    · cases mask.getLsbD j <;> simp
    · simp [hx h1]
  generalize statusWriteValue (srValue (quiet (setVsrEn true (quiet (quiet (quiet c))))) n) (roMask p n)
    (maskedUpdate (srValue c n) mask value) = v at c4 hv
  generalize hd4 : completeCycle (quiet (setBusy true (setSr (quiet (setVsrEn true (quiet (quiet (quiet c))))) n
    v))) = d at c4
  have hdb : chipBusy d = false := by rw [← hd4]; exact chipBusy_completeCycle _
  have hdw : chipWel d = false := by rw [← hd4]; exact chipWel_completeCycle _
  have hdc : d.closed = none := by rw [← hd4]; rfl
  have hda : d.array = c.array := by rw [← hd4]; cases n <;> rfl
  have hdl : d.lock = c.lock := by rw [← hd4]; cases n <;> rfl
  have hds : ∀ j : Nat, j < 8 → (n = .one → 2 ≤ j) → (srValue d n).getLsbD j = v.getLsbD j := by
    intro j hj hn
    rw [← hd4]
    cases n
    · have hj2 := hn rfl
      show (putBit (putBit (putBit v 0 true) 0 false) 1 false).getLsbD j = _
      rw [getLsbD_putBit, if_neg (by omega), getLsbD_putBit, if_neg (by omega), getLsbD_putBit, if_neg (by omega)]
    · rfl
    · rfl
  obtain ⟨t5, e5, c5⟩ := c4.delay hdc hdb hd hr ((hm _ 5 (by omega)).symm.trans rfl) (by have := hl (srValue c n); omega)
  obtain ⟨t6, e6, c6⟩ := c5.poll hdc hdb ho hd hr (bit := 0) ((hm _ 6 (by omega)).symm.trans rfl) hdb
    (by have := hl (srValue c n); omega)
  obtain ⟨t7, e7, c7⟩ := c6.poll rfl hdb ho hd hr (bit := 1) ((hm _ 7 (by omega)).symm.trans rfl) hdw
    (by have := hl (srValue c n); omega)
  exact ⟨t7, quiet (quiet d), e0.trans (e1.trans (e2.trans (e3.trans (e4.trans (e5.trans (e6.trans e7)))))), rfl, hdb,
    hdw, hda, hdl, fun j hj hn => by rw [srValue_quiet, srValue_quiet, hds j hj hn, hv j hj], c7⟩

/-- The host's request starts its operation, at a point where the chip may complete. -/
theorem RequestReady.start (h : RequestReady i s) (hr : rejectCause i = none) :
    ∃ r t, decode s.cfg (.request r) = .ok i ∧ Reaches s t ∧ t.inbox = [] ∧
      Ctx s.cfg r (tick s.world).chip (tick s.world).env.link (tick s.world).env.complete
        (s.trace.filterMap sentOf) (phaseAt 0 0) true t := by
  obtain ⟨⟨r, hi, hd⟩, hp, hcs, hrst, hc, hf, ha, ho⟩ := h
  have e : step s = .next (startOperation (takeRequest r [] (stepBase s))) := by
    rw [step_request hc (by simp [resetAsserted, hrst]) hp hi hd, exec_host (decodeRequest_isHost hd), hr]
    simp only [runHost, takeRequest_phase, stepBase_phase, hp]
  refine ⟨r, _, hd, .step e (.refl _), rfl, rfl, rfl, ?_, rfl, ?_, rfl, rfl, rfl, rfl, hcs⟩
  · show s.rstLine.tail = []
    rw [hrst]; rfl
  · show (tick s.world).env.answers = _
    unfold tick
    split
    · show (afterComplete s.env).answers = _
      unfold afterComplete
      split <;> exact ha
    · exact ha

/-- The host's request starts its operation. -/
theorem ReadyFor.start (h : ReadyFor i s) (hr : rejectCause i = none) :
    ∃ r t, decode s.cfg (.request r) = .ok i ∧ Reaches s t ∧ t.inbox = [] ∧
      Ctx s.cfg r s.chip s.env.link s.env.complete (s.trace.filterMap sentOf) (phaseAt 0 0) true t := by
  have := h.1.start hr
  rwa [tick_idle (w := s.world) h.2] at this

theorem ReadyFor.closed (h : ReadyFor i s) : s.chip.closed = none := h.1.2.2.2.2.1
theorem ReadyFor.distinct (h : ReadyFor i s) : s.cfg.ops.Distinct := h.1.2.2.2.2.2.2.2
theorem ReadyFor.idle (h : ReadyFor i s) : chipBusy s.chip = false := h.2

end Sys2Proof.Machine
end

