-- ==== Sys2Proof/Laws/PerInstr.lean ====
section
/-!
SUPPORT. The statements made per instruction: the round trip of the encoder and the decoder (30_encoding R80 to R88).
-/

namespace Sys2Proof.Laws.RoundTrip

/-- Decoding the encoded instruction gives it back, when it is well-formed and the opcode table keeps R89. -/
def Statement (i : Instr) : Prop :=
  ∀ p : Config.Params, p.ops.Distinct → i.wf p = true → decode p (encode p i) = .ok i

theorem init : Statement (.init) := fun _ _ _ => rfl

theorem statusRegWrite (reg : BitVec 2) (mask value : Byte) : Statement (.statusRegWrite reg mask value) := fun _ _ _ => rfl

theorem statusRegRead (reg : BitVec 2) : Statement (.statusRegRead reg) := fun _ _ _ => rfl

theorem writeEnable : Statement (.writeEnable) := fun _ _ _ => rfl

theorem volatileWriteEnable : Statement (.volatileWriteEnable) := fun _ _ _ => rfl

theorem reset : Statement (.reset) := fun _ _ _ => rfl

theorem read (block sector page offset : Byte) (len : Nat) : Statement (.read block sector page offset len) := by
  intro p _ hw
  simp_all [decode, encode, decodeRequest, Request.blank, Instr.wf]

theorem pageProgram (block sector page offset : Byte) (tx : List Byte) : Statement (.pageProgram block sector page offset tx) := by
  intro p _ _
  simp [decode, encode, decodeRequest, Request.blank]

theorem blockErase (block : Byte) : Statement (.blockErase block) := fun _ _ _ => rfl

theorem sectorErase (block sector : Byte) : Statement (.sectorErase block sector) := fun _ _ _ => rfl

theorem chipErase : Statement (.chipErase) := fun _ _ _ => rfl

theorem blockLock (block : Byte) : Statement (.blockLock block) := fun _ _ _ => rfl

theorem blockUnlock (block : Byte) : Statement (.blockUnlock block) := fun _ _ _ => rfl

theorem reserved13 : Statement (.reserved13) := fun _ _ _ => rfl

theorem reserved14 : Statement (.reserved14) := fun _ _ _ => rfl

theorem reserved15 : Statement (.reserved15) := fun _ _ _ => rfl

theorem wireWren : Statement (.wireWren) := by
  intro p h _
  have hl : p.ops.lookup p.ops.wren = some .wren := p.ops.lookup_code .wren h
  simp [decode, encode, decodeFrame, hl]

theorem wireVwren : Statement (.wireVwren) := by
  intro p h _
  have hl : p.ops.lookup p.ops.vwren = some .vwren := p.ops.lookup_code .vwren h
  simp [decode, encode, decodeFrame, hl]

theorem wireRsten : Statement (.wireRsten) := by
  intro p h _
  have hl : p.ops.lookup p.ops.rsten = some .rsten := p.ops.lookup_code .rsten h
  simp [decode, encode, decodeFrame, hl]

theorem wireRst : Statement (.wireRst) := by
  intro p h _
  have hl : p.ops.lookup p.ops.rst = some .rst := p.ops.lookup_code .rst h
  simp [decode, encode, decodeFrame, hl]

theorem wireRead (a2 a1 a0 : Byte) (n : Nat) : Statement (.wireRead a2 a1 a0 n) := by
  intro p h _
  have hl : p.ops.lookup p.ops.read = some .read := p.ops.lookup_code .read h
  simp [decode, encode, decodeFrame, withAddress, fillerBytes, hl]

theorem wirePp (a2 a1 a0 : Byte) (d : List Byte) : Statement (.wirePp a2 a1 a0 d) := by
  intro p h hw
  have hl : p.ops.lookup p.ops.pp = some .pp := p.ops.lookup_code .pp h
  have hd : d.length ≤ Config.pageSize := by simpa [Instr.wf] using hw
  simp [decode, encode, decodeFrame, withAddress, hl, List.take_of_length_le hd]

theorem wireBe (a2 a1 a0 : Byte) : Statement (.wireBe a2 a1 a0) := by
  intro p h _
  have hl : p.ops.lookup p.ops.be = some .be := p.ops.lookup_code .be h
  simp [decode, encode, decodeFrame, withAddress, hl]

theorem wireSe (a2 a1 a0 : Byte) : Statement (.wireSe a2 a1 a0) := by
  intro p h _
  have hl : p.ops.lookup p.ops.se = some .se := p.ops.lookup_code .se h
  simp [decode, encode, decodeFrame, withAddress, hl]

theorem wireCe : Statement (.wireCe) := by
  intro p h _
  have hl : p.ops.lookup p.ops.ce = some .ce := p.ops.lookup_code .ce h
  simp [decode, encode, decodeFrame, hl]

theorem wireBlockLock (a2 a1 a0 : Byte) : Statement (.wireBlockLock a2 a1 a0) := by
  intro p h _
  have hl : p.ops.lookup p.ops.blockLock = some .blockLock := p.ops.lookup_code .blockLock h
  simp [decode, encode, decodeFrame, withAddress, hl]

theorem wireBlockUnlock (a2 a1 a0 : Byte) : Statement (.wireBlockUnlock a2 a1 a0) := by
  intro p h _
  have hl : p.ops.lookup p.ops.blockUnlock = some .blockUnlock := p.ops.lookup_code .blockUnlock h
  simp [decode, encode, decodeFrame, withAddress, hl]

theorem wireRdlock (a2 a1 a0 : Byte) (n : Nat) : Statement (.wireRdlock a2 a1 a0 n) := by
  intro p h _
  have hl : p.ops.lookup p.ops.rdlock = some .rdlock := p.ops.lookup_code .rdlock h
  simp [decode, encode, decodeFrame, withAddress, fillerBytes, hl]

theorem wireGunlock : Statement (.wireGunlock) := by
  intro p h _
  have hl : p.ops.lookup p.ops.gunlock = some .gunlock := p.ops.lookup_code .gunlock h
  simp [decode, encode, decodeFrame, hl]

theorem wireRdsr1 (n : Nat) : Statement (.wireRdsr1 n) := by
  intro p h _
  have hl : p.ops.lookup p.ops.rdsr1 = some .rdsr1 := p.ops.lookup_code .rdsr1 h
  simp [decode, encode, decodeFrame, fillerBytes, hl]

theorem wireRdsr2 (n : Nat) : Statement (.wireRdsr2 n) := by
  intro p h _
  have hl : p.ops.lookup p.ops.rdsr2 = some .rdsr2 := p.ops.lookup_code .rdsr2 h
  simp [decode, encode, decodeFrame, fillerBytes, hl]

theorem wireRdsr3 (n : Nat) : Statement (.wireRdsr3 n) := by
  intro p h _
  have hl : p.ops.lookup p.ops.rdsr3 = some .rdsr3 := p.ops.lookup_code .rdsr3 h
  simp [decode, encode, decodeFrame, fillerBytes, hl]

theorem wireWrsr1 (d : Byte) : Statement (.wireWrsr1 d) := by
  intro p h _
  have hl : p.ops.lookup p.ops.wrsr1 = some .wrsr1 := p.ops.lookup_code .wrsr1 h
  simp [decode, encode, decodeFrame, withData, hl]

theorem wireWrsr2 (d : Byte) : Statement (.wireWrsr2 d) := by
  intro p h _
  have hl : p.ops.lookup p.ops.wrsr2 = some .wrsr2 := p.ops.lookup_code .wrsr2 h
  simp [decode, encode, decodeFrame, withData, hl]

theorem wireWrsr3 (d : Byte) : Statement (.wireWrsr3 d) := by
  intro p h _
  have hl : p.ops.lookup p.ops.wrsr3 = some .wrsr3 := p.ops.lookup_code .wrsr3 h
  simp [decode, encode, decodeFrame, withData, hl]

end Sys2Proof.Laws.RoundTrip
end

