-- ==== Sys2Proof/Laws/StatusRead.lean ====
section
/-!
SUPPORT. A status read before a chip that may be BUSY: six steps, seven points of completion. What is known of the chip and
of the coming completions is any `Q` that those points keep; the two cases needed are a cycle that goes on (`Calm`) and one
that may complete anywhere (`Near`).
-/

namespace Sys2Proof.Machine

variable {p : Config.Params} {r : Request} {c : Chip} {l : List Config.LinkOutcome} {k : List Bool}
  {fs : List (List Byte)} {ph : Phase} {line : Bool} {s : State} {i : Instr} {m : Micro}
  {Q : Nat → Chip → List Bool → Prop} {n : Nat} {tx : List Byte}

/-- `Q n c k`, known of the chip `c` and the coming completions `k` for `n` more points of completion, is kept by such a
point and does not look at the frames or at `rst_en`. -/
structure Keeps (Q : Nat → Chip → List Bool → Prop) : Prop where
  tick : ∀ {n : Nat} {w : World}, Q (n + 1) w.chip w.env.complete → Q n (tick w).chip (tick w).env.complete
  quiet : ∀ {n : Nat} {c d : Chip} {k : List Bool}, quiet c = quiet d → Q n c k → Q n d k

theorem tick_env (w : World) : (tick w).env.answers = w.env.answers ∧ (tick w).env.link = w.env.link := by
  unfold tick afterComplete
  split
  · dsimp only
    split <;> exact ⟨rfl, rfl⟩
  · exact ⟨rfl, rfl⟩

theorem Settled.rstEn {d c : Chip} (h : Settled d c) : c.rstEn = d.rstEn := by
  obtain rfl | ⟨-, rfl⟩ := h <;> rfl

/-- A step of a running block. -/
theorem Ctx.stepTicked (h : Ctx p r c l k fs ph line s) (hQ : Keeps Q) (hq : Q (n + 1) c k) (hc : c.closed = none)
    (hd : decode p (.request r) = .ok i) (hr : rejectCause i = none) (hm : (hostSteps p ph.old i)[ph.pc]? = some m) :
    ∃ c' k', step s = microStep (hostSteps p ph.old i) ph m (stepBase s) ∧ Settled c c' ∧ Q n c' k' ∧
      Ctx p r c' l k' fs ph line (stepBase s) := by
  have hw : s.world.chip = c := h.chip
  have hk : s.world.env.complete = k := h.complete
  obtain ⟨h1, h2⟩ := tick_env s.world
  have hu : Ctx p r (tick s.world).chip l (tick s.world).env.complete fs ph line (stepBase s) :=
    ⟨h.cfg, h.req, by rw [stepBase_rstLine, h.rst]; rfl, rfl, h1.trans h.answers, h2.trans h.link, rfl, h.sent,
      h.phase, h.line⟩
  refine ⟨_, _, ?_, hw ▸ tick_settled s.world, hQ.tick (by rw [hw, hk]; exact hq), hu⟩
  rw [step_running (i := i) (by rw [h.chip]; exact hc) (by simp [resetAsserted, h.rst]) h.phase
    (by rw [h.cfg, h.req]; exact hd)]
  have := exec_running (s := stepBase s) (decodeRequest_isHost hd) hr hu.phase (by rw [hu.cfg]; exact hm)
  rw [hu.cfg] at this
  exact this

/-- One delivered byte. -/
theorem exchanged_ticked (h : Ctx p r c (.delivered :: l) k fs ph false s) (hQ : Keeps Q) (hq : Q (n + 1) c k) (t : Byte)
    (next : Bool → Stage) : ∃ (e : Env) (c' : Chip) (k' : List Bool), e.answers = .responder ∧ Settled c c' ∧ Q n c' k' ∧
      Ctx p r { c' with frame := c.frame ++ [t] } l k' ([t] :: fs)
        { ph with stage := next true, ok := true, rx := [(answerByte p { chip := c', env := e }).1] } false
        (exchanged [t] ph next s) := by
  have he : exchange s.cfg [t] s.world =
      (true, clockBytes p [t] { chip := c, env := { s.env with link := l } }) := by
    rw [exchange_delivered s.cfg [t] s.world h.link, h.cfg, ← h.chip]
    rfl
  have hq' := hQ.tick (w := ⟨c, { s.env with link := l }⟩) (by rw [h.complete]; exact hq)
  have hs := tick_settled ⟨c, { s.env with link := l }⟩
  obtain ⟨h1, h2⟩ := tick_env ⟨c, { s.env with link := l }⟩
  generalize htw : tick ⟨c, { s.env with link := l }⟩ = w at hq' hs h1 h2
  have hb : (afterByte w.env).answers = w.env.answers ∧ (afterByte w.env).link = w.env.link ∧
      (afterByte w.env).complete = w.env.complete := by
    unfold afterByte; split <;> exact ⟨rfl, rfl, rfl⟩
  have ha : (answerByte p w).2.answers = w.env.answers ∧ (answerByte p w).2.link = w.env.link ∧
      (answerByte p w).2.complete = w.env.complete := by
    unfold answerByte
    split
    · exact ⟨rfl, rfl, rfl⟩
    · exact hb
    · exact hb
  have hx : clockBytes p [t] { chip := c, env := { s.env with link := l } } =
      ([(answerByte p w).1], ⟨{ w.chip with frame := w.chip.frame ++ [t] }, (answerByte p w).2⟩) := by
    simp only [clockBytes, clockByte, htw]
  refine ⟨w.env, w.chip, w.env.complete, h1.trans h.answers, hs, hq', ?_⟩
  unfold exchanged
  rw [he, hx, ← show w.chip.frame = c.frame from hs.frame_eq]
  exact ⟨h.cfg, h.req, h.rst, rfl, ha.1.trans (h1.trans h.answers), ha.2.1.trans h2, ha.2.2,
    congrArg (List.cons [t]) h.sent, rfl, h.line⟩

/-- The byte a conforming chip answers to a status read, BUSY or not. -/
theorem answerByte_status (ho : p.ops.Distinct) (a : SrNum) {e : Env} (he : e.answers = .responder) {rest : List Byte}
    (hf : c.frame = rdsrOp p.ops a :: rest) : (answerByte p ⟨c, e⟩).1 = srValue c a := by
  have h1 := Config.OpcodeTable.lookup_code p.ops .rdsr1 ho
  have h2 := Config.OpcodeTable.lookup_code p.ops .rdsr2 ho
  have h3 := Config.OpcodeTable.lookup_code p.ops .rdsr3 ho
  simp only [Config.OpcodeTable.code] at h1 h2 h3
  cases a <;> simp [answerByte, drivenByte, he, hf, rdsrOp, srValue, h1, h2, h3]

variable (hQ : Keeps Q)
include hQ

theorem Ctx.lowTicked (h : Ctx p r c l k fs ph true s) (hq : Q (n + 1) c k) (hc : c.closed = none)
    (hd : decode p (.request r) = .ok i) (hr : rejectCause i = none) (hm : (hostSteps p ph.old i)[ph.pc]? = some m)
    (htx : sentBytes m = some tx) (hst : ph.stage = .low) :
    ∃ u c' k', step s = .next u ∧ u.resp = s.resp ∧ Q n c' k' ∧ c'.closed = none ∧ c'.frame = [] ∧
      Ctx p r c' l k' fs { ph with stage := .send } false u := by
  obtain ⟨c', k', e, g, q, x⟩ := h.stepTicked hQ hq hc hd hr hm
  rw [microStep_bracket htx] at e
  simp only [bracketStep, hst, x.line, if_true] at e
  exact ⟨_, { c' with frame := [] }, k', e, rfl, hQ.quiet (c := c') rfl q, g.closed.trans hc, rfl, x.cfg, x.req, x.rst,
    by rw [← x.chip]; rfl, x.answers, x.link, x.complete, x.sent, rfl, rfl⟩

/-- The exchange of one byte `t`: `v` is what the chip answers to it. -/
theorem Ctx.exchangeTicked {t : Byte} {next : Bool → Stage} (h : Ctx p r c (.delivered :: l) k fs ph false s)
    (hq : Q (n + 2) c k) (hc : c.closed = none) (hd : decode p (.request r) = .ok i) (hr : rejectCause i = none)
    (hm : (hostSteps p ph.old i)[ph.pc]? = some m)
    (he : ∀ prog u, microStep prog ph m u = exchangeStep [t] ph next u) :
    ∃ u d e c' k', step s = .next u ∧ u.resp = s.resp ∧ (e : Env).answers = .responder ∧ Q n d k' ∧ d.frame = c.frame ∧
      Q n c' k' ∧ c'.closed = none ∧ c'.frame = c.frame ++ [t] ∧ Ctx p r c' l k' ([t] :: fs)
        { ph with stage := next true, ok := true, rx := [(answerByte p ⟨d, e⟩).1] } false u := by
  obtain ⟨c1, k1, e1, g1, q1, x1⟩ := h.stepTicked hQ hq hc hd hr hm
  rw [he, exchangeStep, x1.line] at e1
  obtain ⟨e, d, k', ha, g, q, x⟩ := exchanged_ticked x1 hQ q1 t next
  exact ⟨_, d, e, { d with frame := c1.frame ++ [t] }, k', e1, rfl, ha, q, g.frame_eq.trans g1.frame_eq,
    hQ.quiet (c := d) rfl q, g.closed.trans (g1.closed.trans hc), by rw [← g1.frame_eq], x⟩

theorem Ctx.highTicked (h : Ctx p r c l k fs ph false s) (hq : Q (n + 1) c k) (hc : c.closed = none)
    (hd : decode p (.request r) = .ok i) (hr : rejectCause i = none) (hm : (hostSteps p ph.old i)[ph.pc]? = some m)
    (htx : sentBytes m = some tx) (hst : ph.stage = .high) :
    ∃ u c' k', step s = .next u ∧ u.resp = s.resp ∧ Q n c' k' ∧
      Ctx p r { c' with frame := [], closed := some c.frame } l k' fs { ph with stage := .judge } true u := by
  obtain ⟨c', k', e, g, q, x⟩ := h.stepTicked hQ hq hc hd hr hm
  rw [microStep_bracket htx] at e
  simp only [bracketStep, hst] at e
  have hx : csHigh (stepBase s) = emit (.cs true) (((stepBase s).setCs true).setChip
      { c' with frame := [], closed := some c.frame }) := by
    rw [csHigh, closeBracket, x.line, x.chip, g.frame_eq]
    rfl
  rw [hx] at e
  exact ⟨_, c', k', e, rfl, q, x.cfg, x.req, x.rst, rfl, x.answers, x.link, x.complete, x.sent, rfl, rfl⟩

/-- A status read up to its judgement, with the byte of a chip `d` with `Q`. -/
theorem Ctx.statusRead {pc : Nat} {old : Byte} {a : SrNum}
    (h : Ctx p r c (.delivered :: .delivered :: l) k fs (phaseAt pc old) true s) (hq : Q 7 c k) (hc : c.closed = none)
    (ho : p.ops.Distinct) (hd : decode p (.request r) = .ok i) (hr : rejectCause i = none)
    (hm : (hostSteps p old i)[pc]? = some m) (htx : sentBytes m = some [rdsrOp p.ops a]) (hn : receiveCount m = some 1) :
    ∃ u n' d k1 c' k', Q n' d k1 ∧ Q 0 c' k' ∧ c' = quiet c' ∧ u.resp = s.resp ∧
      runSteps 6 s = .next (judge (hostSteps p old i)
        { pc := pc, stage := .judge, ok := true, rx := [srValue d a], old := old } m u) ∧
      Ctx p r c' l k' ([0x00] :: [rdsrOp p.ops a] :: fs)
        { pc := pc, stage := .judge, ok := true, rx := [srValue d a], old := old } true u := by
  have hst : afterSend m true = .recv := by simp [afterSend, hn]
  obtain ⟨s1, c1, k1, e1, r1, q1, n1, f1, h1⟩ := h.lowTicked hQ hq hc hd hr hm htx rfl
  obtain ⟨s2, _, _, c2, k2, e2, r2, -, -, -, q2, n2, f2, h2⟩ := h1.exchangeTicked hQ (next := afterSend m) q1 n1 hd hr hm
    fun _ _ => microStep_bracket htx
  rw [hst] at h2
  obtain ⟨s3, d, e, c3, k3, e3, r3, he, qd, fd, q3, n3, f3, h3⟩ := h2.exchangeTicked hQ (t := 0x00)
    (next := fun _ => .high) q2 n2 hd hr hm fun _ _ => by
      rw [microStep_bracket htx]; simp only [bracketStep, hn]; rfl
  rw [answerByte_status ho a he (fd.trans (by rw [f2, f1]; rfl))] at h3
  obtain ⟨s4, c4, k4, e4, r4, q4, h4⟩ := h3.highTicked hQ q3 n3 hd hr hm htx rfl
  rw [f3, f2, f1] at h4
  obtain ⟨s5, _, e5, rfl, h5⟩ := Ctx.frame (c := c4) h4 (runs_rdsr ho a [0x00])
  have r5 : s5.resp = s4.resp := by
    obtain ⟨j, hj, hf⟩ := runs_rdsr (c := c4) ho a [0x00]
    obtain ⟨g, v, hg, -⟩ := hf s4 h4.cfg h4.chip
    have := ((step_frame (by rw [h4.chip]) (by rw [h4.cfg]; exact hj)).trans hg).symm.trans e5
    rw [← Host.Outcome.next.inj this]; rfl
  obtain ⟨c', k', e6, g6, q6, h6⟩ := h5.stepTicked hQ (n := 0) (hQ.quiet (c := c4) rfl q4) rfl hd hr hm
  rw [microStep_bracket htx] at e6
  refine ⟨_, _, d, k3, c', k', qd, q6, ?_, ?_, (runSteps_succ_next 5 e1).trans <| (runSteps_succ_next 4 e2).trans <|
    (runSteps_succ_next 3 e3).trans <| (runSteps_succ_next 2 e4).trans <| (runSteps_succ_next 1 e5).trans <|
    (runSteps_succ_next 0 e6).trans rfl, h6⟩
  · obtain rfl | ⟨-, rfl⟩ := g6 <;> rfl
  · exact r5.trans (r4.trans (r3.trans (r2.trans r1)))

omit hQ

/-! ### The two cases -/

/-- The coming choices of `Complete` when `n` points have passed without it: the choices stand when BUSY = 0. -/
def Calm (c : Chip) (n : Nat) (k : List Bool) : List Bool :=
  if chipBusy c then List.replicate n false ++ k else k

/-- The cycle goes on at the next points of completion. -/
theorem keeps_calm (c : Chip) (k : List Bool) : Keeps fun n d j => quiet d = quiet c ∧ j = Calm c n k where
  tick := by
    rintro n w ⟨hd, h⟩
    have hb : chipBusy w.chip = chipBusy c := by
      rw [← chipBusy_quiet, hd, chipBusy_quiet]
    unfold Calm at h ⊢
    unfold tick
    rw [hb]
    split
    · rename_i hc
      rw [if_pos hc, List.replicate_succ, List.cons_append] at h
      simp [nextComplete, afterComplete, h, hd]
    · rename_i hc
      rw [if_neg hc] at h
      exact ⟨hd, h⟩
  quiet := fun h hq => ⟨h.symm.trans hq.1, hq.2⟩

/-- The cycle may complete at any point. -/
theorem keeps_near (c : Chip) : Keeps fun _ d _ => Settled (quiet c) (quiet d) where
  tick := fun {_ w} h => by
    obtain hw | ⟨hb, hw⟩ := tick_settled w
    · rw [hw]; exact h
    · refine h.trans (.inr ⟨hb, ?_⟩)
      rw [hw]; rfl
  quiet := fun h hq => h ▸ hq

/-- One turn of a poll that sees its bit set, while the chip's cycle goes on: back where it was. -/
theorem Ctx.turn {pc bit : Nat} {old : Byte}
    (h : Ctx p r c (.delivered :: .delivered :: l) (Calm c 7 k) fs (phaseAt pc old) true s) (hc : c.closed = none)
    (ho : p.ops.Distinct) (hd : decode p (.request r) = .ok i) (hr : rejectCause i = none)
    (hm : (hostSteps p old i)[pc]? = some (.poll p.ops.rdsr1 bit)) (hbit : c.sr1.getLsbD bit = true) :
    ∃ t, runSteps 6 s = .next t ∧ t.resp = s.resp ∧
      Ctx p r (quiet c) l k ([0x00] :: [p.ops.rdsr1] :: fs) (phaseAt pc old) true t := by
  obtain ⟨u, _, d, _, c', _, ⟨hq, -⟩, ⟨hq', rfl⟩, hc', hu, e, h'⟩ :=
    h.statusRead (keeps_calm c k) (a := .one) ⟨rfl, rfl⟩ hc ho hd hr hm rfl rfl
  have hv : (srValue d .one).getLsbD bit = true := by
    rw [← srValue_quiet, hq, srValue_quiet]; exact hbit
  rw [hc', hq'] at h'
  have hk : Calm c 0 k = k := by unfold Calm; split <;> rfl
  rw [hk] at h'
  refine ⟨u.setPhase (some (phaseAt pc old)), e.trans (congrArg Host.Outcome.next ?_), hu, h'.at _⟩
  exact if_pos hv

end Sys2Proof.Machine
end

