-- ==== Sys2Proof/Tests/Slice0.lean ====
section
/-!
SUPPORT. The model's own tests: ill-formed terms the checks refuse, words written out from the spec's encodings (R81, R85,
R88), one step per instruction with results taken from the vectors of 95_test_vectors, and a witness that meets the
hypotheses of each statement for the provers, clause by clause.
-/

namespace Sys2Proof.Tests

open Sys2Proof Sys2Proof.Machine

/-! ### States -/

/-- A chip with WPS = 1, unlocked, READY, erased. -/
def chip : Chip := { Chip.start with sr3 := 0x64, lock := 0 }

/-- A link that delivers and a chip whose cycles end at once. -/
def env : Env :=
  { answers := .responder, link := List.replicate 22 .delivered, complete := [true], bytes := [0xAA, 0xBB, 0xCC]
    images := [⟨0xFF, 0x12, 0x34, 7⟩], draws := 0 }

/-- The block idle before the chip `c`. -/
def idle (c : Chip) : State := (State.reset.setChip c).setEnv env

/-- The chip `c` with the closed frame `f`. -/
def wire (f : List Byte) (c : Chip) : State := idle { c with closed := some f }

/-- The request `r` waiting at the idle block. -/
def asked (r : Request) (c : Chip) : State := (idle c).setInbox [r]

/-- An operation at a position of its pseudocode. -/
def running (pc : Nat) (stage : Stage) (ok : Bool) (rx : List Byte) (old : Byte) (c : Chip) : State :=
  ((idle c).setPhase (some ⟨pc, stage, ok, rx, old⟩)).setCs (stageLine stage)

/-- What `f` reads of the next state. -/
def next {α : Type} (o : Out) (f : State → α) : Option α :=
  match o with
  | .next s => some (f s)
  | .fault _ => none
  | .refused _ => none

/-- The bytes the newest exchange sent and received, and whether it succeeded. -/
def newest (s : State) : Option (List Byte × List Byte × Bool) :=
  match s.trace with
  | .x tx rx ok :: _ => some (tx, rx, ok)
  | _ => none

/-- `OK` and the ghost cause. -/
def ending (s : State) : Bool × Option Cause := (s.resp.ok, s.cause)

/-! ### Well-formedness and decoding -/

/-- R10: `LEN` above `LEN_MAX`. -/
theorem test_wf_len_max :
    Instr.wf { Config.Params.defaults with lenMax := some 4 } (.read 0 0 0 0 5) = false ∧
    Instr.wf { Config.Params.defaults with lenMax := some 4 } (.read 0 0 0 0 4) = true := by decide

/-- R85: a page-program frame with 257 data bytes. -/
theorem test_wf_page_program :
    Instr.wf Config.Params.defaults (.wirePp 0 0 0 (List.replicate 257 0)) = false ∧
    Instr.wf Config.Params.defaults (.wirePp 0 0 0 (List.replicate 256 0)) = true := by decide +kernel

/-- R10, R22, R202, R216: what is no instruction. -/
theorem test_decode_refuses :
    let p := Config.Params.defaults
    decode { p with lenMax := some 4 } (.request { Request.blank 6 with len := 5 }) = .error .lenAboveMax ∧
    decode p (.request { Request.blank 7 with len := 2, txbuf := [1] }) = .error .bufferMismatch ∧
    decode p (.frame []) = .error .emptyFrame ∧ decode p (.frame [0x00]) = .error .unknownOpcode ∧
    decode p (.frame [0x02, 0x01, 0x11]) = .error .shortFrame ∧ decode p (.frame [0x01]) = .error .shortFrame ∧
    decodeTableWord 8 0x9F = none := by decide

/-- R81, R84: the sixteen request codes, as the table's four bits. -/
theorem test_decode_requests :
    (List.range 16).map (decodeTableWord 8) = [.init, .statusRegWrite 0 0 0, .statusRegRead 0, .writeEnable,
      .volatileWriteEnable, .reset, .read 0 0 0 0 0, .pageProgram 0 0 0 0 [], .blockErase 0, .sectorErase 0 0, .chipErase,
      .blockLock 0, .blockUnlock 0, .reserved13, .reserved14, .reserved15].map some := by decide

/-- R81: operands, from the latch tuples of V20, V24, V30, V40, V50, V51, V60, V63. -/
theorem test_decode_operands :
    [(⟨1, 0, 0, 0, 0, 3, 0x04, 0x04, 0, []⟩ : Request), ⟨2, 0, 0, 0, 0, 1, 0, 0, 0, []⟩, ⟨6, 1, 1, 2, 3, 0, 0, 0, 3, []⟩,
      ⟨7, 1, 2, 3, 4, 0, 0, 0, 3, [2, 4, 6]⟩, ⟨8, 2, 0, 0, 0, 0, 0, 0, 0, []⟩, ⟨9, 1, 2, 0, 0, 0, 0, 0, 0, []⟩,
      ⟨11, 5, 0, 0, 0, 0, 0, 0, 0, []⟩, ⟨12, 5, 0, 0, 0, 0, 0, 0, 0, []⟩].map
      (fun r => (decode Config.Params.defaults (.request r)).toOption) =
    [.statusRegWrite 3 0x04 0x04, .statusRegRead 1, .read 1 1 2 3 3, .pageProgram 1 2 3 4 [2, 4, 6], .blockErase 2,
      .sectorErase 1 2, .blockLock 5, .blockUnlock 5].map some := by decide

/-- R88: the nineteen frames, with the default opcodes. -/
theorem test_decode_frames :
    [[0x06], [0x50], [0x66], [0x99], [0x03, 1, 2, 3, 0, 0], [0x02, 1, 2, 3, 7], [0xD8, 1, 2, 3], [0x20, 1, 2, 3], [0xC7],
      [0x36, 1, 2, 3], [0x39, 1, 2, 3], [0x3D, 1, 2, 3, 0], [0x98], [0x05, 0], [0x35, 0], [0x15, 0], [0x01, 9], [0x31, 9],
      [0x11, 9]].map (fun f => (decode Config.Params.defaults (.frame f)).toOption) =
    [.wireWren, .wireVwren, .wireRsten, .wireRst, .wireRead 1 2 3 2, .wirePp 1 2 3 [7], .wireBe 1 2 3, .wireSe 1 2 3,
      .wireCe, .wireBlockLock 1 2 3, .wireBlockUnlock 1 2 3, .wireRdlock 1 2 3 1, .wireGunlock, .wireRdsr1 1, .wireRdsr2 1,
      .wireRdsr3 1, .wireWrsr1 9, .wireWrsr2 9, .wireWrsr3 9].map some := by decide

/-- The table words of two rows, placed where the step fetches. -/
theorem test_with_fetch_word :
    next (step (State.reset.withFetchWord 8 0xD)) ending = some (false, some .illegalRequest) ∧
    next (step (State.reset.withFetchWord 8 0x50)) (·.chip.vsrEn) = some true := by decide

/-! ### Host operations: one step each -/

/-- V28: the status write of `init`. -/
theorem test_init :
    next (step (running 5 .send true [] 0x60 chip)) newest = some (some ([0x11, 0x64], [0xAA, 0xBB], true)) := by decide

/-- V20: the status write; V12: value bits outside the mask are ignored. -/
theorem test_status_reg_write :
    next (exec (.statusRegWrite 3 0x04 0x04) (running 4 .send true [] 0x60 chip)) newest =
      some (some ([0x11, 0x64], [0xAA, 0xBB], true)) ∧ maskedUpdate 0x00 0x04 0xFF = 0x04 := by decide

/-- V22: WEL cannot be set by a status write. -/
theorem test_status_reg_write_mismatch :
    next (exec (.statusRegWrite 1 0x02 0x02) (running 8 .judge true [0x00] 0 chip)) ending =
      some (false, some .statusVerifyMismatch) := by decide

/-- V24: a status read of a busy chip; V24b. -/
theorem test_status_reg_read :
    next (exec (.statusRegRead 1) (running 0 .judge true [0x03] 0 chip)) (fun t => (t.resp.ok, t.resp.rval)) =
      some (true, 0x03) ∧
    next (exec (.statusRegRead 0) (idle chip)) ending = some (false, some .illegalRequest) := by decide

/-- V25, V25b: WEL after the write-enable. -/
theorem test_write_enable :
    next (exec .writeEnable (running 2 .judge true [0x02] 0 chip)) ending = some (true, none) ∧
    next (exec .writeEnable (running 2 .judge true [0x00] 0 chip)) ending = some (false, some .latchVerifyFailure) := by
  decide

/-- V70, V71: a failed `[06]` exchange delivers nothing, or the byte. -/
theorem test_write_enable_transport :
    let s := running 1 .send true [] 0 chip
    next (exec .writeEnable (s.setEnv { env with link := [.busyAtEntry] })) (·.chip.frame) = some [] ∧
    next (exec .writeEnable (s.setEnv { env with link := [.rxTimeout 0] })) (·.chip.frame) = some [0x06] := by decide

/-- V25c. -/
theorem test_volatile_write_enable :
    next (exec .volatileWriteEnable (running 1 .send true [] 0 chip)) newest = some (some ([0x50], [0xAA], true)) := by decide

/-- V26, V27: WEL after the reset. -/
theorem test_reset :
    next (exec .reset (running 7 .judge true [0x00] 0 chip)) ending = some (true, none) ∧
    next (exec .reset (running 7 .judge true [0x02] 0 chip)) ending = some (false, some .resetVerifyFailure) := by decide

/-- V31: the data bytes of a read that wraps. -/
theorem test_read :
    next (exec (.read 255 15 15 255 2) (running 1 .recv true [] 0
      { chip with array := [(0, 0xC3), (0xFFFFFF, 0x5A)], frame := [0x03, 0xFF, 0xFF, 0xFF] })) newest =
      some (some ([0x00, 0x00], [0x5A, 0xC3], true)) := by decide

/-- V33, V34: a sector out of range; a read may cross its page. -/
theorem test_read_range :
    next (exec (.read 0 16 0 0 1) (idle chip)) ending = some (false, some .addressRangeError) ∧
    next (exec (.read 0 0 0 250 10) (idle chip)) (·.run) = some 1 := by decide

/-- V40: the program frame; V19: one that fails after five bytes. -/
theorem test_page_program :
    let s := running 4 .send true [] 0 chip
    next (exec (.pageProgram 1 1 1 0 [2, 4, 6]) s) (fun t => (t.chip.frame, (newest t).map (·.1))) =
      some ([2, 1, 0x11, 0, 2, 4, 6], some [2, 1, 0x11, 0, 2, 4, 6]) ∧
    next (exec (.pageProgram 1 1 1 0 [2, 4, 6]) (s.setEnv { env with link := [.txTimeout 5] }))
      (fun t => (t.chip.frame, t.phase.map (·.ok))) = some ([2, 1, 0x11, 0, 2], some false) := by decide

/-- V43 to V46, V49: the bounds. -/
theorem test_page_program_bounds :
    [(0, 255, 2), (0, 1, 256), (0, 0, 257), (16, 0, 1)].map (fun x : Byte × Byte × Nat =>
      next (exec (.pageProgram 0 0 x.1 x.2.1 (List.replicate x.2.2 0)) (idle chip)) ending) =
      List.replicate 4 (some (false, some .addressRangeError)) ∧
    next (exec (.pageProgram 0 0 0 255 [0x7E]) (idle chip)) (·.run) = some 1 := by decide +kernel

/-- V50. -/
theorem test_block_erase :
    next (exec (.blockErase 2) (running 4 .send true [] 0 chip)) (·.chip.frame) = some [0xD8, 2, 0, 0] := by decide

/-- V51, V53. -/
theorem test_sector_erase :
    next (exec (.sectorErase 1 1) (running 4 .send true [] 0 chip)) (·.chip.frame) = some [0x20, 1, 0x10, 0] ∧
    next (exec (.sectorErase 1 16) (idle chip)) ending = some (false, some .addressRangeError) := by decide

/-- V52. -/
theorem test_chip_erase :
    next (exec .chipErase (running 5 .low true [] 0 chip)) (·.trace) = some [.d 150000] := by decide

/-- V61, V66: only `LOCK_BIT` is looked at. -/
theorem test_block_lock :
    next (exec (.blockLock 5) (running 0 .judge true [0x01] 0 chip)) ending = some (false, some .lockStateConflict) ∧
    next (exec (.blockLock 5) (running 0 .judge true [0xFE] 0 chip)) (fun t => t.phase.map (·.pc)) = some (some 1) := by
  decide

/-- V63, V64. -/
theorem test_block_unlock :
    next (exec (.blockUnlock 5) (running 4 .send true [] 0 chip)) (·.chip.frame) = some [0x39, 5, 0, 0] ∧
    next (exec (.blockUnlock 5) (running 0 .judge true [0x00] 0 chip)) ending = some (false, some .lockStateConflict) := by
  decide

/-- V74, and the two other reserved codes (R84). -/
theorem test_reserved :
    [Instr.reserved13, .reserved14, .reserved15].map (fun i => next (exec i (idle chip)) ending) =
      List.replicate 3 (some (false, some .illegalRequest)) := by decide

/-- V72, V73: a poll that fails, under the two settings of `POLL_FAIL`. -/
theorem test_poll_fail :
    let s := running 0 .judge false [] 0 chip
    next (exec .writeEnable s) ending = some (false, some .transportFailure) ∧
    next (exec .writeEnable { s with cfg := { s.cfg with pollFail := .retry } }) (·.phase) = some (some (phaseAt 0 0)) := by
  decide

/-! ### Wire commands: one step each -/

/-- V25, V25c. -/
theorem test_wire_enables :
    next (step (wire [0x06] chip)) (·.chip.sr1) = some 0x02 ∧
    next (step (wire [0x50] chip)) (fun t => (t.chip.sr1, t.chip.vsrEn)) = some (0x00, true) := by decide

/-- R215, R202. -/
theorem test_wire_reset_sequence :
    next (step (wire [0x66] chip)) (·.chip.rstEn) = some true ∧
    next (step (wire [0x99] { chip with sr1 := 0x02, vsrEn := true, rstEn := true }))
      (fun t => (t.chip.sr1, t.chip.sr2, t.chip.vsrEn, t.chip.rstEn)) = some (0xFC, 0x12, false, false) ∧
    next (step (wire [0x99] { chip with sr1 := 0x02 })) (·.chip.sr1) = some 0x02 ∧
    next (step (wire [0x06] { chip with rstEn := true })) (·.chip.rstEn) = some false := by decide

/-- V42, V41: AND into the array; a locked block only loses WEL. -/
theorem test_wire_pp :
    let c := { chip with sr1 := 0x02, array := [(0, 0xF0)] }
    next (step (wire [0x02, 0, 0, 0, 0x0F] c)) (fun t => (t.chip.array.read 0, t.chip.sr1)) = some (0x00, 0x03) ∧
    next (step (wire [0x02, 0, 0, 0, 0x0F] { c with lock := 1 })) (fun t => (t.chip.array.read 0, t.chip.sr1)) =
      some (0xF0, 0x00) := by decide

/-- R209: the address wraps inside the page; V48: no data, no effect. -/
theorem test_wire_pp_edges :
    let c := { chip with sr1 := 0x02 }
    next (step (wire [0x02, 0, 1, 0xFF, 1, 2] c)) (·.chip.array) = some [(0x100, 2), (0x1FF, 1)] ∧
    next (step (wire [0x02, 0, 0, 0] c)) (·.chip.sr1) = some 0x02 := by decide

/-- V50, V55. -/
theorem test_wire_be :
    let c := { chip with sr1 := 0x02, array := [(0x1FFFF, 1), (0x20000, 2), (0x2FFFF, 3), (0x30000, 4)] }
    next (step (wire [0xD8, 2, 9, 9] c)) (fun t => (t.chip.array, t.chip.sr1)) = some ([(0x1FFFF, 1), (0x30000, 4)], 0x03) ∧
    next (step (wire [0xD8, 2, 0, 0] { c with lock := 4 })) (fun t => (t.chip.array.length, t.chip.sr1)) =
      some (4, 0x00) := by decide

/-- V51. -/
theorem test_wire_se :
    next (step (wire [0x20, 1, 0x1F, 0] { chip with sr1 := 0x02, array := [(0x10FFF, 1), (0x11000, 2), (0x12000, 3)] }))
      (·.chip.array) = some [(0x10FFF, 1), (0x12000, 3)] := by decide

/-- V52; R211: one locked block is enough to refuse. -/
theorem test_wire_ce :
    let c := { chip with sr1 := 0x02, array := [(5, 1)] }
    next (step (wire [0xC7] c)) (·.chip.array) = some [] ∧
    next (step (wire [0xC7] { c with lock := 1#256 <<< 255 })) (fun t => (t.chip.array, t.chip.sr1)) =
      some ([(5, 1)], 0x00) := by decide +kernel

/-- V60, V63, V67. -/
theorem test_wire_locks :
    next (step (wire [0x36, 5, 0, 0] { chip with sr1 := 0x02 })) (fun t => (t.chip.lock, t.chip.sr1)) = some (32, 0) ∧
    next (step (wire [0x39, 5, 0, 0] { chip with sr1 := 0x02, lock := 33 })) (·.chip.lock) = some 1 ∧
    next (step (wire [0x36, 5, 0, 0] { chip with sr1 := 0x02, sr3 := 0x60 })) (fun t => (t.chip.lock, t.chip.sr1)) =
      some (0, 2) := by decide

/-- V28. -/
theorem test_wire_gunlock :
    next (step (wire [0x98] { chip with sr1 := 0x02, lock := BitVec.allOnes 256 })) (fun t => (t.chip.lock, t.chip.sr1)) =
      some (0, 0) := by decide

/-- R206, R210, R213: the reads change nothing; the bytes they answer (R203). -/
theorem test_wire_reads :
    [[0x05, 0], [0x35, 0], [0x15, 0], [0x03, 0, 0, 0, 0], [0x3D, 5, 0, 0, 0]].map
      (fun f => next (step (wire f chip)) (·.chip)) = List.replicate 5 (some chip) ∧
    [[0x05], [0x35], [0x15], [0x3D, 5, 0, 0], [0x03, 0, 0, 7]].map
      (fun f => (answerByte Config.Params.defaults ⟨{ chip with sr2 := 0xA5, lock := 32, array := [(7, 9)], frame := f },
        env⟩).1) = [0x00, 0xA5, 0x64, 0x01, 0x09] := by decide

/-- V22, V23, V20: the three status writes; one without an enable is ignored. -/
theorem test_wire_wrsr :
    let c := { chip with vsrEn := true, sr3 := 0x60 }
    next (step (wire [0x01, 0x02] c)) (·.chip.sr1) = some 0x01 ∧
    next (step (wire [0x31, 0xA5] c)) (fun t => (t.chip.sr2, t.chip.sr1)) = some (0xA5, 0x01) ∧
    next (step (wire [0x11, 0x64] c)) (fun t => (t.chip.sr3, t.chip.sr1)) = some (0x64, 0x01) ∧
    next (step (wire [0x11, 0x64] { c with vsrEn := false })) (·.chip.sr3) = some 0x60 := by decide

/-! ### Witnesses: each meets the hypotheses of the statement it is named after, clause by clause -/

theorem witness_DecodeEncodeRoundTrip :
    Config.OpcodeTable.defaults.Distinct ∧ Instr.wf { Config.Params.defaults with lenMax := some 0 } (.read 0 0 0 0 0) = true ∧
    Instr.wf Config.Params.defaults (.wirePp 1 2 3 [4]) = true := by decide

theorem witness_ShortAndOddFrames :
    let t := (wire [0x06] chip).cfg.ops
    (wire [] chip).chip.closed = some [] ∧ (wire [0x06] chip).chip.closed = some [0x06] ∧ t.lookup 0x00 = none ∧ t.lookup 0x02 = some .pp ∧
    [0x03, 0x02, 0xD8, 0x20, 0x36, 0x39, 0x3D].map t.lookup =
      [WireOp.read, .pp, .be, .se, .blockLock, .blockUnlock, .rdlock].map some ∧
    [0x01, 0x31, 0x11].map t.lookup = [WireOp.wrsr1, .wrsr2, .wrsr3].map some ∧
    [0x06, 0x50, 0x66, 0x99, 0xC7, 0x98].map t.lookup =
      [WireOp.wren, .vwren, .rsten, .rst, .ce, .gunlock].map some := by decide

theorem witness_StepRunsDecodedInstruction :
    ((wire [0x06] chip).chip.closed = some [0x06] ∧ decode (wire [0x06] chip).cfg (.frame [0x06]) = .ok .wireWren) ∧
    (let s := running 0 .low true [] 0 chip
     s.chip.closed = none ∧ resetAsserted s = false ∧ s.phase = some (phaseAt 0 0) ∧
       decode s.cfg (.request s.req) = .ok .init) ∧
    (let s := asked (.blank 3) chip
     s.chip.closed = none ∧ resetAsserted s = false ∧ s.phase = none ∧ s.inbox = [.blank 3] ∧
       decode s.cfg (.request (.blank 3)) = .ok .writeEnable) ∧
    (let s := idle chip
     s.chip.closed = none ∧ resetAsserted s = false ∧ s.phase = none ∧ s.inbox = []) := by decide

theorem witness_AcceptedRequestStarts :
    (idle chip).phase = none ∧ (15 : Byte).toNat ≤ 15 ∧ (255 : Byte).toNat + 1 ≤ 256 ∧ (1 : BitVec 2) ≠ 0 := by decide

theorem witness_InvalidRequestsRejected :
    15 < (16 : Byte).toNat ∧ 256 < (List.replicate 257 (0 : Byte)).length ∧ 256 < (255 : Byte).toNat + 2 := by
  decide +kernel

theorem witness_OperationsSendTheirCommands : [1, 2, 3].map srOfReg = [SrNum.one, .two, .three].map some := by decide

theorem witness_LatchVerifiedOperationsAnswer :
    (Judging 2 [0x02] (running 2 .judge true [0x02] 0 chip) ∧ (0x02 : Byte).getLsbD 1 = true) ∧
    (Judging 2 [0xFD] (running 2 .judge true [0xFD] 0 chip) ∧ (0xFD : Byte).getLsbD 1 = false) ∧
    Judging 7 [0xFD] (running 7 .judge true [0xFD] 0 chip) ∧ Judging 7 [0x02] (running 7 .judge true [0x02] 0 chip) ∧
    ((15 : Byte).toNat ≤ 15 ∧ (255 : Byte).toNat + [(0x7E : Byte)].length ≤ 256) ∧
    (∀ v ∈ [(0x02 : Byte), 0xFD], ∀ pc ∈ [3, 12], Judging pc [v] (running pc .judge true [v] 0x60 chip) ∧
      (running pc .judge true [v] 0x60 chip).phase = some ⟨pc, .judge, true, [v], 0x60⟩) :=
  ⟨⟨⟨0, rfl⟩, rfl⟩, ⟨⟨0, rfl⟩, rfl⟩, ⟨0, rfl⟩, ⟨0, rfl⟩, by decide, fun _ _ _ _ => ⟨⟨0x60, rfl⟩, rfl⟩⟩

theorem witness_FrameEndedOperationsAnswer :
    Judging 1 [] (running 1 .judge true [] 0 chip) ∧ Judging 13 [] (running 13 .judge true [] 0 chip) ∧
    Judging 4 [] (running 4 .judge true [] 0 chip) := ⟨⟨0, rfl⟩, ⟨0, rfl⟩, ⟨0, rfl⟩⟩

theorem witness_ReadsAnswerTheirBytes :
    (3 : BitVec 2) ≠ 0 ∧ (15 : Byte).toNat ≤ 15 ∧ Judging 0 [0x03] (running 0 .judge true [0x03] 0 chip) ∧
    Judging 1 [0x5A, 0xC3] (running 1 .judge true [0x5A, 0xC3] 0 chip) :=
  ⟨by decide, by decide, ⟨0, rfl⟩, ⟨0, rfl⟩⟩

theorem witness_StatusRegWriteAnswers :
    (1 : BitVec 2) ≠ 0 ∧ Judging 8 [0x64] (running 8 .judge true [0x64] 0 chip) ∧
    (0x64 : Byte) &&& 0x04 = 0x04 &&& 0x04 ∧ (0x00 : Byte) &&& 0x02 ≠ 0x02 &&& 0x02 ∧
    (Judging 9 [0x04] (running 9 .judge true [0x04] 0x60 chip) ∧ (0x04 : Byte).getLsbD 2 = true) ∧
    (Judging 9 [0xFB] (running 9 .judge true [0xFB] 0x60 chip) ∧ (0xFB : Byte).getLsbD 2 = false) ∧
    (running 9 .judge true [0xFB] 0x60 chip).phase = some ⟨9, .judge, true, [0xFB], 0x60⟩ :=
  ⟨by decide, ⟨0, rfl⟩, by decide, by decide, ⟨⟨0x60, rfl⟩, rfl⟩, ⟨⟨0x60, rfl⟩, rfl⟩, rfl⟩

theorem witness_PageProgramAnswers :
    (15 : Byte).toNat ≤ 15 ∧ (255 : Byte).toNat + [(0x7E : Byte)].length ≤ 256 ∧
    Judging 6 [0x7E] (running 6 .judge true [0x7E] 0 chip) ∧ Judging 6 [0xFF] (running 6 .judge true [0xFF] 0 chip) :=
  ⟨by decide, by decide, ⟨0, rfl⟩, ⟨0, rfl⟩⟩

theorem witness_EraseAnswers :
    (15 : Byte).toNat ≤ 15 ∧ (0xFD : Byte).getLsbD 1 = false ∧ (0x02 : Byte).getLsbD 1 = true ∧
    Judging 6 [0xFD] (running 6 .judge true [0xFD] 0 chip) ∧ Judging 7 [0xFD] (running 7 .judge true [0xFD] 0 chip) ∧
    Judging 6 [0x02] (running 6 .judge true [0x02] 0 chip) ∧ Judging 7 [0x02] (running 7 .judge true [0x02] 0 chip) :=
  ⟨by decide, rfl, rfl, ⟨0, rfl⟩, ⟨0, rfl⟩, ⟨0, rfl⟩, ⟨0, rfl⟩⟩

theorem witness_LockStateConflictRefused :
    (Judging 0 [0x01] (running 0 .judge true [0x01] 0 chip) ∧
      (0x01 : Byte).getLsbD (running 0 .judge true [0x01] 0 chip).cfg.lockBit = true) ∧
    (Judging 0 [0xFE] (running 0 .judge true [0xFE] 0 chip) ∧
      (0xFE : Byte).getLsbD (running 0 .judge true [0xFE] 0 chip).cfg.lockBit = false) :=
  ⟨⟨⟨0, rfl⟩, rfl⟩, ⟨0, rfl⟩, rfl⟩

theorem witness_FirstFailureEndsOperation :
    let p := Config.Params.defaults
    isHost .writeEnable = true ∧ rejectCause .writeEnable = none ∧
    (running 1 .judge false [] 0 chip).phase = some ⟨1, .judge, false, [], 0⟩ ∧
    (hostSteps p 0 .writeEnable)[1]? = some (.send [0x06]) ∧ stageFits (.send [0x06]) .judge ∧
    (hostSteps p 0 .writeEnable)[0]? = some (.poll 0x05 0) ∧ stageFits (.poll 0x05 0) .judge ∧
    p.pollFail = .abort ∧ { p with pollFail := .retry }.pollFail = .retry :=
  ⟨rfl, rfl, rfl, rfl, by simp [stageFits], rfl, trivial, rfl, rfl⟩

theorem witness_PollRepeatsUntilClear :
    let s := running 0 .judge true [0x01] 0 chip
    isHost (.blockErase 0) = true ∧ rejectCause (.blockErase 0) = none ∧
    s.phase = some ⟨0, .judge, true, [0x01], 0⟩ ∧ (hostSteps s.cfg 0 (.blockErase 0))[0]? = some (.poll 0x05 0) ∧
    ([0x01].headD 0 : Byte).getLsbD 0 = true ∧ ([0xFE].headD 0 : Byte).getLsbD 0 = false ∧
    0 + 1 < (hostSteps s.cfg 0 (.blockErase 0)).length ∧ (hostSteps s.cfg 0 (.blockErase 0))[6]? = some (.poll 0x05 1) ∧
    6 + 1 = (hostSteps s.cfg 0 (.blockErase 0)).length ∧
    next (exec (.blockErase 0) s) (·.phase) = some (some (phaseAt 0 0)) := by decide

theorem witness_BracketRunsItsExchanges :
    let m := Micro.poll 0x05 0
    isHost .writeEnable = true ∧ rejectCause .writeEnable = none ∧
    (hostSteps Config.Params.defaults 0 .writeEnable)[0]? = some m ∧ sentBytes m = some [0x05] ∧ receiveCount m = some 1 ∧
    (running 0 .low true [] 0 chip).csN = true ∧ (running 0 .send true [] 0 chip).csN = false ∧
    (running 0 .recv true [] 0 chip).csN = false ∧ (running 0 .high true [] 0 chip).csN = false ∧
    (running 0 .low true [] 0 chip).phase = some (phaseAt 0 0) := by decide

theorem witness_FixedDelays :
    let p := Config.Params.defaults
    srOfReg 3 = some .three ∧ (running 5 .low true [] 0 chip).phase = some (phaseAt 5 0) ∧
    (running 6 .low true [] 0 chip).phase = some (phaseAt 6 0) ∧
    [(Instr.statusRegWrite 3 4 4, 5), (.init, 6), (.reset, 6), (.chipErase, 5)].map
      (fun x => (rejectCause x.1, (hostSteps p 0 x.1)[x.2]?)) =
      [Micro.delay 1, .delay 1, .delay 30, .delay 150000].map fun m => (none, some m) := by decide

/-- A step with a boundary event; OneBoundaryEventPerStep, HostStepFrame and ResponseLatchWrittenAtResp. -/
theorem witness_host_step :
    let s := running 0 .low true [] 0 chip
    ∃ t, isHost .writeEnable = true ∧ exec .writeEnable s = .next t ∧ s.phase ≠ none ∧ t.phase ≠ none ∧
      chipBusy s.chip = false := ⟨_, rfl, rfl, by decide, by decide, by decide⟩

/-- HostStepFrame's last clauses: BUSY and WEL set before and after. -/
theorem witness_HostStepFrame :
    let s := running 0 .low true [] 0 { chip with sr1 := 0x03 }
    ∃ t, exec .writeEnable s = .next t ∧ chipBusy t.chip = true ∧ chipWel t.chip = true :=
  ⟨_, rfl, by decide, by decide⟩

theorem witness_FailureExit :
    let s := running 2 .judge true [0x00] 0 chip
    ∃ t, isHost .writeEnable = true ∧ s.phase ≠ none ∧ exec .writeEnable s = .next t ∧ t.phase = none ∧
      t.resp.ok = false := ⟨_, rfl, by decide, rfl, rfl, rfl⟩

theorem witness_SelfVerifyingOperations :
    [(Instr.writeEnable, 2, [0x02]), (.reset, 7, [0x00]), (.statusRegWrite 3 0x04 0x04, 8, [0x64]),
      (.pageProgram 0 0 0 0 [0x7E], 6, [0x7E])].map
      (fun x : Instr × Nat × List Byte =>
        next (exec x.1 (running x.2.1 .judge true x.2.2 0 chip)) fun t => (t.phase, t.resp.ok)) =
      List.replicate 4 (some (none, true)) := by decide

/-- A state every run may be in: the first exchange of a running `write_enable`. -/
def midway : State :=
  { running 0 .send true [] 0 chip with req := .blank 3, trace := [.cs false, .req (.blank 3)] }

theorem witness_StepKeepsBracketDiscipline : RunInv midway ∧ ∃ t, step midway = .next t := by
  refine ⟨⟨⟨rfl, by decide, by decide, (by decide : scanTrace midway.trace = some (some 0))⟩, ?_⟩, _, rfl⟩
  intro ph h
  obtain rfl := Option.some.inj h
  exact ⟨.writeEnable, .poll 0x05 0, rfl, rfl, rfl, trivial⟩

theorem witness_DisciplinedBlockNeverStops :
    RunInv (idle chip) ∧ (∀ r rest, (idle chip).inbox = r :: rest → ∃ i, decode (idle chip).cfg (.request r) = .ok i) :=
  ⟨⟨⟨rfl, by decide, by decide, rfl⟩, nofun⟩, nofun⟩

theorem witness_StepKeepsMemoryCanonical :
    let s := wire [0x02, 0, 0, 0, 0x0F] { chip with sr1 := 0x02, array := [(5, 1), (0xFFFFFF, 2)] }
    Memory.wf s.chip.array ∧ ∃ t, step s = .next t := ⟨by decide, _, rfl⟩

theorem witness_BlockResetSparesChip :
    let s := running 0 .send true [] 0 chip
    (s.setRstLine [true]).chip.closed = none ∧ resetAsserted (s.setRstLine [true]) = true := by decide

theorem witness_LatchConstantWhileRunning :
    ∃ t, step midway = .next t ∧ midway.phase ≠ none ∧ t.phase ≠ none := ⟨_, rfl, by decide, by decide⟩

theorem witness_ChipStateChangedOnlyBy :
    let c := { chip with sr1 := 0x02, vsrEn := true, rstEn := true }
    let busy := running 0 .send true [] 0 { c with sr1 := 0x03 }
    next (exec (.wirePp 0 0 0 [7]) (idle c)) (fun t => decide (t.chip.array ≠ c.array)) = some true ∧
    next (exec (.wireBlockLock 255 0 0) (idle c)) (fun t => decide (t.chip.lock ≠ c.lock)) = some true ∧
    next (exec (.wireWrsr2 9) (idle c)) (fun t => decide (t.chip.sr2 ≠ c.sr2)) = some true ∧
    next (exec (.wireWrsr3 9) (idle c)) (fun t => decide (t.chip.sr3 ≠ c.sr3)) = some true ∧
    next (exec (.wireWrsr1 0x80) (idle c)) (fun t => t.chip.sr1.getLsbD 7) = some true ∧
    (chipBusy c = false ∧ next (exec (.wireWrsr2 9) (idle c)) (fun t => chipBusy t.chip) = some true) ∧
    (chipWel chip = false ∧ next (exec .wireWren (idle chip)) (fun t => chipWel t.chip) = some true) ∧
    (chipWel c = true ∧ next (exec (.wireBlockLock 5 0 0) (idle c)) (fun t => chipWel t.chip) = some false) ∧
    next (exec .writeEnable busy) (fun t => (chipWel t.chip, t.chip.vsrEn)) = some (false, false) ∧
    (chip.vsrEn = false ∧ next (exec .wireVwren (idle chip)) (·.chip.vsrEn) = some true) ∧
    (chip.rstEn = false ∧ next (exec .wireRsten (idle chip)) (·.chip.rstEn) = some true) ∧
    next (exec .wireWren (idle c)) (·.chip.rstEn) = some false := by decide

theorem witness_OnlyCompletionClearsBusy :
    let s := running 0 .send true [] 0 { chip with sr1 := 0x03 }
    ∃ t, exec .writeEnable s = .next t ∧ chipBusy s.chip = true ∧ chipBusy t.chip = false :=
  ⟨_, rfl, by decide, by decide⟩

theorem witness_StuckChipHangs :
    let s := (running 0 .low true [] 0 { chip with sr1 := 0x01 }).setReq (.blank 3)
    let e := { env with complete := List.replicate 14 false }
    decode s.cfg (.request s.req) = .ok .writeEnable ∧ rejectCause .writeEnable = none ∧
    s.phase = some (phaseAt 0 0) ∧ (hostSteps s.cfg 0 .writeEnable)[0]? = some (.poll s.cfg.ops.rdsr1 0) ∧
    s.csN = true ∧ s.chip.closed = none ∧ s.rstLine = [] ∧ s.env.answers = .responder ∧ s.cfg.ops.Distinct ∧
    s.chip.sr1.getLsbD 0 = true ∧ LinkDelivers (2 * 2) (s.setEnv e) ∧ chipBusy s.chip = true ∧
    ∃ rest, e.complete = List.replicate (7 * 2) false ++ rest :=
  ⟨rfl, rfl, rfl, rfl, rfl, rfl, rfl, rfl, by decide, rfl, ⟨List.replicate 18 .delivered, rfl⟩, rfl, [], rfl⟩

theorem witness_MaskedUpdate :
    let s := running 4 .send true [] 0x60 chip
    let u := running 5 .send true [] 0x60 chip
    (∃ reg, srOfReg reg = some .three ∧ Instr.statusRegWrite 3 0x0C 0x04 = .statusRegWrite reg 0x0C 0x04) ∧
    (s.phase = some ⟨4, .send, true, [], 0x60⟩ ∧ s.csN = false) ∧ (u.phase = some ⟨5, .send, true, [], 0x60⟩ ∧ u.csN = false) ∧
    (maskedUpdate 0xFF 0x0C 0x04).getLsbD 7 = true ∧ Judging 1 [0x60] (running 1 .judge true [0x60] 0 chip) ∧
    Judging 2 [0x60] (running 2 .judge true [0x60] 0 chip) ∧
    (next (exec .init u) (·.phase.map (·.old)) = some (some 0x60)) ∧
    s.cfg.ops.Distinct ∧ rejectCause .init = none ∧ Micro.send [0x11, 0x64] ∈ hostSteps s.cfg 0x60 .init ∧
    sentBytes (.send [0x11, 0x64]) = some [0x11, 0x64] ∧ [0x11, 0x64].head? = some (wrsrOp s.cfg.ops .three) :=
  ⟨⟨3, rfl, rfl⟩, ⟨rfl, rfl⟩, ⟨rfl, rfl⟩, rfl, ⟨0, rfl⟩, ⟨0, rfl⟩, by decide, by decide, rfl, by decide, rfl, rfl⟩

theorem witness_AddressFieldsAndBytes : (15 : Byte).toNat ≤ 15 ∧ (255 : Byte).toNat + 0 < 256 := by decide

theorem witness_RegionProtectedIffSomeByteIs :
    0 < 4096 ∧ regionProtected { chip with lock := 2 } 0x1F000 4096 = true ∧
    regionProtected { chip with lock := 2 } 0x20000 4096 = false ∧ protectedAt { chip with lock := 2 } 0x1FFFF = true := by
  decide

theorem witness_ExchangeDeliversPrefix :
    failedAfter (.rxTimeout 0) 1 = some 1 ∧ failedAfter (.rxTimeout 1) 1 = none ∧ failedAfter .busyAtEntry 1 = some 0 ∧
    0 ≤ ([] : List Byte).length ∧ failedAfter .busyAtEntry 0 = some 0 ∧ 3 ≤ [(1 : Byte), 2, 3].length := by decide

theorem witness_ResponderAnswers :
    let t := Config.OpcodeTable.defaults
    t.Distinct ∧ env.answers = .responder ∧ { chip with frame := [rdsrOp t .two] }.frame = [rdsrOp t .two] ∧
    { chip with frame := [t.read, 0xFF, 0xFF, 0xFF] }.frame = t.read :: 0xFF :: 0xFF :: 0xFF :: [] ∧
    { chip with frame := [t.rdlock, 5, 0, 0] }.frame = t.rdlock :: 5 :: 0 :: 0 :: [] ∧
    chipBusy chip = false ∧ chip.frame = [] ∧ chipBusy { chip with sr1 := 0x01 } = true ∧
    ([t.read, t.rdlock, t.pp, 0x00].all fun op => [SrNum.one, .two, .three].all fun r => op != rdsrOp t r) = true ∧
    [(1 : Byte), 2].length < 3 ∧ t.pp ≠ t.read ∧ t.pp ≠ t.rdlock := by decide

theorem witness_ReadReturnsArrayInOrder :
    Config.OpcodeTable.defaults.Distinct ∧ env.answers = .responder ∧ chipBusy chip = false ∧
    { chip with frame := [0x03, 0xFF, 0xFF, 0xFF] }.frame = [Config.OpcodeTable.defaults.read, 0xFF, 0xFF, 0xFF] := by decide

theorem witness_CompletionClearsLatches :
    chipBusy chip = false ∧ chipBusy { chip with sr1 := 0xFF } = true ∧ nextComplete env = true ∧
    nextComplete { env with complete := [false] } = false := by decide

theorem witness_WireWriteEnable : chipBusy chip = false ∧ chipBusy { chip with sr1 := 0x01 } = true := by decide

theorem witness_WireReadsChangeNothing :
    Instr.wireRdlock 5 0 0 1 ∈ [Instr.wireRdsr1 1, .wireRdsr2 1, .wireRdsr3 1, .wireRead 5 0 0 1, .wireRdlock 5 0 0 1] := by
  decide

theorem witness_WireStatusWrite :
    (chipBusy chip = false ∧ chipWel chip = false ∧ chip.vsrEn = false) ∧ chipBusy { chip with sr1 := 0x01 } = true ∧
    chipWel { chip with sr1 := 0x02 } = true ∧ { chip with vsrEn := true }.vsrEn = true := by decide

theorem witness_WirePageProgram :
    let c := { chip with sr1 := 0x02, array := [(0x1FF, 0xF0)] }
    Memory.wf c.array ∧ [(1 : Byte), 2].length ≤ 256 ∧ chipBusy { c with sr1 := 0x03 } = true ∧ chipWel chip = false ∧
    chipBusy c = false ∧ chipWel c = true ∧ [(1 : Byte), 2] ≠ [] ∧ protectedAt { c with lock := 1 } (headerAddr 0 1 0xFF) = true ∧
    protectedAt c (headerAddr 0 1 0xFF) = false := by decide

theorem witness_WireErase :
    let c := { chip with sr1 := 0x02 }
    chipWel chip = false ∧ chipBusy c = false ∧ chipWel c = true ∧
    regionProtected { c with lock := 1#256 <<< 255 } (255 * 65536) 65536 = true ∧
    regionProtected c (255 * 65536 + 15 * 4096) 4096 = false ∧ regionProtected c 0 16777216 = false := by decide +kernel

theorem witness_WireLockCommands :
    let ok := fun c : Chip => !chipBusy c && chipWel c && chipWps c
    ok chip = false ∧ ok { chip with sr1 := 0x02 } = true := by decide

theorem witness_WireResetCommands :
    chipBusy chip = false ∧ chip.rstEn = false ∧ { chip with rstEn := true }.rstEn = true := by decide

theorem witness_BusyChipIgnoresCommands :
    isHost .wireRsten = false ∧ chipBusy (idle { chip with sr1 := 0x01, rstEn := true }).chip = true := by decide

/-- Requests of the runs, ready at the host port. -/
theorem ready {r : Request} {i : Instr} {c : Chip} (hd : decode Config.Params.defaults (.request r) = .ok i)
    (hc : c.closed = none) (hf : c.frame = []) (hb : chipBusy c = false) : ReadyFor i (asked r c) :=
  ⟨⟨⟨r, rfl, hd⟩, rfl, rfl, rfl, hc, hf, rfl, (by decide : Config.OpcodeTable.defaults.Distinct)⟩, hb⟩

/-- The link and the chip's cycle, as the runs ask. -/
theorem witness_environment (r : Request) (c : Chip) :
    LinkDelivers 22 (asked r c) ∧ LinkDelivers 2 (asked r c) ∧ CycleEnds (asked r c) :=
  ⟨⟨[], rfl⟩, ⟨List.replicate 20 .delivered, rfl⟩, ⟨[], rfl⟩⟩

theorem witness_WriteEnableRun : ReadyFor .writeEnable (asked (.blank 3) chip) ∧ LinkDelivers 5 (asked (.blank 3) chip) :=
  ⟨ready rfl rfl rfl rfl, List.replicate 17 .delivered, rfl⟩

theorem witness_VolatileWriteEnableRun :
    ReadyFor .volatileWriteEnable (asked (.blank 4) chip) ∧ LinkDelivers 3 (asked (.blank 4) chip) :=
  ⟨ready rfl rfl rfl rfl, List.replicate 19 .delivered, rfl⟩

theorem witness_StatusRegReadRun :
    let s := asked { Request.blank 2 with reg := 2 } { chip with sr1 := 0x03 }
    let u := s.setEnv { env with complete := List.replicate 8 false }
    srOfReg 2 = some .two ∧ RequestReady (.statusRegRead 2) s ∧ LinkDelivers 2 s ∧ chipBusy s.chip = true ∧
    RequestReady (.statusRegRead 2) u ∧ LinkDelivers 2 u ∧ ∃ rest, u.env.complete = List.replicate 8 false ++ rest :=
  have hd : Config.OpcodeTable.defaults.Distinct := by decide
  ⟨rfl, ⟨⟨_, rfl, rfl⟩, rfl, rfl, rfl, rfl, rfl, rfl, hd⟩, ⟨List.replicate 20 .delivered, rfl⟩, rfl,
    ⟨⟨_, rfl, rfl⟩, rfl, rfl, rfl, rfl, rfl, rfl, hd⟩, ⟨List.replicate 20 .delivered, rfl⟩, [], rfl⟩

theorem witness_StatusRegWriteRun :
    let r := { Request.blank 1 with reg := 1, mask := 0xFC, value := 0xFF }
    srOfReg 1 = some .one ∧ roMask (asked r chip).cfg .one &&& 0xFC = 0 ∧ (0xFC : Byte).getLsbD 0 = false ∧
    (0xFC : Byte).getLsbD 1 = false ∧ ReadyFor (.statusRegWrite 1 0xFC 0xFF) (asked r chip) ∧
    LinkDelivers 14 (asked r chip) ∧ CycleEnds (asked r chip) :=
  ⟨rfl, by decide, rfl, rfl, ready rfl rfl rfl rfl, ⟨List.replicate 8 .delivered, rfl⟩, [], rfl⟩

theorem witness_ResetRun : ReadyFor .reset (asked (.blank 5) chip) ∧ LinkDelivers 11 (asked (.blank 5) chip) :=
  ⟨ready rfl rfl rfl rfl, List.replicate 11 .delivered, rfl⟩

theorem witness_InitRun :
    (asked (.blank 0) .start).cfg.ro3.getLsbD 2 = false ∧ ReadyFor .init (asked (.blank 0) .start) ∧
    LinkDelivers 22 (asked (.blank 0) .start) ∧ CycleEnds (asked (.blank 0) .start) :=
  ⟨rfl, ready rfl rfl rfl rfl, ⟨[], rfl⟩, [], rfl⟩

theorem witness_ReadRun :
    let r := { Request.blank 6 with block := 255, sector := 15, page := 15, offset := 255, len := 2 }
    ReadyFor (.read 255 15 15 255 2) (asked r chip) ∧ LinkDelivers 4 (asked r chip) :=
  ⟨ready rfl rfl rfl rfl, List.replicate 18 .delivered, rfl⟩

theorem witness_PageProgramRun :
    let r := { Request.blank 7 with offset := 255, len := 1, txbuf := [0x7E] }
    let s := asked r chip
    (255 : Byte).toNat + [(0x7E : Byte)].length ≤ 256 ∧ Memory.wf s.chip.array ∧
    protectedAt (setWel true s.chip) (linearAddr 0 0 0 255) = false ∧
    (∀ k : Nat, k < 1 → s.chip.array.read (linearAddr 0 0 0 255 + k) = 0xFF) ∧
    ReadyFor (.pageProgram 0 0 0 255 [0x7E]) s ∧ LinkDelivers 12 s ∧ CycleEnds s :=
  ⟨by decide, by decide, by decide, by decide, ready rfl rfl rfl rfl, ⟨List.replicate 10 .delivered, rfl⟩, [], rfl⟩

/-- An unlocked chip protects no byte while WPS = 1. -/
theorem unlocked (a : Nat) : protectedAt (setWel true chip) a = false := by
  have h : chipWps (setWel true chip) = true := by decide
  have hl : (setWel true chip).lock = 0#256 := rfl
  simp [protectedAt, h, lockBitOf, hl]

theorem witness_EraseRun :
    (15 : Byte).toNat ≤ 15 ∧ (∀ x, protectedAt (setWel true chip) x = false) ∧
    ReadyFor (.blockErase 255) (asked { Request.blank 8 with block := 255 } chip) ∧
    ReadyFor (.sectorErase 255 15) (asked { Request.blank 9 with block := 255, sector := 15 } chip) ∧
    ReadyFor .chipErase (asked (.blank 10) chip) ∧ LinkDelivers 12 (asked (.blank 10) chip) :=
  ⟨by decide, unlocked, ready rfl rfl rfl rfl, ready rfl rfl rfl rfl, ready rfl rfl rfl rfl,
    List.replicate 10 .delivered, rfl⟩

theorem witness_ProtectedEraseConfirmedNotVerified :
    let c := { chip with lock := 2 }
    0x1FFFF < 65536 + 65536 ∧ 0x1F000 ≤ 0x1FFFF ∧ protectedAt (setWel true c) 0x1FFFF = true ∧
    ReadyFor (.blockErase 1) (asked { Request.blank 8 with block := 1 } c) ∧
    ReadyFor (.sectorErase 1 15) (asked { Request.blank 9 with block := 1, sector := 15 } c) ∧
    ReadyFor .chipErase (asked (.blank 10) c) ∧ LinkDelivers 12 (asked (.blank 10) c) :=
  ⟨by decide, by decide, by decide, ready rfl rfl rfl rfl, ready rfl rfl rfl rfl, ready rfl rfl rfl rfl,
    List.replicate 10 .delivered, rfl⟩

theorem witness_LockRun :
    ReadyFor (.blockLock 255) (asked { Request.blank 11 with block := 255 } chip) ∧
    chip.lock.getLsbD (255 : Byte).toNat = !true ∧
    ReadyFor (.blockUnlock 255) (asked { Request.blank 12 with block := 255 } .start) ∧
    Chip.start.lock.getLsbD (255 : Byte).toNat = !false ∧
    LinkDelivers 8 (asked { Request.blank 11 with block := 255 } chip) ∧
    (ReadyFor (.blockLock 255) (asked { Request.blank 11 with block := 255 } .start) ∧
      Chip.start.lock.getLsbD (255 : Byte).toNat = true) ∧
    (ReadyFor (.blockUnlock 255) (asked { Request.blank 12 with block := 255 } chip) ∧
      chip.lock.getLsbD (255 : Byte).toNat = false) :=
  ⟨ready rfl rfl rfl rfl, by decide, ready rfl rfl rfl rfl, by decide, ⟨List.replicate 14 .delivered, rfl⟩,
    ⟨ready rfl rfl rfl rfl, by decide⟩, ready rfl rfl rfl rfl, by decide⟩

end Sys2Proof.Tests
end

section
/-!
PROOF. The statements of 00_scope: a self-verifying operation answers `OK = 1` only after a re-read that matches, and the
request latch and the parameters stay as they are while an operation runs.
-/

namespace Sys2Proof.Machine

/-! ### The test at the end of a query -/

/-- An operation whose last step is a query ends with `OK = 1` by what that query does with the bytes it has read. -/
theorem ends_by_useBytes {i : Instr} {s t : State} {ph : Phase} {tx : List Byte} {n : Nat} {u : Use}
    (hi : isHost i = true) (hlast : (hostSteps s.cfg ph.old i).getLast? = some (.query tx n u))
    (hp : s.phase = some ph) (ht : t.phase = none) (hok : t.resp.ok = true) (h : exec i s = .next t) :
    t = useBytes (hostSteps s.cfg ph.old i) ph u s := by
  obtain ⟨m, hm, hlen, hstep⟩ := ends_at_last hi hp h ht hok
  have hmq : m = .query tx n u := by
    rw [List.getLast?_eq_getElem?, ← hlen, Nat.add_sub_cancel, hm] at hlast
    exact Option.some.inj hlast
  exact query_ends (hmq ▸ hstep) ht hok

@[simp] theorem raiseCause_ok (c : Cause) (v : Option (List Byte)) (s : State) : (raiseCause c v s).resp.ok = false := rfl

/-- The end of a pseudocode step keeps `VBUF`. -/
@[simp] theorem advance_vbuf (prog : List Micro) (ph : Phase) (s : State) :
    (advance prog ph s).resp.vbuf = s.resp.vbuf := by
  obtain ⟨-, h⟩ | ⟨-, h⟩ := advance_cases prog ph s <;> rw [h] <;> rfl

section
variable {prog : List Micro} {ph : Phase} {s : State}

/-- A bit test that leaves `OK = 1` has found the expected bit (R134, R152). -/
theorem bit_of_useBytes_ok {k : Nat} {v : Bool} {c : Cause}
    (h : (useBytes prog ph (.expectBit k v c) s).resp.ok = true) : (ph.rx.headD 0).getLsbD k = v := by
  by_contra hne
  rw [useBytes, if_neg hne, raiseCause_ok] at h
  exact Bool.false_ne_true h

/-- A masked comparison that leaves `OK = 1` has found the masked bits of the value (R133). -/
theorem masked_of_useBytes_ok {mask value : Byte}
    (h : (useBytes prog ph (.expectMasked mask value) s).resp.ok = true) :
    ph.rx.headD 0 &&& mask = value &&& mask := by
  by_contra hne
  rw [useBytes, if_neg hne, raiseCause_ok] at h
  exact Bool.false_ne_true h

/-- A read-back that leaves `OK = 1` has returned the bytes programmed, and they are in `VBUF` (R162, R163). -/
theorem readBack_of_useBytes_ok {tx : List Byte} (h : (useBytes prog ph (.verify tx) s).resp.ok = true) :
    ph.rx = tx ∧ (useBytes prog ph (.verify tx) s).resp.vbuf = tx := by
  by_cases heq : ph.rx = tx
  · refine ⟨heq, ?_⟩
    rw [useBytes, if_pos heq, advance_vbuf]
    exact heq
  · rw [useBytes, if_neg heq, raiseCause_ok] at h
    exact absurd h Bool.false_ne_true

end

/-! ### What an instruction leaves of the latch and the parameters -/

/-- What an instruction's own step leaves alone, on either side of the wire: the parameters and the request latch. -/
theorem exec_keeps_latch {i : Instr} {s t : State} (h : exec i s = .next t) : t.cfg = s.cfg ∧ t.req = s.req := by
  cases hi : isHost i with
  | true =>
    obtain ⟨⟨hcfg, hreq, -, -⟩, -⟩ := exec_host_moves hi h
    exact ⟨hcfg, hreq⟩
  | false =>
    obtain ⟨c, e, he, -, -⟩ := exec_wire hi s
    obtain rfl := Host.Outcome.next.inj (he.symm.trans h)
    exact ⟨rfl, rfl⟩

/-! ### The obligations -/

/-- Settles O23: `OK = 1` is answered at the operation's last step only, which is a query that passed its own test. -/
theorem selfVerifyingOperations : Obligations.SelfVerifyingOperations := by
  intro s t ph hp ht hok
  refine ⟨fun h => ?writeEnable, fun h => ?reset, fun reg mask value h => ?statusRegWrite,
    fun b sec pg off tx h => ?pageProgram⟩
  case writeEnable =>
    obtain rfl := ends_by_useBytes rfl rfl hp ht hok h
    exact bit_of_useBytes_ok hok
  case reset =>
    obtain rfl := ends_by_useBytes rfl rfl hp ht hok h
    exact bit_of_useBytes_ok hok
  case statusRegWrite =>
    obtain rfl := ends_by_useBytes rfl rfl hp ht hok h
    exact masked_of_useBytes_ok hok
  case pageProgram =>
    obtain rfl := ends_by_useBytes rfl rfl hp ht hok h
    exact readBack_of_useBytes_ok hok

/-- Settles O29: only a reset of the block and the taking of a request write the latch, and the one leaves the block IDLE
while the other starts from IDLE. -/
theorem latchConstantWhileRunning : Obligations.LatchConstantWhileRunning := by
  intro s t h
  obtain ⟨f, i, -, -, -, h⟩ | ⟨f, e, -, -, rfl⟩ | ⟨-, -, rfl⟩ | ⟨ph, i, -, -, -, -, -, h⟩ |
    ⟨r, rest, i, -, -, hidle, -, -, -, h⟩ | ⟨-, -, hidle, -, rfl⟩ := step_cases h
  · obtain ⟨hcfg, hreq⟩ := exec_keeps_latch h
    exact ⟨hcfg, fun _ _ => hreq⟩
  · exact ⟨rfl, fun _ _ => rfl⟩
  · obtain ⟨hphase, -, -, -, hcfg, -, -⟩ := blockReset_fields (stepBase s)
    exact ⟨hcfg, fun _ hrun => absurd hphase hrun⟩
  · obtain ⟨hcfg, hreq⟩ := exec_keeps_latch h
    exact ⟨hcfg, fun _ _ => hreq⟩
  · exact ⟨(exec_keeps_latch h).1, fun hrun => absurd hidle hrun⟩
  · exact ⟨rfl, fun hrun => absurd hidle hrun⟩

end Sys2Proof.Machine
end

section
/-!
PROOF. The statements of 10_state: what a step runs and when it stops, what an accepted request starts, what a step of an
operation emits and leaves unchanged, which instruction changes which state of the chip, and the masked update.
-/

namespace Sys2Proof.Machine

/-! ### A disciplined block goes on -/

/-- From IDLE an accepted request starts its operation (R23). -/
theorem exec_accepted {i : Instr} {s : State} (hi : isHost i = true) (hr : rejectCause i = none) (hp : s.phase = none) :
    exec i s = .next (startOperation s) := by
  rw [exec_host hi, hr]
  simp only [runHost, hp]

/-- From IDLE a host operation, accepted or rejected, answers a next state. -/
theorem exec_idle_next {i : Instr} {s : State} (hi : isHost i = true) (hp : s.phase = none) :
    ∃ t, exec i s = .next t := by
  cases hr : rejectCause i with
  | none => exact ⟨_, exec_accepted hi hr hp⟩
  | some c => exact ⟨raiseCause c none s, by rw [exec_host hi, hr]; rfl⟩

/-- In a running, disciplined block the latch holds an operation, and its step answers a next state (R22, R122). -/
theorem exec_latched_next {s : State} {ph : Phase} (hinv : RunInv s) (hp : s.phase = some ph) :
    ∃ i, decode s.cfg (.request s.req) = .ok i ∧ ∃ t, exec i s = .next t := by
  obtain ⟨⟨hline, -, -, -⟩, hphased⟩ := hinv
  obtain ⟨i, m, hd, hr, hm, hfits⟩ := hphased ph hp
  rw [hp] at hline
  exact ⟨i, hd, by rw [exec_running (decodeRequest_isHost hd) hr hp hm]; exact microStep_next _ hline hfits⟩

/-- A disciplined block stops only where the first waiting tuple is no request, and then by refusing it. -/
theorem step_next_or_refused {s : State} (hinv : RunInv s) :
    (∃ t, step s = .next t) ∨
      ∃ r rest e, s.inbox = r :: rest ∧ decode s.cfg (.request r) = .error e ∧ step s = .refused (.notARequest e) := by
  cases hc : s.chip.closed with
  | some f =>
    cases hd : decode s.cfg (.frame f) with
    | ok i =>
      obtain ⟨c, e, h, -, -⟩ := exec_wire (decodeFrame_isWire hd) s
      exact .inl ⟨_, (step_frame hc hd).trans h⟩
    | error e => exact .inl ⟨dropFrame s, by simp [step, hc, runFrame, hd]⟩
  | none =>
    cases hreset : resetAsserted s with
    | true => exact .inl ⟨blockReset (stepBase s), by simp [step, hc, hreset]⟩
    | false =>
      cases hp : s.phase with
      | some ph =>
        obtain ⟨i, hd, t, h⟩ := exec_latched_next (stepBase_inv hinv hc).1 hp
        exact .inl ⟨t, (step_running hc hreset hp hd).trans h⟩
      | none =>
        cases hin : s.inbox with
        | nil => exact .inl ⟨stepBase s, by simp [step, hc, hreset, blockStep, hp, hin]⟩
        | cons r rest =>
          cases hd : decode s.cfg (.request r) with
          | ok i =>
            obtain ⟨t, h⟩ := exec_idle_next (s := takeRequest r rest (stepBase s)) (decodeRequest_isHost hd) hp
            exact .inl ⟨t, (step_request hc hreset hp hin hd).trans h⟩
          | error e =>
            exact .inr ⟨r, rest, e, rfl, hd, by simp [step, hc, hreset, blockStep, hp, hin, runRequest, hd]⟩

/-- Settles O25: the only stop a disciplined block can come to is the refusal of a tuple that is no request. -/
theorem disciplinedBlockNeverStops : Obligations.DisciplinedBlockNeverStops := by
  intro s hinv
  obtain ⟨t, ht⟩ | ⟨r, rest, e, hin, hd, ht⟩ := step_next_or_refused hinv
  · exact ⟨fun f hf => by simp [ht] at hf, fun _ => ⟨t, ht⟩⟩
  · refine ⟨fun f hf => by simp [ht] at hf, fun hrequests => ?_⟩
    obtain ⟨i, hi⟩ := hrequests r rest hin
    simp [hd] at hi

/-! ### What a step runs -/

/-- Settles O4. -/
theorem stepRunsDecodedInstruction : Obligations.StepRunsDecodedInstruction := by
  intro s i
  refine ⟨fun f hc hd => step_frame hc hd, fun ph hc hr hp hd => step_running hc hr hp hd,
    fun r rest hc hr hp hin hd => step_request hc hr hp hin hd, fun hc hr hp hin => ?_⟩
  simp [step, hc, hr, blockStep, hp, hin]

/-- Settles O27: reset is IDLE outside a bracket, so the discipline holds, and its array lists no byte. -/
theorem resetMeetsInvariants : Obligations.ResetMeetsInvariants := by
  have hbracketed : Bracketed .reset := ⟨rfl, fun _ => rfl, fun h => absurd rfl h, rfl⟩
  have hphased : WellPhased .reset := fun ph h => by simp [State.reset] at h
  exact ⟨rfl, rfl, rfl, rfl, ⟨hbracketed, hphased⟩, Memory.wf_nil⟩

/-! ### Accepted requests -/

/-- Every `REG` but 0 selects a register (R22, R84). -/
theorem srOfReg_ne_none {reg : BitVec 2} (h : reg ≠ 0) : srOfReg reg ≠ none := by
  revert h
  revert reg
  decide

/-- Settles O5: each operation with legal operands passes validation, and from IDLE an accepted request starts. -/
theorem acceptedRequestStarts : Obligations.AcceptedRequestStarts := by
  intro s hp Starts
  have starts : ∀ i, isHost i = true → rejectCause i = none → Starts i := fun i hi hr =>
    ⟨_, exec_accepted hi hr hp, rfl, rfl, rfl, rfl, rfl, rfl, rfl, rfl, rfl, rfl⟩
  refine ⟨fun b sec pg off len hs hpg => ?read, fun b sec pg off tx hs hpg hlen => ?pageProgram, fun b sec hs => ?sectorErase,
    fun reg m v hreg => ⟨?statusRegWrite, ?statusRegRead⟩, fun b => ⟨starts _ rfl rfl, starts _ rfl rfl, starts _ rfl rfl⟩,
    fun i hmem => ?noOperands⟩
  case read => exact starts _ rfl (by simp [rejectCause, validCoords_eq, hs, hpg])
  case pageProgram =>
    exact starts _ rfl (by simp [rejectCause, validCoords_eq, validProgram_eq, hs, hpg, hlen]; omega)
  case sectorErase => exact starts _ rfl (by simp [rejectCause, validCoords_eq, hs])
  case statusRegWrite => exact starts _ rfl (if_neg (srOfReg_ne_none hreg))
  case statusRegRead => exact starts _ rfl (if_neg (srOfReg_ne_none hreg))
  case noOperands =>
    simp only [List.mem_cons, List.not_mem_nil, or_false] at hmem
    rcases hmem with rfl | rfl | rfl | rfl | rfl <;> exact starts _ rfl rfl

/-! ### The events of a step -/

/-- From `s` to `t` the trace grows, by at most `n` boundary events (R13). -/
def AddsBoundary (n : Nat) (s t : State) : Prop :=
  ∃ evs, t.trace = evs ++ s.trace ∧ (evs.filter isBoundary).length ≤ n

theorem AddsBoundary.of_trace_eq {s t : State} (n : Nat) (h : t.trace = s.trace) : AddsBoundary n s t :=
  ⟨[], h, Nat.zero_le n⟩

theorem AddsBoundary.of_event {s t : State} (e : Event) (h : t.trace = e :: s.trace) : AddsBoundary 1 s t :=
  ⟨[e], h, List.length_filter_le _ [e]⟩

theorem AddsBoundary.of_resp {s t : State} (n : Nat) (r : Response) (h : t.trace = .resp r :: s.trace) :
    AddsBoundary n s t :=
  ⟨[.resp r], h, Nat.zero_le n⟩

/-- The end of a pseudocode step adds at most the `Resp`. -/
theorem AddsBoundary.advance {n : Nat} {s t : State} (h : AddsBoundary n s t) (prog : List Micro) (ph : Phase) :
    AddsBoundary n s (advance prog ph t) := by
  obtain ⟨evs, htrace, hlen⟩ := h
  obtain ⟨-, h⟩ | ⟨-, h⟩ := advance_cases prog ph t <;> rw [h]
  · exact ⟨evs, htrace, hlen⟩
  · exact ⟨.resp (respondOk t).resp :: evs, congrArg (List.cons _) htrace, hlen⟩

/-- A step of the pseudocode adds at most one boundary event: the delay, a line event or an exchange. -/
theorem microStep_boundary {prog : List Micro} {ph : Phase} {m : Micro} {s t : State}
    (h : microStep prog ph m s = .next t) : AddsBoundary 1 s t := by
  obtain ⟨us, -, -, rfl⟩ | ⟨-, -, -, rfl⟩ | ⟨tx, nx, -, rfl, -⟩ | ⟨-, -, rfl⟩ | ⟨-, hd, rfl⟩ := microStep_cases h
  · exact (AddsBoundary.of_event (.d us) rfl).advance prog ph
  · exact .of_event (.cs false) rfl
  · exact .of_event (.x tx _ _) rfl
  · refine .of_event (.cs true) ?_
    cases hcs : s.csN <;> simp [csHigh, closeBracket, hcs]
  · obtain ⟨old, r, h, -⟩ | ⟨c, v, h⟩ | h := judge_cases prog ph m s hd <;> rw [h]
    · exact (AddsBoundary.of_trace_eq (t := s.setResp r) 1 rfl).advance prog _
    · exact .of_resp 1 _ rfl
    · exact .of_trace_eq 1 rfl

/-- Settles O19: rejection and acceptance add no boundary event, a step of the pseudocode at most one. -/
theorem oneBoundaryEventPerStep : Obligations.OneBoundaryEventPerStep := by
  intro i s t hi h
  show AddsBoundary 1 s t
  obtain ⟨c, -, rfl⟩ | ⟨-, -, rfl⟩ | ⟨-, ph, m, -, -, h⟩ := exec_host_cases hi h
  · exact .of_resp 1 _ rfl
  · exact .of_trace_eq 1 rfl
  · exact microStep_boundary h

/-! ### The response latch -/

/-- A pseudocode step that ends without ending the operation leaves the response latch. -/
theorem advance_resp {prog : List Micro} {ph : Phase} {s : State} (h : (advance prog ph s).phase ≠ none) :
    ph.pc + 1 < prog.length ∧ (advance prog ph s).resp = s.resp := by
  obtain ⟨hlt, he⟩ | ⟨-, he⟩ := advance_cases prog ph s <;> rw [he] at h ⊢
  · exact ⟨hlt, rfl⟩
  · exact absurd rfl h

/-- Settles O21: a result is written by an operation's last step only, which ends it. -/
theorem responseLatchWrittenAtResp : Obligations.ResponseLatchWrittenAtResp := by
  intro i s t hi h hrun hgoes
  obtain ⟨c, -, rfl⟩ | ⟨-, hidle, -⟩ | ⟨-, ph, m, -, hm, h⟩ := exec_host_cases hi h
  · exact absurd rfl hgoes
  · exact absurd hidle hrun
  · obtain ⟨us, -, -, rfl⟩ | ⟨-, -, -, rfl⟩ | ⟨tx, nx, -, rfl, -⟩ | ⟨-, -, rfl⟩ | ⟨-, hd, rfl⟩ := microStep_cases h
    · exact (advance_resp hgoes).2
    · rfl
    · rfl
    · cases hcs : s.csN <;> simp [csHigh, closeBracket, hcs]
    · obtain ⟨old, r, h, hr⟩ | ⟨c, v, h⟩ | h := judge_cases (hostSteps s.cfg ph.old i) ph m s hd <;> rw [h] at hgoes ⊢
      · obtain ⟨hlt, hresp⟩ := advance_resp hgoes
        have hplain : writesResult m = false := by
          by_contra hw
          exact absurd (writesResult_last hm (eq_true_of_ne_false hw)) (Nat.not_le.2 hlt)
        exact hresp.trans (hr hplain)
      · exact absurd rfl hgoes
      · rfl

/-! ### The frame of a host step -/

/-- BUSY lies below bits 7:2 of register 1 (R28). -/
theorem setBusy_sr1_high (v : Bool) (c : Chip) {k : Nat} (hk : 2 ≤ k) :
    (setBusy v c).sr1.getLsbD k = c.sr1.getLsbD k := by
  rw [setBusy, getLsbD_putBit, if_neg (by simp only [Config.busyBit]; omega)]

/-- WEL lies below bits 7:2 of register 1 (R28). -/
theorem setWel_sr1_high (v : Bool) (c : Chip) {k : Nat} (hk : 2 ≤ k) :
    (setWel v c).sr1.getLsbD k = c.sr1.getLsbD k := by
  rw [setWel, getLsbD_putBit, if_neg (by simp only [Config.welBit]; omega)]

/-- A completed cycle leaves bits 7:2 of register 1 (R208). -/
theorem Settled.sr1_high {d c : Chip} (h : Settled d c) {k : Nat} (hk : 2 ≤ k) :
    c.sr1.getLsbD k = d.sr1.getLsbD k := by
  obtain rfl | ⟨-, rfl⟩ := h
  · rfl
  · exact (setWel_sr1_high false (setBusy false d) hk).trans (setBusy_sr1_high false d hk)

theorem Settled.sr2 {d c : Chip} (h : Settled d c) : c.sr2 = d.sr2 := by
  obtain rfl | ⟨-, rfl⟩ := h <;> rfl
theorem Settled.sr3 {d c : Chip} (h : Settled d c) : c.sr3 = d.sr3 := by
  obtain rfl | ⟨-, rfl⟩ := h <;> rfl

/-- BUSY does not rise at a point of completion. -/
theorem Settled.busy_of_busy {d c : Chip} (h : Settled d c) (hb : chipBusy c = true) : chipBusy d = true := by
  obtain rfl | ⟨hd, -⟩ := h
  · exact hb
  · exact hd

/-- WEL does not rise at a point of completion. -/
theorem Settled.wel_of_wel {d c : Chip} (h : Settled d c) (hw : chipWel c = true) : chipWel d = true := by
  obtain rfl | ⟨-, rfl⟩ := h
  · exact hw
  · simp at hw

/-- Settles O20: of the chip a host step touches the frame, the closed frame, and what a completed cycle clears. -/
theorem hostStepFrame : Obligations.HostStepFrame := by
  intro i s t hi h
  obtain ⟨⟨hcfg, hreq, hinbox, hrst⟩, c, f, g, hc, ht⟩ := exec_host_moves hi h
  rw [ht]
  refine ⟨hcfg, hreq, hinbox, hrst, hc.array, fun a => congrArg (Memory.read · a) hc.array, hc.lock, hc.sr2, hc.sr3, hc.rstEn,
    fun k hk => hc.sr1_high hk, fun hidle => ?_, hc.busy_of_busy, hc.wel_of_wel⟩
  rw [hc.idle hidle]
  exact ⟨rfl, rfl⟩

/-! ### The canonical form of the array -/

/-- A host step leaves the array alone (R27). -/
theorem exec_host_array {i : Instr} {s t : State} (hi : isHost i = true) (h : exec i s = .next t) :
    t.chip.array = s.chip.array := by
  obtain ⟨-, c, f, g, hc, ht⟩ := exec_host_moves hi h
  rw [ht]
  exact hc.array

/-- A point of completion leaves the array alone. -/
theorem stepBase_array (s : State) : (stepBase s).chip.array = s.chip.array := (tick_settled s.world).array

/-- A reset of the block leaves the array alone (R261). -/
theorem blockReset_array (s : State) : (blockReset s).chip.array = s.chip.array := by
  obtain ⟨-, -, -, -, -, -, hchip⟩ := blockReset_fields s
  rw [hchip]
  split <;> rfl

/-- Settles O26: only wire commands write the array, and they keep its form. -/
theorem stepKeepsMemoryCanonical : Obligations.StepKeepsMemoryCanonical := by
  intro s t hwf h
  have hbase : Memory.wf (stepBase s).chip.array := by rwa [stepBase_array]
  obtain ⟨f, i, -, -, hi, h⟩ | ⟨f, e, -, -, rfl⟩ | ⟨-, -, rfl⟩ | ⟨ph, i, -, -, -, -, hi, h⟩ |
    ⟨r, rest, i, -, -, -, -, -, hi, h⟩ | ⟨-, -, -, -, rfl⟩ := step_cases h
  · exact exec_wire_array_wf hi h hwf
  · exact hwf
  · rwa [blockReset_array]
  · rwa [exec_host_array hi h]
  · rwa [exec_host_array hi h]
  · exact hbase

/-! ### Which instruction changes which state of the chip -/

/-- The instruction is a page-program or an erase (R209, R211). -/
def StoresBytes (i : Instr) : Prop :=
  (∃ a2 a1 a0 d, i = .wirePp a2 a1 a0 d) ∨ (∃ a2 a1 a0, i = .wireBe a2 a1 a0 ∨ i = .wireSe a2 a1 a0) ∨ i = .wireCe

/-- The instruction is a lock command (R213). -/
def ChangesLocks (i : Instr) : Prop :=
  (∃ a2 a1 a0, i = .wireBlockLock a2 a1 a0 ∨ i = .wireBlockUnlock a2 a1 a0) ∨ i = .wireGunlock

/-- The status write of register `r` (R207). -/
def statusWriteInstr (r : SrNum) (d : Byte) : Instr :=
  match r with
  | .one => .wireWrsr1 d
  | .two => .wireWrsr2 d
  | .three => .wireWrsr3 d

/-- The effects a wire command other than enable-reset can have on the chip, before the command ends; all but the first
need BUSY = 0 (R214). -/
inductive CommandEffect (p : Config.Params) (i : Instr) (c : Chip) : Chip → Prop
  | none : CommandEffect p i c c
  | writeEnable (hi : i = .wireWren) (hb : chipBusy c = false) : CommandEffect p i c (setWel true c)
  | volatileWriteEnable (hi : i = .wireVwren) (hb : chipBusy c = false) : CommandEffect p i c (setVsrEn true c)
  | statusWrite (r : SrNum) (d : Byte) (hi : i = statusWriteInstr r d) (hb : chipBusy c = false) :
    CommandEffect p i c (setBusy true (setSr c r (statusWriteValue (srValue c r) (roMask p r) d)))
  | refused (hi : StoresBytes i) (hb : chipBusy c = false) : CommandEffect p i c (setWel false c)
  | stored (m : Memory) (hi : StoresBytes i) (hb : chipBusy c = false) :
    CommandEffect p i c (setBusy true { c with array := m })
  | locks (l : BitVec 256) (hi : ChangesLocks i) (hb : chipBusy c = false) : CommandEffect p i c { c with lock := l }
  | locksClearWel (l : BitVec 256) (hi : ChangesLocks i) (hp : p.lockClearsWel = true) (hb : chipBusy c = false) :
    CommandEffect p i c (setWel false { c with lock := l })
  | resetDevice (image : Config.ChipImage) (hi : i = .wireRst) (hb : chipBusy c = false) :
    CommandEffect p i c (resetDevice image c)

section
variable {p : Config.Params} {i : Instr} {c : Chip}

/-- A status write is ignored or stores its register and sets BUSY. -/
theorem CommandEffect.of_statusWrite (r : SrNum) (d : Byte) (hi : i = statusWriteInstr r d) :
    CommandEffect p i c (Machine.statusWrite p r d c) := by
  obtain h | ⟨hb, h⟩ := statusWrite_cases p r d c <;> rw [h]
  · exact .none
  · exact .statusWrite r d hi hb

/-- A page-program is ignored, refused, or stores bytes. -/
theorem CommandEffect.of_pageProgram (a : Nat) (d : List Byte) (hi : StoresBytes i) :
    CommandEffect p i c (pageProgram a d c) := by
  obtain h | ⟨hb, h | h⟩ := pageProgram_cases a d c <;> rw [h]
  · exact .none
  · exact .refused hi hb
  · exact .stored _ hi hb

/-- An erase is ignored, refused, or stores bytes. -/
theorem CommandEffect.of_eraseRegion (base size : Nat) (hi : StoresBytes i) :
    CommandEffect p i c (eraseRegion base size c) := by
  obtain h | ⟨hb, h | h⟩ := eraseRegion_cases base size c <;> rw [h]
  · exact .none
  · exact .refused hi hb
  · exact .stored _ hi hb

/-- A lock command is ignored or writes the lock bits, with WEL cleared under `LOCK_CLEARS_WEL`. -/
theorem CommandEffect.of_lockCommand {f : Chip → Chip} {l : BitVec 256} (hf : f c = { c with lock := l })
    (hi : ChangesLocks i) : CommandEffect p i c (lockCommand p f c) := by
  rw [lockCommand, hf]
  split
  · rename_i hok
    simp only [Bool.and_eq_true, Bool.not_eq_true'] at hok
    split
    · exact .locksClearWel l hi ‹_› hok.1.1
    · exact .locks l hi hok.1.1
  · exact .none

end

/-- What any instruction can do to the chip: a host step at most completes its cycle (and moves the frame); enable-reset
sets `rst_en`; any other wire command has one of its effects and ends, which clears `rst_en` (R202). -/
theorem exec_chip_cases {i : Instr} {s t : State} (h : exec i s = .next t) :
    (isHost i = true ∧ ∃ c f g, Settled s.chip c ∧ t.chip = { c with frame := f, closed := g }) ∨
      (i = .wireRsten ∧ t.chip =
        { s.chip with closed := none, rstEn := if chipBusy s.chip then s.chip.rstEn else true }) ∨
      (isHost i = false ∧ i ≠ .wireRsten ∧ ∃ c, CommandEffect s.cfg i s.chip c ∧ t.chip = finishCommand c) := by
  cases hi : isHost i with
  | true => exact .inl ⟨rfl, (exec_host_moves hi h).2⟩
  | false =>
    by_cases hr : i = .wireRsten
    · subst hr
      obtain rfl := Host.Outcome.next.inj h
      exact .inr (.inl ⟨rfl, rfl⟩)
    · refine .inr (.inr ⟨rfl, hr, ?_⟩)
      obtain ⟨f, rfl, hf⟩ | ⟨he, -⟩ | ⟨rfl, hb, -, rfl⟩ := exec_wire_cases hi h
      · refine ⟨f s.chip, ?_, rfl⟩
        rcases hf with rfl | ⟨rfl, rfl⟩ | ⟨rfl, rfl⟩ | ⟨d, rfl, rfl⟩ | ⟨d, rfl, rfl⟩ | ⟨d, rfl, rfl⟩ |
          ⟨a2, a1, a0, d, rfl, rfl⟩ | ⟨b, n, hi, rfl⟩ | ⟨b, v, hi, rfl⟩ | ⟨rfl, rfl⟩
        · exact .none
        · cases hb : chipBusy s.chip
          · simpa [hb] using CommandEffect.writeEnable rfl hb
          · simpa [hb] using CommandEffect.none
        · cases hb : chipBusy s.chip
          · simpa [hb] using CommandEffect.volatileWriteEnable rfl hb
          · simpa [hb] using CommandEffect.none
        · exact .of_statusWrite .one d rfl
        · exact .of_statusWrite .two d rfl
        · exact .of_statusWrite .three d rfl
        · exact .of_pageProgram _ d (.inl ⟨a2, a1, a0, d, rfl⟩)
        · refine .of_eraseRegion b n (.inr ?_)
          obtain ⟨a2, a1, a0, rfl⟩ | ⟨a2, a1, a0, rfl⟩ | rfl := hi
          · exact .inl ⟨a2, a1, a0, .inl rfl⟩
          · exact .inl ⟨a2, a1, a0, .inr rfl⟩
          · exact .inr rfl
        · refine .of_lockCommand rfl (.inl ?_)
          obtain ⟨a2, a1, a0, rfl⟩ | ⟨a2, a1, a0, rfl⟩ := hi
          · exact ⟨a2, a1, a0, .inl rfl⟩
          · exact ⟨a2, a1, a0, .inr rfl⟩
        · exact .of_lockCommand rfl (.inr rfl)
      · exact absurd he hr
      · exact ⟨_, .resetDevice _ rfl hb, rfl⟩

@[simp] theorem chipBusy_withLock (c : Chip) (l : BitVec 256) : chipBusy { c with lock := l } = chipBusy c := rfl
@[simp] theorem chipWel_withLock (c : Chip) (l : BitVec 256) : chipWel { c with lock := l } = chipWel c := rfl
@[simp] theorem chipWel_withArray (c : Chip) (m : Memory) : chipWel { c with array := m } = chipWel c := rfl
@[simp] theorem chipBusy_resetDevice (image : Config.ChipImage) (c : Chip) : chipBusy (resetDevice image c) = false := by
  simp [chipBusy, resetDevice, Config.busyBit]
@[simp] theorem chipWel_resetDevice (image : Config.ChipImage) (c : Chip) : chipWel (resetDevice image c) = false := by
  simp [chipWel, resetDevice, Config.welBit]

/-- A read-only bit keeps its value under a status write (R207). -/
theorem getLsbD_statusWriteValue_ro {old ro d : Byte} {k : Nat} (h : ro.getLsbD k = true) :
    (statusWriteValue old ro d).getLsbD k = old.getLsbD k := by
  simp [statusWriteValue, h]

/-- A status write changes WEL only where `RO(1)` leaves it writable (R207). -/
theorem wel_writable_of_statusWrite {p : Config.Params} {c : Chip} {r : SrNum} {d : Byte}
    (h : chipWel (setBusy true (setSr c r (statusWriteValue (srValue c r) (roMask p r) d))) ≠ chipWel c) :
    r = .one ∧ p.ro1.getLsbD 1 = false := by
  rw [chipWel_setBusy] at h
  cases r with
  | one => exact ⟨rfl, eq_false_of_ne_true fun hro => h (getLsbD_statusWriteValue_ro hro)⟩
  | two => exact absurd rfl h
  | three => exact absurd rfl h

section
variable {p : Config.Params} {i : Instr} {c d : Chip} (h : CommandEffect p i c d)
include h

/-- A busy chip has no effect of a command (R214). -/
theorem CommandEffect.eq_of_busy (hb : chipBusy c = true) : d = c := by
  cases h with
  | none => rfl
  | _ => rename_i hidle; simp [hb] at hidle

theorem CommandEffect.array_changed (hne : d.array ≠ c.array) : StoresBytes i := by
  cases h with
  | stored m hi => exact hi
  | statusWrite r => cases r <;> exact absurd rfl hne
  | _ => exact absurd rfl hne

theorem CommandEffect.lock_changed (hne : d.lock ≠ c.lock) : ChangesLocks i ∨ i = .wireRst := by
  cases h with
  | locks l hi => exact .inl hi
  | locksClearWel l hi => exact .inl hi
  | resetDevice image hi => exact .inr hi
  | statusWrite r => cases r <;> exact absurd rfl hne
  | _ => exact absurd rfl hne

theorem CommandEffect.sr2_changed (hne : d.sr2 ≠ c.sr2) : (∃ v, i = .wireWrsr2 v) ∨ i = .wireRst := by
  cases h with
  | resetDevice image hi => exact .inr hi
  | statusWrite r v hi =>
    cases r with
    | two => exact .inl ⟨v, hi⟩
    | _ => exact absurd rfl hne
  | _ => exact absurd rfl hne

theorem CommandEffect.sr3_changed (hne : d.sr3 ≠ c.sr3) : (∃ v, i = .wireWrsr3 v) ∨ i = .wireRst := by
  cases h with
  | resetDevice image hi => exact .inr hi
  | statusWrite r v hi =>
    cases r with
    | three => exact .inl ⟨v, hi⟩
    | _ => exact absurd rfl hne
  | _ => exact absurd rfl hne

theorem CommandEffect.sr1_high_changed {k : Nat} (hk : 2 ≤ k) (hne : d.sr1.getLsbD k ≠ c.sr1.getLsbD k) :
    (∃ v, i = .wireWrsr1 v) ∨ i = .wireRst := by
  cases h with
  | resetDevice image hi => exact .inr hi
  | statusWrite r v hi =>
    cases r with
    | one => exact .inl ⟨v, hi⟩
    | _ => exact absurd (setBusy_sr1_high _ _ hk) hne
  | stored => exact absurd (setBusy_sr1_high _ _ hk) hne
  | none => exact absurd rfl hne
  | volatileWriteEnable => exact absurd rfl hne
  | locks => exact absurd rfl hne
  | _ => exact absurd (setWel_sr1_high _ _ hk) hne

theorem CommandEffect.busy_rises (h0 : chipBusy c = false) (h1 : chipBusy d = true) :
    (∃ v, i = .wireWrsr1 v) ∨ (∃ v, i = .wireWrsr2 v) ∨ (∃ v, i = .wireWrsr3 v) ∨ StoresBytes i := by
  cases h with
  | statusWrite r v hi =>
    cases r with
    | one => exact .inl ⟨v, hi⟩
    | two => exact .inr (.inl ⟨v, hi⟩)
    | three => exact .inr (.inr (.inl ⟨v, hi⟩))
  | stored m hi => exact .inr (.inr (.inr hi))
  | _ => simp [h0] at h1

theorem CommandEffect.wel_rises (h0 : chipWel c = false) (h1 : chipWel d = true) :
    i = .wireWren ∨ (∃ v, i = .wireWrsr1 v) ∧ p.ro1.getLsbD 1 = false := by
  cases h with
  | writeEnable hi => exact .inl hi
  | statusWrite r v hi =>
    obtain ⟨rfl, hro⟩ := wel_writable_of_statusWrite (ne_of_eq_of_ne h1 (by simp [h0]))
    exact .inr ⟨⟨v, hi⟩, hro⟩
  | _ => simp [h0] at h1

theorem CommandEffect.wel_falls (h0 : chipWel c = true) (h1 : chipWel d = false) :
    StoresBytes i ∨ (ChangesLocks i ∧ p.lockClearsWel = true) ∨ i = .wireRst ∨
      (∃ v, i = .wireWrsr1 v) ∧ p.ro1.getLsbD 1 = false := by
  cases h with
  | refused hi => exact .inl hi
  | stored m hi => exact .inl hi
  | locksClearWel l hi hp => exact .inr (.inl ⟨hi, hp⟩)
  | resetDevice image hi => exact .inr (.inr (.inl hi))
  | statusWrite r v hi =>
    obtain ⟨rfl, hro⟩ := wel_writable_of_statusWrite (ne_of_eq_of_ne h1 (by simp [h0]))
    exact .inr (.inr (.inr ⟨⟨v, hi⟩, hro⟩))
  | _ => simp [h0] at h1

theorem CommandEffect.vsrEn_changed (hne : d.vsrEn ≠ c.vsrEn) :
    (i = .wireVwren ∧ d.vsrEn = true) ∨ (i = .wireRst ∧ d.vsrEn = false) := by
  cases h with
  | volatileWriteEnable hi => exact .inl ⟨hi, rfl⟩
  | resetDevice image hi => exact .inr ⟨hi, rfl⟩
  | statusWrite r => cases r <;> exact absurd rfl hne
  | _ => exact absurd rfl hne

end

/-- `vsr_en` changes at a point of completion only by clearing, and only while BUSY. -/
theorem Settled.vsrEn_changed {d c : Chip} (h : Settled d c) (hne : c.vsrEn ≠ d.vsrEn) :
    chipBusy d = true ∧ c.vsrEn = false := by
  obtain rfl | ⟨hb, rfl⟩ := h
  · exact absurd rfl hne
  · exact ⟨hb, rfl⟩

/-- WEL falls at a point of completion only while BUSY. -/
theorem Settled.busy_of_wel_falls {d c : Chip} (h : Settled d c) (h0 : chipWel d = true) (h1 : chipWel c = false) :
    chipBusy d = true := by
  obtain rfl | ⟨hb, -⟩ := h
  · simp [h0] at h1
  · exact hb

/-- A flag that is `b` before and not `b` after has changed. -/
theorem ne_of_flip {x y b : Bool} (h0 : x = b) (h1 : y = !b) : y ≠ x := by
  rw [h0, h1]
  exact Bool.not_ne_self b

/-- Settles O31: of each kind of instruction (a host step, enable-reset, another wire command) by what it can do to the
chip. -/
theorem chipStateChangedOnlyBy : Obligations.ChipStateChangedOnlyBy := by
  intro i s t h program erase lock status1 status2 status3 completed
  obtain ⟨hi, c, f, g, hc, ht⟩ | ⟨rfl, ht⟩ | ⟨hi, hne, c, hc, ht⟩ := exec_chip_cases h <;> rw [ht]
  case inl =>
    exact ⟨absurd hc.array, absurd hc.lock, absurd hc.sr2, absurd hc.sr3, fun k hk => absurd (hc.sr1_high hk),
      fun h0 h1 => absurd (hc.busy_of_busy h1) (ne_of_flip (b := true) rfl h0),
      fun h0 h1 => absurd (hc.wel_of_wel h1) (ne_of_flip (b := true) rfl h0),
      fun h0 h1 => .inl ⟨hi, hc.busy_of_wel_falls h0 h1⟩,
      fun h0 h1 => absurd (hc.vsrEn_changed (ne_of_flip h0 h1)).2 (ne_of_flip (b := false) rfl h1),
      fun h0 h1 => .inl ⟨hi, (hc.vsrEn_changed (ne_of_flip h0 h1)).1⟩,
      fun h0 h1 => absurd hc.rstEn (ne_of_flip h0 h1), fun h0 h1 => absurd hc.rstEn (ne_of_flip h0 h1)⟩
  case inr.inl =>
    refine ⟨absurd rfl, absurd rfl, absurd rfl, absurd rfl, fun k _ => absurd rfl, fun h0 h1 => absurd rfl (ne_of_flip h0 h1),
      fun h0 h1 => absurd rfl (ne_of_flip h0 h1), fun h0 h1 => absurd rfl (ne_of_flip h0 h1),
      fun h0 h1 => absurd rfl (ne_of_flip h0 h1), fun h0 h1 => absurd rfl (ne_of_flip h0 h1), fun _ _ => rfl, fun h0 h1 => ?_⟩
    simp [h0] at h1
  case inr.inr =>
    refine ⟨hc.array_changed, hc.lock_changed, hc.sr2_changed, hc.sr3_changed, fun k hk => hc.sr1_high_changed hk,
      hc.busy_rises, hc.wel_rises, fun h0 h1 => .inr (or_assoc.1 (hc.wel_falls h0 h1)), fun h0 h1 => ?rise,
      fun h0 h1 => ?fall, fun _ h1 => absurd h1 Bool.false_ne_true, fun _ _ => ⟨hi, hne⟩⟩
    case rise =>
      obtain ⟨hv, -⟩ | ⟨-, hclear⟩ := hc.vsrEn_changed (ne_of_flip h0 h1)
      · exact hv
      · exact absurd hclear (ne_of_flip (b := false) rfl h1)
    case fall =>
      obtain ⟨-, hset⟩ | ⟨hrst, -⟩ := hc.vsrEn_changed (ne_of_flip h0 h1)
      · exact absurd hset (ne_of_flip (b := true) rfl h1)
      · exact .inr hrst

/-- Settles O32: no wire command changes the BUSY of a busy chip, and a host step clears it by a completed cycle. -/
theorem onlyCompletionClearsBusy : Obligations.OnlyCompletionClearsBusy := by
  intro i s t h h0 h1
  obtain ⟨hi, c, f, g, hc, ht⟩ | ⟨rfl, ht⟩ | ⟨-, -, c, hc, ht⟩ := exec_chip_cases h <;> rw [ht] at h1 ⊢
  · obtain rfl | ⟨-, rfl⟩ := hc
    · exact absurd rfl (ne_of_flip h0 h1)
    · exact ⟨hi, chipWel_completeCycle s.chip, rfl⟩
  · exact absurd rfl (ne_of_flip h0 h1)
  · rw [hc.eq_of_busy h0] at h1
    exact absurd rfl (ne_of_flip h0 h1)

/-! ### The masked update -/

/-- The masked update bit by bit (R36). -/
theorem getLsbD_maskedUpdate (old mask value : Byte) {k : Nat} (hk : k < 8) :
    (maskedUpdate old mask value).getLsbD k = if mask.getLsbD k then value.getLsbD k else old.getLsbD k := by
  simp only [maskedUpdate, BitVec.getLsbD_or, BitVec.getLsbD_and, BitVec.getLsbD_not]
  cases mask.getLsbD k <;> simp [hk]

/-- The step keeps the byte it reads as `old` (R133 step 2). -/
def keepsByte : Micro → Bool
  | .query _ _ .keepOld => true
  | _ => false

/-- If an operation is running at `s`, the `old` it keeps is `v`. -/
def OldIs (v : Byte) (s : State) : Prop := ∀ ph, s.phase = some ph → ph.old = v

theorem OldIs.of_running {v : Byte} {s : State} {ph : Phase} (h : s.phase = some ph) (hold : ph.old = v) : OldIs v s := by
  intro ph' h'
  obtain rfl := Option.some.inj (h.symm.trans h')
  exact hold

theorem OldIs.of_idle {v : Byte} {s : State} (h : s.phase = none) : OldIs v s := by
  intro ph h'
  simp [h] at h'

section
variable (prog : List Micro) (ph : Phase) (s : State)

theorem advance_old : OldIs ph.old (advance prog ph s) := by
  obtain ⟨-, h⟩ | ⟨-, h⟩ := advance_cases prog ph s <;> rw [h]
  · exact .of_running rfl rfl
  · exact .of_idle rfl

theorem useBytes_old {u : Use} (hu : u ≠ .keepOld) : OldIs ph.old (useBytes prog ph u s) := by
  cases u <;> simp only [useBytes]
  case keepOld => exact absurd rfl hu
  case discard => exact advance_old prog ph s
  case toRval => exact advance_old prog ph _
  case toRxbuf => exact advance_old prog ph _
  case refuseLocked => split <;> [exact .of_idle rfl; exact advance_old prog ph s]
  all_goals split <;> [exact advance_old prog ph _; exact .of_idle rfl]

theorem judge_old {m : Micro} (hd : ∀ us, m ≠ .delay us) (hm : keepsByte m = false) : OldIs ph.old (judge prog ph m s) := by
  cases m with
  | delay us => exact absurd rfl (hd us)
  | poll op bit =>
    simp only [judge]
    split
    · split <;> [exact .of_running rfl rfl; exact advance_old prog ph s]
    · split <;> [exact .of_idle rfl; exact .of_running rfl rfl]
  | send tx =>
    simp only [judge]
    split <;> [exact advance_old prog ph s; exact .of_idle rfl]
  | query tx n u =>
    simp only [judge]
    split
    · exact useBytes_old prog ph s fun hu => by simp [hu, keepsByte] at hm
    · exact .of_idle rfl

end

/-- Only the judgement of a step that keeps its byte changes the `old` of a running operation. -/
theorem microStep_old {prog : List Micro} {ph : Phase} {m : Micro} {s t : State} (hm : keepsByte m = false)
    (h : microStep prog ph m s = .next t) : OldIs ph.old t := by
  obtain ⟨us, -, -, rfl⟩ | ⟨-, -, -, rfl⟩ | ⟨tx, nx, -, rfl, -⟩ | ⟨-, -, rfl⟩ | ⟨-, hd, rfl⟩ := microStep_cases h
  · exact advance_old prog ph _
  · exact .of_running rfl rfl
  · exact .of_running rfl rfl
  · exact .of_running rfl rfl
  · exact judge_old prog ph s hd hm

/-- The operation `i` reads register `r` at its step `read`, keeping the byte there and nowhere else, and sends the
masked update of it to `r` at its step `write` (R133, R153). -/
structure MasksFreshRead (p : Config.Params) (i : Instr) (r : SrNum) (mask value : Byte) (read write : Nat) : Prop where
  host : isHost i = true
  accepted : rejectCause i = none
  reads : ∀ old, (hostSteps p old i)[read]? = some (srRead p.ops r .keepOld)
  goesOn : ∀ old, read + 1 < (hostSteps p old i).length
  writes : ∀ old, (hostSteps p old i)[write]? = some (.send [wrsrOp p.ops r, maskedUpdate old mask value])
  keepsOnce : ∀ (old : Byte) (k : Nat) (m : Micro), (hostSteps p old i)[k]? = some m → keepsByte m = true → k = read

/-- Where a list of steps keeps a byte, read off the list of which do. -/
theorem keepsByte_position {steps : List Micro} {flags : List Bool} {read : Nat} (hflags : steps.map keepsByte = flags)
    (honce : ∀ k < flags.length, flags[k]? = some true → k = read) {k : Nat} {m : Micro} (hm : steps[k]? = some m)
    (hk : keepsByte m = true) : k = read := by
  have hflag : flags[k]? = some true := by rw [← hflags, List.getElem?_map, hm, Option.map_some, hk]
  exact honce k (List.getElem?_eq_some_iff.1 hflag).1 hflag

theorem hostSteps_statusRegWrite {reg : BitVec 2} {r : SrNum} (hr : srOfReg reg = some r) (p : Config.Params)
    (old mask value : Byte) :
    hostSteps p old (.statusRegWrite reg mask value) = statusRegWriteSteps p.ops r mask value old := by
  rw [hostSteps, hr, Option.getD_some]

theorem statusRegWrite_masksFreshRead {reg : BitVec 2} {r : SrNum} (hr : srOfReg reg = some r) (p : Config.Params)
    (mask value : Byte) : MasksFreshRead p (.statusRegWrite reg mask value) r mask value 1 4 where
  host := rfl
  accepted := by simp [rejectCause, hr]
  reads old := by rw [hostSteps_statusRegWrite hr]; rfl
  goesOn old := by rw [hostSteps_statusRegWrite hr]; exact (by decide : 1 + 1 < 9)
  writes old := by rw [hostSteps_statusRegWrite hr]; rfl
  keepsOnce old k m hm := by
    rw [hostSteps_statusRegWrite hr] at hm
    exact keepsByte_position (flags := [false, true, false, false, false, false, false, false, false]) rfl (by decide) hm

theorem init_masksFreshRead (p : Config.Params) : MasksFreshRead p .init .three wpsMask wpsMask 2 5 where
  host := rfl
  accepted := rfl
  reads _ := rfl
  goesOn _ := (by decide : 2 + 1 < 14)
  writes _ := rfl
  keepsOnce _ _ _ := keepsByte_position (flags := [false, false, true] ++ List.replicate 11 false) rfl (by decide)

section
variable {s : State} {i : Instr} {r : SrNum} {mask value : Byte} {read write : Nat}
  (h : MasksFreshRead s.cfg i r mask value read write)
include h

/-- The judgement of the fresh read keeps the byte that came back. -/
theorem MasksFreshRead.exec_read {v : Byte} (hj : Judging read [v] s) :
    exec i s = .next (s.setPhase (some (phaseAt (read + 1) v))) := by
  obtain ⟨old, hp⟩ := hj
  rw [exec_running h.host h.accepted hp (h.reads old)]
  show Host.Outcome.next (advance _ _ s) = _
  rw [advance, if_pos (h.goesOn old)]
  rfl

/-- No other step changes the byte kept. -/
theorem MasksFreshRead.exec_other {t : State} {ph : Phase} (hp : s.phase = some ph) (hpc : ph.pc ≠ read)
    (he : exec i s = .next t) : OldIs ph.old t := by
  obtain ⟨c, hc, -⟩ | ⟨-, hn, -⟩ | ⟨-, ph', m, hp', hm, hstep⟩ := exec_host_cases h.host he
  · simp [h.accepted] at hc
  · simp [hp] at hn
  · obtain rfl := Option.some.inj (hp.symm.trans hp')
    exact microStep_old (eq_false_of_ne_true fun hk => hpc (h.keepsOnce _ _ _ hm hk)) hstep

/-- The exchange of the status write sends the masked update of the byte kept. -/
theorem MasksFreshRead.exec_write {ph : Phase} (hp : s.phase = some ph) (hpc : ph.pc = write) (hst : ph.stage = .send)
    (hcs : s.csN = false) : ∃ t rx ok, exec i s = .next t ∧
      t.trace = .x [wrsrOp s.cfg.ops r, maskedUpdate ph.old mask value] rx ok :: s.trace := by
  have hm := h.writes ph.old
  rw [← hpc] at hm
  rw [exec_running h.host h.accepted hp hm]
  simp only [microStep, bracketStep, hst, exchangeStep, hcs, Bool.false_eq_true, if_false]
  exact ⟨_, _, _, rfl, rfl⟩

end

/-! ### Who sends a status write -/

/-- The command of a status write to `r` (R88). -/
def statusWriteOp : SrNum → WireOp
  | .one => .wrsr1
  | .two => .wrsr2
  | .three => .wrsr3

theorem wrsrOp_eq_code (t : Config.OpcodeTable) (r : SrNum) : wrsrOp t r = t.code (statusWriteOp r) := by
  cases r <;> rfl

theorem statusWriteOp_mem (r : SrNum) : statusWriteOp r ∈ [WireOp.wrsr1, .wrsr2, .wrsr3] := by
  cases r <;> decide

theorem statusWriteOp_inj {r r' : SrNum} (h : statusWriteOp r = statusWriteOp r') : r = r' := by
  cases r <;> cases r' <;> first | rfl | cases h

/-- In a distinct table a byte names one command (R89). -/
theorem code_inj {t : Config.OpcodeTable} (ht : t.Distinct) {v w : WireOp} (h : t.code v = t.code w) : v = w := by
  have hv := t.lookup_code v ht
  rw [h, t.lookup_code w ht] at hv
  exact (Option.some.inj hv).symm

/-- Whatever the step sends begins with the opcode of a command that is no status write. -/
def NoStatusWrite (t : Config.OpcodeTable) (m : Micro) : Prop :=
  ∀ tx, sentBytes m = some tx → ∃ w, tx.head? = some (t.code w) ∧ w ∉ [WireOp.wrsr1, .wrsr2, .wrsr3]

section
variable {t : Config.OpcodeTable}

theorem NoStatusWrite.of_head {m : Micro} (w : WireOp) {rest : List Byte} (h : sentBytes m = some (t.code w :: rest))
    (hw : w ∉ [WireOp.wrsr1, .wrsr2, .wrsr3]) : NoStatusWrite t m := by
  intro tx htx
  obtain rfl := Option.some.inj (h.symm.trans htx)
  exact ⟨w, rfl, hw⟩

theorem noStatusWrite_delay (us : Nat) : NoStatusWrite t (.delay us) := by
  intro tx h
  simp [sentBytes] at h

theorem noStatusWrite_busyCheck : NoStatusWrite t (busyCheck t) := .of_head .rdsr1 rfl (by decide)

theorem noStatusWrite_welWait : NoStatusWrite t (welWait t) := .of_head .rdsr1 rfl (by decide)

theorem noStatusWrite_srRead (r : SrNum) (u : Use) : NoStatusWrite t (srRead t r u) := by
  cases r
  · exact .of_head .rdsr1 rfl (by decide)
  · exact .of_head .rdsr2 rfl (by decide)
  · exact .of_head .rdsr3 rfl (by decide)

theorem writeEnableSteps_noStatusWrite : ∀ m ∈ writeEnableSteps t, NoStatusWrite t m := by
  simp only [writeEnableSteps, List.forall_mem_cons]
  exact ⟨noStatusWrite_busyCheck, .of_head .wren rfl (by decide), noStatusWrite_srRead .one _, List.forall_mem_nil _⟩

theorem volatileWriteEnableSteps_noStatusWrite : ∀ m ∈ volatileWriteEnableSteps t, NoStatusWrite t m := by
  simp only [volatileWriteEnableSteps, List.forall_mem_cons]
  exact ⟨noStatusWrite_busyCheck, .of_head .vwren rfl (by decide), List.forall_mem_nil _⟩

theorem eraseLead_noStatusWrite (w : WireOp) {rest : List Byte} (hw : w ∉ [WireOp.wrsr1, .wrsr2, .wrsr3]) :
    ∀ m ∈ eraseLead t (t.code w :: rest), NoStatusWrite t m := by
  simp only [eraseLead, List.forall_mem_append, List.forall_mem_singleton]
  exact ⟨⟨noStatusWrite_busyCheck, writeEnableSteps_noStatusWrite⟩, .of_head w rfl hw⟩

theorem eraseConfirm_noStatusWrite : ∀ m ∈ eraseConfirm t, NoStatusWrite t m := by
  simp only [eraseConfirm, List.forall_mem_cons]
  exact ⟨noStatusWrite_busyCheck, noStatusWrite_welWait, List.forall_mem_nil _⟩

theorem readSteps_noStatusWrite (a len : Nat) (u : Use) : ∀ m ∈ readSteps t a len u, NoStatusWrite t m := by
  simp only [readSteps, List.forall_mem_cons]
  exact ⟨noStatusWrite_busyCheck, .of_head .read rfl (by decide), List.forall_mem_nil _⟩

/-- A lock operation sends its query, `write_enable`'s frames and its command. -/
theorem lockSteps_noStatusWrite (p : Config.Params) (block : Byte) (target : Bool) (w : WireOp) {rest : List Byte}
    (hw : w ∉ [WireOp.wrsr1, .wrsr2, .wrsr3]) :
    ∀ m ∈ [lockQuery p block target] ++ writeEnableSteps p.ops ++ [.send (p.ops.code w :: rest)], NoStatusWrite p.ops m := by
  simp only [List.forall_mem_append, List.forall_mem_singleton]
  exact ⟨⟨.of_head .rdlock rfl (by decide), writeEnableSteps_noStatusWrite⟩, .of_head w rfl hw⟩

theorem resetSteps_noStatusWrite : ∀ m ∈ resetSteps t, NoStatusWrite t m := by
  simp only [resetSteps, List.forall_mem_append, List.forall_mem_cons]
  exact ⟨⟨⟨noStatusWrite_busyCheck, List.forall_mem_nil _⟩, writeEnableSteps_noStatusWrite⟩, .of_head .rsten rfl (by decide),
    .of_head .rst rfl (by decide), noStatusWrite_delay _, noStatusWrite_srRead .one _, List.forall_mem_nil _⟩

theorem pageProgramSteps_noStatusWrite (a : Nat) (tx : List Byte) :
    ∀ m ∈ pageProgramSteps t a tx, NoStatusWrite t m := by
  simp only [pageProgramSteps, List.forall_mem_append, List.forall_mem_singleton]
  exact ⟨⟨⟨noStatusWrite_busyCheck, writeEnableSteps_noStatusWrite⟩, .of_head .pp rfl (by decide)⟩,
    readSteps_noStatusWrite a _ _⟩

/-- `status_reg_write` sends one status write, the masked update. -/
theorem statusRegWriteSteps_statusWrites (r : SrNum) (mask value old : Byte) :
    ∀ m ∈ statusRegWriteSteps t r mask value old,
      NoStatusWrite t m ∨ m = .send [wrsrOp t r, maskedUpdate old mask value] := by
  simp only [statusRegWriteSteps, List.forall_mem_append, List.forall_mem_cons]
  exact ⟨⟨⟨.inl noStatusWrite_busyCheck, .inl (noStatusWrite_srRead r _), List.forall_mem_nil _⟩,
    fun m hm => .inl (volatileWriteEnableSteps_noStatusWrite m hm)⟩, .inr trivial, .inl (noStatusWrite_delay _),
    .inl noStatusWrite_busyCheck, .inl noStatusWrite_welWait, .inl (noStatusWrite_srRead r _), List.forall_mem_nil _⟩

/-- `init` sends one status write, that of the `status_reg_write` in it. -/
theorem initSteps_statusWrites (old : Byte) :
    ∀ m ∈ initSteps t old, NoStatusWrite t m ∨ m = .send [wrsrOp t .three, maskedUpdate old wpsMask wpsMask] := by
  simp only [initSteps, List.forall_mem_append, List.forall_mem_singleton]
  exact ⟨⟨⟨.inl (noStatusWrite_srRead .three _), statusRegWriteSteps_statusWrites .three _ _ _⟩,
    fun m hm => .inl (writeEnableSteps_noStatusWrite m hm)⟩, .inl (.of_head .gunlock rfl (by decide))⟩

end

/-- The accepted operations that put a status write on the wire, and what they send (R91). -/
theorem hostSteps_statusWrites {p : Config.Params} {old : Byte} {i : Instr} {m : Micro} (hr : rejectCause i = none)
    (hm : m ∈ hostSteps p old i) :
    NoStatusWrite p.ops m ∨ ∃ r mask value, m = .send [wrsrOp p.ops r, maskedUpdate old mask value] ∧
      ((∃ reg, i = .statusRegWrite reg mask value ∧ srOfReg reg = some r) ∨
        (i = .init ∧ r = .three ∧ mask = wpsMask ∧ value = wpsMask)) := by
  have hce : ∀ m ∈ hostSteps p old .chipErase, NoStatusWrite p.ops m := by
    simp only [hostSteps, chipEraseSteps, List.forall_mem_append, List.forall_mem_singleton]
    exact ⟨⟨eraseLead_noStatusWrite .ce (by decide), noStatusWrite_delay _⟩, eraseConfirm_noStatusWrite⟩
  cases i
  case init =>
    obtain h | h := initSteps_statusWrites old m hm
    · exact .inl h
    · exact .inr ⟨.three, wpsMask, wpsMask, h, .inr ⟨rfl, rfl, rfl, rfl⟩⟩
  case statusRegWrite reg mask value =>
    cases hreg : srOfReg reg with
    | none => simp [rejectCause, hreg] at hr
    | some r =>
      rw [hostSteps_statusRegWrite hreg] at hm
      obtain h | h := statusRegWriteSteps_statusWrites r mask value old m hm
      · exact .inl h
      · exact .inr ⟨r, mask, value, h, .inl ⟨reg, rfl, hreg⟩⟩
  case statusRegRead reg => exact .inl (List.mem_singleton.1 hm ▸ noStatusWrite_srRead _ _)
  case writeEnable => exact .inl (writeEnableSteps_noStatusWrite m hm)
  case volatileWriteEnable => exact .inl (volatileWriteEnableSteps_noStatusWrite m hm)
  case reset => exact .inl (resetSteps_noStatusWrite m hm)
  case read b sec pg off len => exact .inl (readSteps_noStatusWrite _ _ _ m hm)
  case pageProgram b sec pg off tx => exact .inl (pageProgramSteps_noStatusWrite _ tx m hm)
  case blockErase b =>
    exact .inl (List.forall_mem_append.2 ⟨eraseLead_noStatusWrite .be (by decide), eraseConfirm_noStatusWrite⟩ m hm)
  case sectorErase b sec =>
    exact .inl (List.forall_mem_append.2 ⟨eraseLead_noStatusWrite .se (by decide), eraseConfirm_noStatusWrite⟩ m hm)
  case chipErase => exact .inl (hce m hm)
  case blockLock b => exact .inl (lockSteps_noStatusWrite p b true .blockLock (by decide) m hm)
  case blockUnlock b => exact .inl (lockSteps_noStatusWrite p b false .blockUnlock (by decide) m hm)
  all_goals exact absurd hm List.not_mem_nil

/-- Settles O34: `status_reg_write` and `init` write back the byte they have just read, masked, and only they send a status
write. The name `maskedUpdate` is the operation's own. -/
theorem maskedUpdateHolds : Obligations.MaskedUpdate := by
  refine ⟨fun old mask value k => getLsbD_maskedUpdate old mask value, fun s r i mask value read write hi => ?_,
    fun p old i m tx r ht hr hm htx hhead => ?_⟩
  · have h : MasksFreshRead s.cfg i r mask value read write := by
      obtain ⟨reg, hr, rfl, rfl, rfl⟩ | ⟨rfl, rfl, rfl, rfl, rfl, rfl⟩ := hi
      · exact statusRegWrite_masksFreshRead hr s.cfg mask value
      · exact init_masksFreshRead s.cfg
    exact ⟨⟨.keepOld, h.reads⟩, fun v hj => h.exec_read hj, fun t ph ph' hp hpc he => h.exec_other hp hpc he ph',
      fun ph hp hpc hst hcs => h.exec_write hp hpc hst hcs⟩
  · obtain h | ⟨r', mask, value, rfl, h⟩ := hostSteps_statusWrites hr hm
    · obtain ⟨w, hw, hplain⟩ := h tx htx
      rw [hw, wrsrOp_eq_code] at hhead
      exact absurd (statusWriteOp_mem r) (code_inj ht (Option.some.inj hhead) ▸ hplain)
    · obtain rfl := Option.some.inj htx
      have hop : wrsrOp p.ops r' = wrsrOp p.ops r := Option.some.inj hhead
      rw [wrsrOp_eq_code, wrsrOp_eq_code] at hop
      obtain rfl := statusWriteOp_inj (code_inj ht hop)
      obtain ⟨reg, rfl, hreg⟩ | ⟨rfl, rfl, rfl, rfl⟩ := h
      · exact .inl ⟨reg, mask, value, rfl, hreg, rfl⟩
      · exact .inr ⟨rfl, rfl, rfl⟩

end Sys2Proof.Machine
end

section
/-!
PROOF. The statements of 20_memory: the linear address, its fields and its bytes on the wire, and the array read.
-/

namespace Sys2Proof.Machine

/-! ### The address as three bytes -/

/-- The chip reads from a header the address the block has put into it (R53, R209). -/
theorem headerAddr_addrBytes {a : Nat} (ha : a < Config.arraySize) :
    headerAddr (addrByte2 a) (addrByte1 a) (addrByte0 a) = a := by
  simp only [headerAddr, addrByte2, addrByte1, addrByte0, BitVec.toNat_ofNat, Config.arraySize] at *
  omega

/-! ### The coordinates of the linear address -/

section
variable {b sec pg off : Byte}

/-- The linear address with the four weights as numerals. -/
theorem linearAddr_eq (b sec pg off : Byte) :
    linearAddr b sec pg off = b.toNat * 65536 + sec.toNat * 4096 + pg.toNat * 256 + off.toNat := rfl

theorem linearAddr_lt (hs : sec.toNat ≤ 15) (hp : pg.toNat ≤ 15) : linearAddr b sec pg off < Config.arraySize := by
  have := b.isLt; have := off.isLt
  simp only [linearAddr_eq, Config.arraySize]; omega

theorem linearAddr_block (hs : sec.toNat ≤ 15) (hp : pg.toNat ≤ 15) : linearAddr b sec pg off / 65536 = b.toNat := by
  have := off.isLt
  rw [linearAddr_eq]; omega

/-- `A[15:8]` holds the sector and the page: no carry comes from the offset, and the block lies above. -/
theorem linearAddr_middle (hs : sec.toNat ≤ 15) (hp : pg.toNat ≤ 15) :
    linearAddr b sec pg off / 256 % 256 = sec.toNat * 16 + pg.toNat := by
  have := off.isLt
  rw [linearAddr_eq]; omega

theorem linearAddr_sector (hs : sec.toNat ≤ 15) (hp : pg.toNat ≤ 15) :
    linearAddr b sec pg off / 4096 % 16 = sec.toNat := by
  have := linearAddr_middle (b := b) (off := off) hs hp
  omega

theorem linearAddr_page (hs : sec.toNat ≤ 15) (hp : pg.toNat ≤ 15) :
    linearAddr b sec pg off / 256 % 16 = pg.toNat := by
  have := linearAddr_middle (b := b) (off := off) hs hp
  omega

theorem linearAddr_offset (b sec pg off : Byte) : linearAddr b sec pg off % 256 = off.toNat := by
  have := off.isLt
  rw [linearAddr_eq]; omega

/-! ### Its bytes -/

theorem addrByte2_linearAddr (hs : sec.toNat ≤ 15) (hp : pg.toNat ≤ 15) : addrByte2 (linearAddr b sec pg off) = b := by
  rw [addrByte2, linearAddr_block hs hp, BitVec.ofNat_toNat, BitVec.setWidth_eq]

theorem addrByte1_linearAddr (hs : sec.toNat ≤ 15) (hp : pg.toNat ≤ 15) :
    (addrByte1 (linearAddr b sec pg off)).toNat = sec.toNat * 16 + pg.toNat :=
  (BitVec.toNat_ofNat _ _).trans (linearAddr_middle hs hp)

theorem addrByte0_linearAddr (b sec pg off : Byte) : addrByte0 (linearAddr b sec pg off) = off :=
  BitVec.eq_of_toNat_eq ((BitVec.toNat_ofNat _ _).trans (linearAddr_offset b sec pg off))

end

/-! ### Data bytes that stay in the page -/

/-- The page wrap of `P(k)` (R209) does nothing to a byte that stays in the page of the first one. -/
theorem pageAddr_in_page {a k : Nat} (h : a % 256 + k < 256) : pageAddr a k = a + k := by
  simp only [pageAddr, Config.pageSize]; omega

/-- Settles O35: the fields and the bytes by division, the chip's address from them as of any address below 2^24, and
data byte `k` by the offset field. -/
theorem addressFieldsAndBytes : Obligations.AddressFieldsAndBytes := by
  intro b sec pg off hs hp
  have hlt : linearAddr b sec pg off < Config.arraySize := linearAddr_lt hs hp
  have hoff : linearAddr b sec pg off % 256 = off.toNat := linearAddr_offset b sec pg off
  refine ⟨hlt, linearAddr_block hs hp, linearAddr_sector hs hp, linearAddr_page hs hp, hoff, addrByte2_linearAddr hs hp,
    addrByte1_linearAddr hs hp, addrByte0_linearAddr b sec pg off, headerAddr_addrBytes hlt, fun k hk => ?_⟩
  rw [← hoff] at hk
  exact ⟨pageAddr_in_page hk, by omega⟩

/-! ### The array read -/

/-- Settles O39: right after the header no byte has been clocked, and from there `clockBytes_read`, the induction on the
number of bytes, gives the array in order. -/
theorem readReturnsArrayInOrder : Obligations.ReadReturnsArrayInOrder := by
  intro p w a2 a1 a0 n hd ha hb hf
  have h := clockBytes_read hd a2 a1 a0 n w [] ha hb hf
  rwa [List.length_nil, Nat.add_zero] at h

end Sys2Proof.Machine
end

section
/-!
PROOF. The statements of 30_encoding: the round trip of the encoder and the decoder, the words written out from its tables,
the wire commands an operation sends, and the answer to a lock query.
-/

namespace Sys2Proof

/-! ### Encoder and decoder -/

/-- Every instruction's round trip (Laws/PerInstr.lean). -/
theorem Laws.RoundTrip.decode_encode : ∀ i : Instr, Statement i
  | .init => init
  | .statusRegWrite reg mask value => statusRegWrite reg mask value
  | .statusRegRead reg => statusRegRead reg
  | .writeEnable => writeEnable
  | .volatileWriteEnable => volatileWriteEnable
  | .reset => reset
  | .read block sector page offset len => read block sector page offset len
  | .pageProgram block sector page offset tx => pageProgram block sector page offset tx
  | .blockErase block => blockErase block
  | .sectorErase block sector => sectorErase block sector
  | .chipErase => chipErase
  | .blockLock block => blockLock block
  | .blockUnlock block => blockUnlock block
  | .reserved13 => reserved13
  | .reserved14 => reserved14
  | .reserved15 => reserved15
  | .wireWren => wireWren
  | .wireVwren => wireVwren
  | .wireRsten => wireRsten
  | .wireRst => wireRst
  | .wireRead a2 a1 a0 n => wireRead a2 a1 a0 n
  | .wirePp a2 a1 a0 d => wirePp a2 a1 a0 d
  | .wireBe a2 a1 a0 => wireBe a2 a1 a0
  | .wireSe a2 a1 a0 => wireSe a2 a1 a0
  | .wireCe => wireCe
  | .wireBlockLock a2 a1 a0 => wireBlockLock a2 a1 a0
  | .wireBlockUnlock a2 a1 a0 => wireBlockUnlock a2 a1 a0
  | .wireRdlock a2 a1 a0 n => wireRdlock a2 a1 a0 n
  | .wireGunlock => wireGunlock
  | .wireRdsr1 n => wireRdsr1 n
  | .wireRdsr2 n => wireRdsr2 n
  | .wireRdsr3 n => wireRdsr3 n
  | .wireWrsr1 d => wireWrsr1 d
  | .wireWrsr2 d => wireWrsr2 d
  | .wireWrsr3 d => wireWrsr3 d

/-- Settles O1: instruction by instruction; for a wire command R89 gives back the command from its opcode. -/
theorem decodeEncodeRoundTrip : Obligations.DecodeEncodeRoundTrip := fun p i => Laws.RoundTrip.decode_encode i p

/-- Settles O2: the table words are read by evaluation; every tuple and frame written out is the encoding of its
instruction, so the round trip decodes it. -/
theorem writtenWordsDecode : Obligations.WrittenWordsDecode := by
  unfold Obligations.WrittenWordsDecode
  intro p
  have hd : p.ops.Distinct := by decide
  have roundTrip (i : Instr) (hw : i.wf p = true) : decode p (encode p i) = .ok i := decodeEncodeRoundTrip p i hd hw
  exact ⟨hd, by decide, by decide, by decide, roundTrip (.sectorErase 1 1) rfl, roundTrip (.statusRegWrite 3 0x04 0x04) rfl,
    roundTrip (.pageProgram 1 1 1 0 [0x02, 0x04, 0x06]) rfl, roundTrip (.wirePp 0x01 0x11 0x00 [0x02, 0x04, 0x06]) rfl,
    roundTrip (.wireRead 0x01 0x11 0x00 3) rfl, roundTrip (.wireWrsr3 0x64) rfl,
    roundTrip (.wireBlockLock 0x05 0x00 0x00) rfl⟩

namespace Machine

/-! ### The commands an operation sends -/

theorem hostSteps_statusRegRead {reg : BitVec 2} {r : SrNum} (hr : srOfReg reg = some r) (p : Config.Params) (old : Byte) :
    hostSteps p old (.statusRegRead reg) = statusRegReadSteps p.ops r := by
  rw [hostSteps, hr, Option.getD_some]

/-- Settles O7: each row is read off the pseudocode with its subroutines written out, for a status operation the
pseudocode of the register it names. -/
theorem operationsSendTheirCommands : Obligations.OperationsSendTheirCommands := by
  intro p old t sends we srw
  refine ⟨rfl, rfl, fun reg r hr => ?statusRegRead, fun reg r m v hr => ?statusRegWrite, rfl, rfl, fun _ _ _ _ _ => rfl,
    fun _ _ _ _ _ => rfl, fun _ => rfl, fun _ _ => rfl, rfl, fun _ => rfl, fun _ => rfl⟩
  case statusRegRead =>
    simp only [sends, hostSteps_statusRegRead hr]
    rfl
  case statusRegWrite =>
    simp only [sends, hostSteps_statusRegWrite hr]
    rfl

/-! ### The answer to a lock query -/

/-- The judgement of a delivered query does with the bytes what the query says. -/
theorem exec_judged_query {i : Instr} {s : State} {pc n : Nat} {rx tx : List Byte} {old : Byte} {u : Use}
    (hi : isHost i = true) (hr : rejectCause i = none)
    (hp : s.phase = some { pc := pc, stage := .judge, ok := true, rx := rx, old := old })
    (hm : (hostSteps s.cfg old i)[pc]? = some (.query tx n u)) :
    exec i s = .next (useBytes (hostSteps s.cfg old i)
      { pc := pc, stage := .judge, ok := true, rx := rx, old := old } u s) := by
  rw [exec_running hi hr hp hm]
  rfl

/-- The answer to a lock query is judged by bit `LOCK_BIT` of its byte (R92). -/
theorem useBytes_refuseLocked (prog : List Micro) (pc : Nat) (v old : Byte) (bit : Nat) (target : Bool) (s : State) :
    useBytes prog { pc := pc, stage := .judge, ok := true, rx := [v], old := old } (.refuseLocked bit target) s =
      if v.getLsbD bit = target then raiseCause .lockStateConflict none s
      else advance prog { pc := pc, stage := .judge, ok := true, rx := [v], old := old } s := rfl

/-- An operation that begins with a lock query and does not end there is refused when bit `LOCK_BIT` of the answer is the
state it aims at, and goes on when it is not (R181 to R183). -/
theorem lockQuery_decides {i : Instr} {s : State} {b v : Byte} {target : Bool} (hi : isHost i = true)
    (hr : rejectCause i = none) (hm : ∀ old, (hostSteps s.cfg old i)[0]? = some (lockQuery s.cfg b target))
    (hlen : ∀ old, 1 < (hostSteps s.cfg old i).length) (hj : Judging 0 [v] s) :
    (v.getLsbD s.cfg.lockBit = target → Rejects .lockStateConflict s (exec i s)) ∧
      (v.getLsbD s.cfg.lockBit = !target → ∃ old, exec i s = .next (s.setPhase (some (phaseAt 1 old)))) := by
  obtain ⟨old, hp⟩ := hj
  rw [exec_judged_query hi hr hp (hm old), useBytes_refuseLocked]
  refine ⟨fun hv => ?refused, fun hv => ⟨old, ?goesOn⟩⟩
  case refused =>
    rw [if_pos hv]
    exact raiseCause_rejects _ _ s
  case goesOn =>
    rw [if_neg (hv.trans_ne (Bool.not_ne_self target)), advance_next (hlen old)]

/-- Settles O14: the lock aims at 1 and the unlock at 0, so each answer refuses the one and lets the other go on. -/
theorem lockStateConflictRefused : Obligations.LockStateConflictRefused := by
  intro s b v hj
  have hlock := lockQuery_decides (i := .blockLock b) (target := true) rfl rfl (fun _ => rfl)
    (fun _ => (by decide : 1 < 5)) hj
  have hunlock := lockQuery_decides (i := .blockUnlock b) (target := false) rfl rfl (fun _ => rfl)
    (fun _ => (by decide : 1 < 5)) hj
  exact ⟨fun hv => ⟨hlock.1 hv, hunlock.2 hv⟩, fun hv => ⟨hunlock.1 hv, hlock.2 hv⟩⟩

end Machine

end Sys2Proof
end

section
/-!
PROOF. The statements of 40_transport_and_framer: the exchange, the steps of a bracket, and the bracket discipline that
every step keeps.
-/

namespace Sys2Proof.Machine

/-! ### The exchange -/

/-- An exchange succeeds exactly when the link draws no failure for its length (R117). -/
theorem exchange_ok_iff (p : Config.Params) (tx : List Byte) (w : World) :
    (exchange p tx w).1 = true ↔ failedAfter (nextLink w.env) tx.length = none := by
  unfold exchange
  cases failedAfter (nextLink w.env) tx.length <;> simp

/-- Some outcome of the link fails an exchange after any number of its bytes, from none to all of them (R118). -/
theorem exists_failedAfter {len j : Nat} (h : j ≤ len) : ∃ o, failedAfter o len = some j := by
  cases j with
  | zero => exact ⟨.busyAtEntry, rfl⟩
  | succ i => exact ⟨.rxTimeout i, if_pos h⟩

/-- Settles O37: `exchange_settled` gives the chip, the drawn failure decides success, and the script's first entry is the
draw. -/
theorem exchangeDeliversPrefix : Obligations.ExchangeDeliversPrefix := by
  intro p tx w drawn
  have hdraw : ∀ o, nextLink (drawn o).env = o := fun _ => rfl
  obtain ⟨c, hc, hchip⟩ := exchange_settled p tx w
  refine ⟨exchange_length p tx w, ⟨c, hc, hchip.trans ?delivered⟩, exchange_ok_iff p tx w, fun j hj => failedAfter_le hj,
    ⟨.delivered, hdraw _, rfl, (exchange_ok_iff p tx _).2 rfl⟩, fun j hj => ?fails⟩
  case delivered =>
    unfold deliveredBytes
    cases failedAfter (nextLink w.env) tx.length <;> rfl
  case fails =>
    obtain ⟨o, ho⟩ := exists_failedAfter hj
    have hne : ¬(exchange p tx (drawn o)).1 = true := by
      rw [exchange_ok_iff, hdraw, ho]
      exact Option.some_ne_none j
    exact ⟨o, hdraw o, ho, eq_false_of_ne_true hne⟩

/-! ### The steps of a bracket -/

section
variable {prog : List Micro} {ph : Phase} {m : Micro} {tx : List Byte} {s : State}

/-- A step of the pseudocode that sends bytes is a bracket around them (R111). -/
theorem microStep_of_sentBytes (h : sentBytes m = some tx) : microStep prog ph m s = bracketStep prog ph m tx s := by
  cases m with
  | delay us => simp [sentBytes] at h
  | poll op bit => rw [← Option.some.inj h]; rfl
  | send tx' => rw [← Option.some.inj h]; rfl
  | query tx' n u => rw [← Option.some.inj h]; rfl

theorem bracketStep_low (hst : ph.stage = .low) (hcs : s.csN = true) :
    bracketStep prog ph m tx s = .next ((csLow s).setPhase (some { ph with stage := .send })) := by
  simp [bracketStep, hst, hcs]

theorem bracketStep_send (hst : ph.stage = .send) (hcs : s.csN = false) :
    bracketStep prog ph m tx s = .next (exchanged tx ph (afterSend m) s) := by
  simp [bracketStep, hst, exchangeStep, hcs]

theorem bracketStep_recv {n : Nat} (hst : ph.stage = .recv) (hn : receiveCount m = some n) (hcs : s.csN = false) :
    bracketStep prog ph m tx s = .next (exchanged (fillerBytes n) ph (fun _ => .high) s) := by
  simp [bracketStep, hst, hn, exchangeStep, hcs]

theorem bracketStep_high (hst : ph.stage = .high) :
    bracketStep prog ph m tx s = .next ((csHigh s).setPhase (some { ph with stage := .judge })) := by
  simp [bracketStep, hst]

end

/-- The closing of an open bracket, written out (R114, R202). -/
theorem csHigh_of_open {s : State} (hcs : s.csN = false) :
    csHigh s = emit (.cs true) ((s.setCs true).setChip { s.chip with frame := [], closed := some s.chip.frame }) := by
  simp [csHigh, closeBracket, hcs]

/-- The chip, the environment, the event and the phase after an exchange are those of `exchange` (R110, R123). -/
theorem exchanged_fields (tx : List Byte) (ph : Phase) (next : Bool → Stage) (s : State) :
    ∃ ok rx w, exchange s.cfg tx s.world = (ok, rx, w) ∧ (exchanged tx ph next s).chip = w.chip ∧
      (exchanged tx ph next s).env = w.env ∧ (exchanged tx ph next s).trace = .x tx rx ok :: s.trace ∧
      (exchanged tx ph next s).phase = some { ph with stage := next ok, ok := ok, rx := rx } :=
  ⟨_, _, _, rfl, rfl, rfl, rfl, rfl⟩

/-- A receive phase follows exactly a delivered send phase of a step that receives (R115). -/
theorem afterSend_eq (m : Micro) (ok : Bool) :
    afterSend m ok = if ok = true ∧ (receiveCount m).isSome = true then .recv else .high := by
  simp [afterSend]

/-- Settles O17: the running operation's step is that of its bracket, stage by stage. -/
theorem bracketRunsItsExchanges : Obligations.BracketRunsItsExchanges := by
  intro i s ph m tx hi hr hp hm htx
  have hexec : exec i s = bracketStep (hostSteps s.cfg ph.old i) ph m tx s :=
    (exec_running hi hr hp hm).trans (microStep_of_sentBytes htx)
  refine ⟨fun hst hcs => ?low, fun hst hcs => ?send, fun n hst hn hcs => ?recv, fun hst hcs => ?high⟩
  case low => exact ⟨_, hexec.trans (bracketStep_low hst hcs), rfl, rfl, rfl, rfl⟩
  case send =>
    refine ⟨_, hexec.trans (bracketStep_send hst hcs), hcs, ?_⟩
    simpa only [afterSend_eq] using exchanged_fields tx ph (afterSend m) s
  case recv => exact ⟨_, hexec.trans (bracketStep_recv hst hn hcs), hcs, exchanged_fields _ ph _ s⟩
  case high =>
    refine ⟨_, hexec.trans (bracketStep_high hst), ?_⟩
    rw [csHigh_of_open hcs]
    exact ⟨rfl, rfl, rfl, rfl⟩

/-! ### The bracket discipline -/

/-- An IDLE block outside a bracket, whose trace is outside one too, keeps the discipline whatever its latch holds. -/
theorem RunInv.of_idle {s : State} (hp : s.phase = none) (hcs : s.csN = true) (hframe : s.chip.frame = [])
    (htrace : scanTrace s.trace = some none) : RunInv s := by
  refine ⟨⟨?line, fun _ => hframe, fun _ => hcs, ?trace⟩, fun ph h => ?phased⟩
  case line => rw [hcs, hp]; rfl
  case trace => rw [hp]; exact htrace
  case phased => rw [hp] at h; exact absurd h (Option.some_ne_none ph).symm

/-- An IDLE block that keeps the discipline is outside a bracket. -/
theorem RunInv.idle {s : State} (h : RunInv s) (hp : s.phase = none) :
    s.csN = true ∧ s.chip.frame = [] ∧ scanTrace s.trace = some none := by
  obtain ⟨⟨hline, hframe, -, htrace⟩, -⟩ := h
  rw [hp] at hline htrace
  exact ⟨hline, hframe hline, htrace⟩

/-- What the chip does when it is done with its closed frame keeps the discipline: the open frame is as it was (R202). -/
theorem RunInv.of_chip {s : State} {c : Chip} (h : RunInv s) (hframe : c.frame = s.chip.frame) (hclosed : c.closed = none)
    (e : Env) : RunInv ((s.setChip c).setEnv e) := by
  obtain ⟨⟨hline, hempty, -, htrace⟩, hphased⟩ := h
  exact ⟨⟨hline, fun hcs => hframe.trans (hempty hcs), fun hne => absurd hclosed hne, htrace⟩, hphased⟩

/-- A reset of the block ends outside a bracket, with a trace that starts anew (R260). -/
theorem RunInv.blockReset {s : State} (h : RunInv s) : RunInv (blockReset s) := by
  obtain ⟨⟨-, hempty, -, -⟩, -⟩ := h
  obtain ⟨hphase, hline, htrace, -, -, -, hchip⟩ := blockReset_fields s
  refine .of_idle hphase hline ?frame (by rw [htrace]; rfl)
  case frame =>
    rw [hchip]
    cases hcs : s.csN with
    | true => exact hempty hcs
    | false => rfl

/-- Taking a request into the latch of an IDLE block keeps the discipline: `Req` lies outside every bracket (R23). -/
theorem RunInv.takeRequest {s : State} (h : RunInv s) (hp : s.phase = none) (r : Request) (rest : List Request) :
    RunInv (takeRequest r rest s) := by
  obtain ⟨hline, hframe, htrace⟩ := h.idle hp
  exact .of_idle hp hline hframe (by simp [scanTrace, htrace])

/-- Settles O24, by the cases of a step: the chip's own step does not touch the block, a reset of the block and a request
taken leave it IDLE outside a bracket, and a step of the operation in the latch is `exec_host_inv`. -/
theorem stepKeepsBracketDiscipline : Obligations.StepKeepsBracketDiscipline := by
  intro s t hinv h
  obtain ⟨f, i, -, -, hi, h⟩ | ⟨f, e, -, -, rfl⟩ | ⟨hc, -, rfl⟩ | ⟨ph, i, hc, -, -, hd, hi, h⟩ |
    ⟨r, rest, i, hc, -, hp, -, hd, hi, h⟩ | ⟨hc, -, -, -, rfl⟩ := step_cases h
  · obtain ⟨c, e, he, hframe, hclosed⟩ := exec_wire hi s
    obtain rfl := Host.Outcome.next.inj (he.symm.trans h)
    exact hinv.of_chip hframe hclosed e
  · exact hinv.of_chip (c := { s.chip with closed := none }) rfl rfl s.env
  all_goals obtain ⟨hbase, hclosed⟩ := stepBase_inv hinv hc
  · exact hbase.blockReset
  · exact exec_host_inv hi hbase.1 hclosed hd hbase.2 h
  · obtain ⟨hbracketed, hphased⟩ := hbase.takeRequest hp r rest
    exact exec_host_inv hi hbracketed hclosed hd hphased h
  · exact hbase

end Sys2Proof.Machine
end

section
/-!
PROOF. The statements of 41_status_and_latch: how a successful bracket is judged, how the operations of file 41 and those
that run them as sub-steps end or go on, the polls, and the four operations run against the conforming chip.
-/

namespace Sys2Proof.Machine

/-! ### Legal operands -/

theorem rejectCause_read {sec pg : Byte} (hs : sec.toNat ≤ 15) (hp : pg.toNat ≤ 15) (b off : Byte) (len : Nat) :
    rejectCause (.read b sec pg off len) = none := by
  simp [rejectCause, validCoords_eq, hs, hp]

theorem rejectCause_pageProgram {sec pg off : Byte} {tx : List Byte} (hs : sec.toNat ≤ 15) (hp : pg.toNat ≤ 15)
    (hlen : off.toNat + tx.length ≤ 256) (b : Byte) : rejectCause (.pageProgram b sec pg off tx) = none := by
  have htx : tx.length ≤ 256 := (Nat.le_add_left _ _).trans hlen
  simp [rejectCause, validCoords_eq, validProgram_eq, hs, hp, hlen, htx]

theorem rejectCause_sectorErase {sec : Byte} (hs : sec.toNat ≤ 15) (b : Byte) :
    rejectCause (.sectorErase b sec) = none := by
  simp [rejectCause, validCoords_eq, hs]

/-- Every `REG` but 0 selects a register (R22, R84). -/
theorem exists_srOfReg {reg : BitVec 2} (h : reg ≠ 0) : ∃ r, srOfReg reg = some r :=
  Option.ne_none_iff_exists'.1 (srOfReg_ne_none h)

theorem rejectCause_statusRegRead {reg : BitVec 2} {r : SrNum} (h : srOfReg reg = some r) :
    rejectCause (.statusRegRead reg) = none := by
  simp [rejectCause, h]

theorem rejectCause_statusRegWrite {reg : BitVec 2} {r : SrNum} (h : srOfReg reg = some r) (mask value : Byte) :
    rejectCause (.statusRegWrite reg mask value) = none := by
  simp [rejectCause, h]

/-! ### The judgement of a successful bracket -/

section
variable {i : Instr} {s : State} {ph : Phase} (hi : isHost i = true) (hr : rejectCause i = none) (hp : s.phase = some ph)
  (hst : ph.stage = .judge)
include hi hr hp hst

/-- After its bracket a step of the running operation is judged. -/
theorem exec_judged {m : Micro} {tx : List Byte} (hm : (hostSteps s.cfg ph.old i)[ph.pc]? = some m)
    (htx : sentBytes m = some tx) : exec i s = .next (judge (hostSteps s.cfg ph.old i) ph m s) := by
  rw [exec_running hi hr hp hm, microStep_of_sentBytes htx]
  simp only [bracketStep, hst]

variable (hok : ph.ok = true)
include hok

/-- The step whose `Write` was delivered is done. -/
theorem exec_judged_send {tx : List Byte} (hm : (hostSteps s.cfg ph.old i)[ph.pc]? = some (.send tx)) :
    exec i s = .next (advance (hostSteps s.cfg ph.old i) ph s) := by
  rw [exec_judged hi hr hp hst hm rfl, judge, if_pos hok]

/-- A poll goes round while its bit reads set, and is done when it reads clear (R130, R131). -/
theorem exec_judged_poll {op : Byte} {bit : Nat} (hm : (hostSteps s.cfg ph.old i)[ph.pc]? = some (.poll op bit)) :
    exec i s = .next (if (ph.rx.headD 0).getLsbD bit then s.setPhase (some (phaseAt ph.pc ph.old))
      else advance (hostSteps s.cfg ph.old i) ph s) := by
  rw [exec_judged hi hr hp hst hm rfl, judge, if_pos hok]

end

/-- A bit test looks at its bit of the byte read (R134, R152). -/
theorem useBytes_expectBit (prog : List Micro) (pc k : Nat) (v old : Byte) (b : Bool) (c : Cause) (s : State) :
    useBytes prog { pc := pc, stage := .judge, ok := true, rx := [v], old := old } (.expectBit k b c) s =
      if v.getLsbD k = b then advance prog { pc := pc, stage := .judge, ok := true, rx := [v], old := old } s
      else raiseCause c none s := rfl

/-- A masked comparison looks at the masked bits of the byte read (R133). -/
theorem useBytes_expectMasked (prog : List Micro) (pc : Nat) (v old mask value : Byte) (s : State) :
    useBytes prog { pc := pc, stage := .judge, ok := true, rx := [v], old := old } (.expectMasked mask value) s =
      if v &&& mask = value &&& mask then
        advance prog { pc := pc, stage := .judge, ok := true, rx := [v], old := old } s
      else raiseCause .statusVerifyMismatch none s := rfl

section
variable {i : Instr} {s : State} {pc : Nat} (hi : isHost i = true) (hr : rejectCause i = none)
include hi hr

/-- An operation whose last step is a `Write` answers `OK = 1` once it is delivered. -/
theorem exec_sent_last {rx tx : List Byte} (hj : Judging pc rx s)
    (hm : ∀ old, (hostSteps s.cfg old i)[pc]? = some (.send tx)) (hlen : ∀ old, (hostSteps s.cfg old i).length = pc + 1) :
    exec i s = .next (answered { s.resp with ok := true } none s) := by
  obtain ⟨old, hp⟩ := hj
  rw [exec_judged_send hi hr hp rfl rfl (hm old), advance_last (hlen old)]

variable {v old : Byte} {tx : List Byte} {n : Nat}
  (hp : s.phase = some { pc := pc, stage := .judge, ok := true, rx := [v], old := old })
include hp

/-- A bit test passes, or ends the operation with its cause. -/
theorem expectBit_decides {k : Nat} {b : Bool} {c : Cause}
    (hm : (hostSteps s.cfg old i)[pc]? = some (.query tx n (.expectBit k b c))) :
    (v.getLsbD k = b → exec i s = .next
        (advance (hostSteps s.cfg old i) { pc := pc, stage := .judge, ok := true, rx := [v], old := old } s)) ∧
      (v.getLsbD k ≠ b → Rejects c s (exec i s)) := by
  rw [exec_judged_query hi hr hp hm, useBytes_expectBit]
  refine ⟨fun hv => ?passes, fun hv => ?fails⟩
  case passes => rw [if_pos hv]
  case fails =>
    rw [if_neg hv]
    exact raiseCause_rejects c none s

/-- A masked comparison passes, or ends the operation with `StatusVerifyMismatch`. -/
theorem expectMasked_decides {mask value : Byte}
    (hm : (hostSteps s.cfg old i)[pc]? = some (.query tx n (.expectMasked mask value))) :
    (v &&& mask = value &&& mask → exec i s = .next
        (advance (hostSteps s.cfg old i) { pc := pc, stage := .judge, ok := true, rx := [v], old := old } s)) ∧
      (v &&& mask ≠ value &&& mask → Rejects .statusVerifyMismatch s (exec i s)) := by
  rw [exec_judged_query hi hr hp hm, useBytes_expectMasked]
  refine ⟨fun hv => ?passes, fun hv => ?fails⟩
  case passes => rw [if_pos hv]
  case fails =>
    rw [if_neg hv]
    exact raiseCause_rejects _ none s

end

/-! ### The reads that verify WEL -/

/-- The operation `i` runs `write_enable` as a sub-step whose verifying read is its step `pc`, and goes on after it. -/
structure VerifiesLatch (p : Config.Params) (i : Instr) (pc : Nat) : Prop where
  host : isHost i = true
  accepted : rejectCause i = none
  enables : ∀ old, (hostSteps p old i)[pc - 1]? = some (.send [p.ops.wren])
  verifies : ∀ old, (hostSteps p old i)[pc]? =
    some (srRead p.ops .one (.expectBit Config.welBit true .latchVerifyFailure))
  goesOn : ∀ old, pc + 1 < (hostSteps p old i).length

/-- The operations that run `write_enable` as a sub-step, with the position of its verifying read (R152, R153, R162,
R171 to R173, R182, R183). -/
theorem verifiesLatch_of_mem (p : Config.Params) {b sec pg off : Byte} {tx : List Byte} {i : Instr} {pc : Nat}
    (hs : sec.toNat ≤ 15) (hp : pg.toNat ≤ 15) (hlen : off.toNat + tx.length ≤ 256)
    (h : (i, pc) ∈ [(Instr.reset, 3), (.init, 12), (.pageProgram b sec pg off tx, 3), (.blockErase b, 3),
      (.sectorErase b sec, 3), (.chipErase, 3), (.blockLock b, 3), (.blockUnlock b, 3)]) : VerifiesLatch p i pc := by
  simp only [List.mem_cons, List.not_mem_nil, or_false, Prod.mk.injEq] at h
  obtain ⟨rfl, rfl⟩ | ⟨rfl, rfl⟩ | ⟨rfl, rfl⟩ | ⟨rfl, rfl⟩ | ⟨rfl, rfl⟩ | ⟨rfl, rfl⟩ | ⟨rfl, rfl⟩ | ⟨rfl, rfl⟩ := h
  · exact ⟨rfl, rfl, fun _ => rfl, fun _ => rfl, fun _ => (by decide : 4 < 8)⟩
  · exact ⟨rfl, rfl, fun _ => rfl, fun _ => rfl, fun _ => (by decide : 13 < 14)⟩
  · exact ⟨rfl, rejectCause_pageProgram hs hp hlen b, fun _ => rfl, fun _ => rfl, fun _ => (by decide : 4 < 7)⟩
  · exact ⟨rfl, rfl, fun _ => rfl, fun _ => rfl, fun _ => (by decide : 4 < 7)⟩
  · exact ⟨rfl, rejectCause_sectorErase hs b, fun _ => rfl, fun _ => rfl, fun _ => (by decide : 4 < 7)⟩
  · exact ⟨rfl, rfl, fun _ => rfl, fun _ => rfl, fun _ => (by decide : 4 < 8)⟩
  · exact ⟨rfl, rfl, fun _ => rfl, fun _ => rfl, fun _ => (by decide : 4 < 5)⟩
  · exact ⟨rfl, rfl, fun _ => rfl, fun _ => rfl, fun _ => (by decide : 4 < 5)⟩

/-- Settles O8: each verifying read is a bit test; one that passes ends the operation where it is the last step. -/
theorem latchVerifiedOperationsAnswer : Obligations.LatchVerifiedOperationsAnswer := by
  intro s v
  refine ⟨fun hj => ?writeEnable, fun hj => ?reset, fun b sec pg off tx i pc hs hpg hlen hmem => ?subStep⟩
  case writeEnable =>
    obtain ⟨old, hp⟩ := hj
    obtain ⟨hset, hclear⟩ := expectBit_decides (i := .writeEnable) rfl rfl hp rfl
    exact ⟨fun hv => (hset hv).trans (congrArg _ (advance_last rfl s)),
      fun hv => hclear (hv.trans_ne Bool.false_ne_true)⟩
  case reset =>
    obtain ⟨old, hp⟩ := hj
    obtain ⟨hclear, hset⟩ := expectBit_decides (i := .reset) rfl rfl hp rfl
    exact ⟨fun hv => (hclear hv).trans (congrArg _ (advance_last rfl s)),
      fun hv => hset (hv.trans_ne Bool.false_ne_true.symm)⟩
  case subStep =>
    have h := verifiesLatch_of_mem s.cfg hs hpg hlen hmem
    refine ⟨h.enables, fun ph hj hp => ?_⟩
    obtain ⟨old, hp'⟩ := hj
    obtain rfl := Option.some.inj (hp'.symm.trans hp)
    obtain ⟨hset, hclear⟩ := expectBit_decides h.host h.accepted hp (h.verifies old)
    exact ⟨fun hv => (hset hv).trans (congrArg _ (advance_next (h.goesOn old) s)),
      fun hv => hclear (hv.trans_ne Bool.false_ne_true)⟩

/-- Settles O9: the last step of each is a `Write`. -/
theorem frameEndedOperationsAnswer : Obligations.FrameEndedOperationsAnswer := by
  intro s rx b
  exact ⟨fun hj => exec_sent_last rfl rfl hj (fun _ => rfl) fun _ => rfl,
    fun hj => exec_sent_last rfl rfl hj (fun _ => rfl) fun _ => rfl,
    fun hj => exec_sent_last rfl rfl hj (fun _ => rfl) fun _ => rfl,
    fun hj => exec_sent_last rfl rfl hj (fun _ => rfl) fun _ => rfl⟩

/-- Settles O10: the last step of each is a query that writes one field of the response latch. -/
theorem readsAnswerTheirBytes : Obligations.ReadsAnswerTheirBytes := by
  intro s
  refine ⟨fun reg v hreg hj => ?statusRegRead, fun b sec pg off len rx hs hpg hj => ?read⟩
  case statusRegRead =>
    obtain ⟨r, hreg⟩ := exists_srOfReg hreg
    obtain ⟨old, hp⟩ := hj
    have hsteps := hostSteps_statusRegRead hreg s.cfg old
    rw [exec_judged_query rfl (rejectCause_statusRegRead hreg) hp (by rw [hsteps]; rfl), useBytes, hsteps,
      advance_last rfl]
    rfl
  case read =>
    obtain ⟨old, hp⟩ := hj
    rw [exec_judged_query rfl (rejectCause_read hs hpg b off len) hp rfl, useBytes, advance_last rfl]
    rfl

/-- `init`'s masked comparison looks at WPS (R153). -/
theorem and_wpsMask_iff (v : Byte) : v &&& wpsMask = wpsMask &&& wpsMask ↔ v.getLsbD Config.wpsBit = true := by
  have hmask : wpsMask = BitVec.twoPow 8 Config.wpsBit := rfl
  rw [hmask, BitVec.and_self, BitVec.and_twoPow]
  cases v.getLsbD Config.wpsBit <;> decide

/-- Settles O11: the re-read is a masked comparison, the last step of `status_reg_write` and a step inside `init`. -/
theorem statusRegWriteAnswers : Obligations.StatusRegWriteAnswers := by
  intro s chk
  refine ⟨fun reg mask value hreg hj => ?statusRegWrite, fun ph hj hp => ?init⟩
  case statusRegWrite =>
    obtain ⟨r, hreg⟩ := exists_srOfReg hreg
    obtain ⟨old, hp⟩ := hj
    have hsteps := hostSteps_statusRegWrite hreg s.cfg old mask value
    obtain ⟨hequal, hdiffer⟩ := expectMasked_decides (mask := mask) (value := value) rfl
      (rejectCause_statusRegWrite hreg mask value) hp (by rw [hsteps]; rfl)
    exact ⟨fun hv => (hequal hv).trans (congrArg _ (advance_last (by rw [hsteps]; rfl) s)), hdiffer⟩
  case init =>
    obtain ⟨old, hp'⟩ := hj
    obtain rfl := Option.some.inj (hp'.symm.trans hp)
    obtain ⟨hset, hclear⟩ := expectMasked_decides (i := .init) (mask := wpsMask) (value := wpsMask) rfl rfl hp rfl
    rw [and_wpsMask_iff] at hset
    rw [Ne, and_wpsMask_iff] at hclear
    exact ⟨fun hv => (hset hv).trans (congrArg _ (advance_next (by decide : 10 < 14) s)),
      fun hv => hclear (hv.trans_ne Bool.false_ne_true)⟩

/-! ### Polls -/

@[simp] theorem csHigh_resp (s : State) : (csHigh s).resp = s.resp := by
  cases hcs : s.csN <;> simp [csHigh, closeBracket, hcs]

/-- Settles O16: of the five moves of a step only the judgement leaves the poll, and it does so for a clear bit or for a
failed read that is not retried. -/
theorem pollRepeatsUntilClear : Obligations.PollRepeatsUntilClear := by
  intro i s ph op bit hi hr hp hm
  refine ⟨fun hst hok hset => ?set, fun hst hok hclear => ?clear, fun t h => ?stays⟩
  case set => rw [exec_judged_poll hi hr hp hst hok hm, if_pos hset]
  case clear =>
    rw [exec_judged_poll hi hr hp hst hok hm, if_neg (hclear.trans_ne Bool.false_ne_true)]
    exact ⟨fun hlt => by rw [advance_next hlt], fun hlen => by rw [advance_last hlen.symm]⟩
  case stays =>
    rw [exec_running hi hr hp hm] at h
    obtain ⟨us, hdelay, -⟩ | ⟨-, -, -, rfl⟩ | ⟨tx, nx, -, rfl, -⟩ | ⟨-, -, rfl⟩ | ⟨hst, -, rfl⟩ := microStep_cases h
    · cases hdelay
    · exact .inl ⟨_, rfl, rfl, rfl, rfl⟩
    · exact .inl ⟨_, rfl, rfl, rfl, rfl⟩
    · exact .inl ⟨_, rfl, rfl, rfl, csHigh_resp s⟩
    · simp only [judge]
      split
      · rename_i hok
        split
        · exact .inl ⟨_, rfl, rfl, rfl, rfl⟩
        · rename_i hclear
          exact .inr (.inl ⟨hst, hok, eq_false_of_ne_true hclear⟩)
      · rename_i hok
        split
        · rename_i habort
          exact .inr (.inr ⟨hst, eq_false_of_ne_true hok, habort, rfl, rfl⟩)
        · exact .inl ⟨_, rfl, rfl, rfl, rfl⟩

/-! ### Whole runs -/

theorem RunsTo.mono {s : State} {P Q : State → Prop} (h : RunsTo s P) (hPQ : ∀ t, P t → Q t) : RunsTo s Q := by
  obtain ⟨n, t, hrun, hphase, hinbox, hresp, hP⟩ := h
  exact ⟨n, t, hrun, hphase, hinbox, hresp, hPQ t hP⟩

/-- A run that takes the request and comes to an answer runs to it. -/
theorem Reaches.runsTo_answered {s t u : State} {a : Response} {cause : Option Cause} {P : State → Prop}
    (h : Reaches s t) (ht : t.inbox = []) (h' : Reaches t (answered a cause u)) (hP : P (answered a cause u)) :
    RunsTo s P :=
  h.runsTo ht h' rfl rfl hP

section
variable {p : Config.Params} {r : Request} {c d : Chip} {l : List Config.LinkOutcome} {k : List Bool}
  {fs : List (List Byte)} {s : State} {i : Instr} {pc : Nat} {old : Byte}

/-- A `Write` that is the last step. -/
theorem Ctx.writeLast (h : Ctx p r c (.delivered :: l) k fs (phaseAt pc old) true s) (hc : c.closed = none)
    (hb : chipBusy c = false) (hd : decode p (.request r) = .ok i) (hr : rejectCause i = none) {tx : List Byte}
    (hm : (hostSteps p old i)[pc]? = some (.send tx)) (hf : Runs p tx c (· = d)) (hdc : d.closed = none)
    (hdb : chipBusy d = false) (hl : (hostSteps p old i).length = pc + 1) :
    ∃ u rx, Reaches s (answered { u.resp with ok := true } none u) ∧
      Ctx p r d l k (tx :: fs) { pc := pc, stage := .judge, ok := true, rx := rx, old := old } true u := by
  obtain ⟨u, _, rx, rfl, e, h'⟩ := h.writeJudged hc hb hd hr hm hf (by rintro _ rfl; exact ⟨hdc, hdb⟩)
  exact ⟨u, rx, by rwa [advance_last hl] at e, h'⟩

end

/-- Settles O50: a poll, the write-enable frame and the verifying read, which sees the WEL just set. -/
theorem writeEnableRun : Obligations.WriteEnableRun := by
  rintro s hs ⟨rest, hlink⟩
  have ho := hs.distinct
  have hb := hs.idle
  have hw : (setWel true (quiet s.chip)).sr1.getLsbD 1 = true := chipWel_setWel _ true
  obtain ⟨r, t, hd, e, hin, h⟩ := hs.start rfl
  rw [hlink] at h
  obtain ⟨t1, e1, h1⟩ := h.poll hs.closed hb ho hd rfl rfl hb (by decide : 1 < 3)
  obtain ⟨t2, _, rfl, e2, h2⟩ := h1.write rfl hb hd rfl rfl (runs_wren ho hb)
    (by rintro _ rfl; exact ⟨rfl, by simpa using hb⟩) (by decide : 2 < 3)
  obtain ⟨u, e3, h3⟩ := h2.statusLast (n := .one) (a := fun r => { r with ok := true }) rfl (by simpa using hb) ho hd
    rfl rfl rfl rfl fun u => (if_pos hw).trans (advance_last rfl u)
  refine e.runsTo_answered hin (e1.trans (e2.trans e3)) ⟨rfl, ?wel, ?array, h3.sent⟩
  case wel => exact (congrArg chipWel h3.chip).trans hw
  case array => exact (congrArg Chip.array h3.chip).trans rfl

/-- Settles O51: a poll and the volatile-write-enable frame, which sets `vsr_en` alone. -/
theorem volatileWriteEnableRun : Obligations.VolatileWriteEnableRun := by
  rintro s hs ⟨rest, hlink⟩
  have ho := hs.distinct
  have hb := hs.idle
  obtain ⟨r, t, hd, e, hin, h⟩ := hs.start rfl
  rw [hlink] at h
  obtain ⟨t1, e1, h1⟩ := h.poll hs.closed hb ho hd rfl rfl hb (by decide : 1 < 2)
  obtain ⟨u, rx, e2, h2⟩ := h1.writeLast rfl hb hd rfl rfl (runs_vwren ho hb) rfl hb rfl
  refine e.runsTo_answered hin (e1.trans e2) ⟨rfl, ?vsrEn, ?wel, h2.sent⟩
  case vsrEn => exact congrArg Chip.vsrEn h2.chip
  case wel => exact (congrArg chipWel h2.chip).trans rfl

/-- `status_reg_read` at a chip that may be BUSY: from what is known of the chip and of the coming completions before the
request's eight points of completion, what is known of the chip that drove the byte and of the chip at the end. -/
theorem statusRegRead_runsTo {Q : Nat → Chip → List Bool → Prop} (hQ : Keeps Q) {s : State} {reg : BitVec 2} {a : SrNum}
    (hreg : srOfReg reg = some a) (hs : RequestReady (.statusRegRead reg) s) (hlink : LinkDelivers 2 s)
    (hq : Q 8 s.chip s.env.complete) :
    RunsTo s fun t => t.resp.ok = true ∧ (∃ n d k, Q n d k ∧ t.resp.rval = srValue d a) ∧ (∃ k, Q 0 t.chip k) ∧
      Sent s t [[rdsrOp s.cfg.ops a], [0x00]] := by
  obtain ⟨rest, hlink⟩ := hlink
  have hr := rejectCause_statusRegRead hreg
  have hsteps := hostSteps_statusRegRead hreg s.cfg 0
  have ⟨_, _, _, _, hclosed, _, _, ho⟩ := hs
  obtain ⟨r, t, hd, e, hin, h⟩ := hs.start hr
  rw [(tick_env s.world).2, show s.world.env.link = _ from hlink] at h
  obtain ⟨u, n, d, k, c, k', hqd, hqc, -, -, e', h'⟩ := h.statusRead hQ (a := a) (hQ.tick hq)
    ((tick_settled s.world).closed.trans hclosed) ho hd hr (by rw [hsteps]; rfl) rfl rfl
  rw [hsteps] at e'
  refine e.runsTo_answered hin ⟨6, e'⟩ ⟨rfl, ⟨n, d, k, hqd, rfl⟩, ⟨k', ?_⟩, h'.sent⟩
  exact h'.chip ▸ hqc

theorem srValue_completeCycle_quiet (c : Chip) (a : SrNum) :
    srValue (completeCycle (quiet c)) a = srValue (completeCycle c) a := by cases a <;> rfl

/-- Settles O52: `keeps_near` says what is known of a cycle that may complete anywhere, `keeps_calm` of one that goes
on. -/
theorem statusRegReadRun : Obligations.StatusRegReadRun := by
  intro s reg a hreg hs hlink
  refine ⟨(statusRegRead_runsTo (keeps_near s.chip) hreg hs hlink (.refl _)).mono ?near, fun rest hbusy hk =>
    (statusRegRead_runsTo (keeps_calm s.chip rest) hreg hs hlink ⟨rfl, by rw [Calm, if_pos hbusy, hk]⟩).mono ?calm⟩
  case near =>
    rintro t ⟨hok, ⟨_, d, _, hd, hrval⟩, -, hsent⟩
    refine ⟨hok, ?_, hsent⟩
    rw [hrval, ← srValue_quiet d]
    obtain hd | ⟨hbusy, hd⟩ := hd
    · exact .inl (by rw [hd, srValue_quiet])
    · exact .inr ⟨hbusy, by rw [hd, srValue_completeCycle_quiet]⟩
  case calm =>
    rintro t ⟨hok, ⟨_, d, _, ⟨hd, -⟩, hrval⟩, ⟨_, hc, -⟩, hsent⟩
    refine ⟨hok, ?_, ?_, hsent⟩
    · rw [hrval, ← srValue_quiet d, hd, srValue_quiet]
    · rw [← chipBusy_quiet, hc, chipBusy_quiet, hbusy]

/-- Bytes that agree where the mask selects are equal under it. -/
theorem and_mask_congr {x y mask : Byte} (h : ∀ k < 8, mask.getLsbD k = true → x.getLsbD k = y.getLsbD k) :
    x &&& mask = y &&& mask := by
  refine BitVec.eq_of_getLsbD_eq fun k hk => ?_
  rw [BitVec.getLsbD_and, BitVec.getLsbD_and]
  cases hmask : mask.getLsbD k with
  | false => simp
  | true => rw [h k hk hmask]

/-- Settles O53: `Ctx.statusRegWrite` up to the verifying read, which sees the masked bits of VALUE. -/
theorem statusRegWriteRun : Obligations.StatusRegWriteRun := by
  rintro s reg a mask value hreg hro hone hs ⟨rest, hlink⟩ ⟨rest', hk⟩
  have ho := hs.distinct
  have hr := rejectCause_statusRegWrite hreg mask value
  have hsteps := fun old => hostSteps_statusRegWrite hreg s.cfg old mask value
  obtain ⟨r, t, hd, e, hin, h⟩ := hs.start hr
  rw [hlink, hk] at h
  obtain ⟨t1, d, e1, hdc, hdb, hdw, -, -, hbits, h1⟩ := h.statusRegWrite (l := .delivered :: .delivered :: rest) hro
    hs.closed hs.idle ho hd hr (fun old j _ => by rw [hsteps, Nat.zero_add]) fun old => by rw [hsteps]; exact le_rfl
  have hmasked : srValue d a &&& mask = value &&& mask := by
    refine and_mask_congr fun k hk hmask => ?_
    rw [hbits k hk fun ha => ?_, if_pos hmask]
    obtain ⟨hbusy, hwel⟩ := hone ha
    have hk0 : k ≠ 0 := by rintro rfl; exact Bool.false_ne_true (hbusy.symm.trans hmask)
    have hk1 : k ≠ 1 := by rintro rfl; exact Bool.false_ne_true (hwel.symm.trans hmask)
    omega
  obtain ⟨u, e2, h2⟩ := h1.statusLast (n := a) (m := srRead s.cfg.ops a (.expectMasked mask value))
    (a := fun r => { r with ok := true }) hdc hdb ho hd hr (by rw [hsteps]; rfl) rfl rfl
    fun u => (if_pos hmasked).trans (advance_last (by rw [hsteps]; rfl) u)
  refine e.runsTo_answered hin (e1.trans e2) ⟨rfl, ?busy, ?wel, fun k hk ha => ?bits, h2.sent⟩
  case busy => exact (congrArg chipBusy h2.chip).trans hdb
  case wel => exact (congrArg chipWel h2.chip).trans hdw
  case bits => exact (congrArg (fun c => (srValue c a).getLsbD k) h2.chip).trans (by rw [srValue_quiet, hbits k hk ha])

end Sys2Proof.Machine
end

section
/-!
PROOF. The statements of 42_reset_and_init: whole runs of `reset` and of `init` against the conforming chip.
-/

namespace Sys2Proof.Machine

/-- Settles O54: a poll, `write_enable`, the two reset frames, of which the second finds `rst_en` set, the delay, and the
verifying read, which sees the WEL that the reset-device command has cleared. -/
theorem resetRun : Obligations.ResetRun := by
  rintro s hs ⟨rest, hlink⟩
  have ho := hs.distinct
  have hb := hs.idle
  have hbw : chipBusy (quiet (setWel true (quiet s.chip))) = false := by simpa using hb
  obtain ⟨r, t, hd, e, hin, h⟩ := hs.start rfl
  rw [hlink] at h
  obtain ⟨t1, e1, h1⟩ := h.poll hs.closed hb ho hd rfl rfl hb (by decide : 1 < 8)
  obtain ⟨t2, e2, h2⟩ := h1.writeEnable rfl hb ho hd rfl rfl rfl rfl (by decide : 4 < 8)
  obtain ⟨t3, _, rfl, e3, h3⟩ := h2.write rfl hbw hd rfl rfl (runs_rsten ho hbw)
    (by rintro _ rfl; exact ⟨rfl, hbw⟩) (by decide : 5 < 8)
  obtain ⟨t4, d, ⟨hdb, hdw, hda, hdc⟩, e4, h4⟩ := h3.write rfl hbw hd rfl rfl (runs_rst ho hbw rfl)
    (fun _ ⟨hbusy, _, _, hclosed⟩ => ⟨hclosed, hbusy⟩) (by decide : 6 < 8)
  obtain ⟨t5, e5, h5⟩ := h4.delay hdc hdb hd rfl rfl (by decide : 7 < 8)
  obtain ⟨u, e6, h6⟩ := h5.statusLast (n := .one) (a := fun r => { r with ok := true }) hdc hdb ho hd rfl rfl rfl rfl
    fun u => (if_pos hdw).trans (advance_last rfl u)
  refine e.runsTo_answered hin (e1.trans <| e2.trans <| e3.trans <| e4.trans <| e5.trans e6) ⟨rfl, ?wel, ?array, h6.sent⟩
  case wel => exact (congrArg chipWel h6.chip).trans hdw
  case array => exact (congrArg Chip.array h6.chip).trans hda

/-- A delivered query whose bytes are not used further is done (R153). -/
theorem judge_discard {prog : List Micro} {ph : Phase} {tx : List Byte} {n : Nat} (hok : ph.ok = true) (s : State) :
    judge prog ph (.query tx n .discard) s = advance prog ph s := by
  rw [judge, if_pos hok, useBytes]

/-- What an accepted global-unlock leaves, whether or not it clears WEL: every block unlocked, the array, WPS and BUSY as
they were (R213). -/
theorem globalUnlock_accepted {c : Chip} (hb : chipBusy c = false) (hw : chipWel c = true) (hps : chipWps c = true)
    (p : Config.Params) : (lockCommand p clearLocks c).lock = 0 ∧ (lockCommand p clearLocks c).array = c.array ∧
      chipWps (lockCommand p clearLocks c) = true ∧ chipBusy (lockCommand p clearLocks c) = false := by
  rw [lockCommand, hb, hw, hps]
  cases p.lockClearsWel with
  | false => exact ⟨rfl, rfl, hps, hb⟩
  | true => exact ⟨rfl, rfl, hps, (chipBusy_setWel _ false).trans hb⟩

/-- `init` runs `status_reg_write` on register 3 as its steps 1 to 9 (R153). -/
theorem initSteps_statusRegWrite (p : Config.Params) (old : Byte) {j : Nat} (hj : j < 9) :
    (statusRegWriteSteps p.ops .three wpsMask wpsMask old)[j]? = (hostSteps p old .init)[1 + j]? := by
  have hlen : (statusRegWriteSteps p.ops .three wpsMask wpsMask old).length = 9 := rfl
  rw [Nat.add_comm, hostSteps, initSteps, List.append_assoc, List.append_assoc, List.singleton_append,
    List.getElem?_cons_succ, List.getElem?_append_left (hlen ▸ hj)]

/-- Where WPS can be written, `init`'s mask selects no read-only bit of register 3 (R207). -/
theorem and_wpsMask_eq_zero {ro : Byte} (h : ro.getLsbD Config.wpsBit = false) : ro &&& wpsMask = 0 := by
  have hmask : wpsMask = BitVec.twoPow 8 Config.wpsBit := rfl
  rw [hmask, BitVec.and_twoPow, h]
  rfl

/-- Settles O55: the read of register 3, `status_reg_write` up to and with its verifying read, which sees WPS,
`write_enable`, and the global-unlock frame, which the chip accepts because WEL and WPS are now set. -/
theorem initRun : Obligations.InitRun := by
  rintro s hro hs ⟨rest, hlink⟩ ⟨rest', hk⟩
  have ho := hs.distinct
  have hqb : chipBusy (quiet s.chip) = false := hs.idle
  obtain ⟨r, t, hd, e, hin, h⟩ := hs.start rfl
  rw [hlink, hk] at h
  obtain ⟨t1, e1, h1⟩ := h.status (n := .three) (old' := 0) hs.closed hs.idle ho hd rfl rfl rfl rfl
    fun u => (judge_discard rfl u).trans (advance_next (by decide : 1 < 14) u)
  obtain ⟨t2, d, e2, hdc, hdb, -, hda, -, hbits, h2⟩ := h1.statusRegWrite (n := .three)
    (l := List.replicate 8 .delivered ++ rest) (and_wpsMask_eq_zero hro) rfl hqb ho hd rfl
    (fun old _ => initSteps_statusRegWrite s.cfg old) fun _ => (by decide : 10 ≤ 14)
  have hdps : chipWps d = true := by
    have hwps := hbits Config.wpsBit (by decide) (by simp)
    rwa [if_pos (by decide)] at hwps
  obtain ⟨t3, e3, h3⟩ := h2.status (n := .three) hdc hdb ho hd rfl rfl rfl rfl
    fun u => (if_pos ((and_wpsMask_iff _).2 hdps)).trans (advance_next (by decide : 10 < 14) u)
  obtain ⟨t4, e4, h4⟩ := h3.writeEnable rfl hdb ho hd rfl rfl rfl rfl (by decide : 13 < 14)
  have hcb : chipBusy (quiet (setWel true (quiet d))) = false := by simpa using hdb
  obtain ⟨hlock, harray, hwps, hbusy⟩ :=
    globalUnlock_accepted hcb (chipWel_setWel (quiet d) true) (by simpa using hdps) s.cfg
  obtain ⟨u, rx, e5, h5⟩ := h4.writeLast rfl hcb hd rfl rfl (runs_gunlock ho) rfl hbusy rfl
  refine e.runsTo_answered hin (e1.trans <| e2.trans <| e3.trans <| e4.trans e5) ⟨rfl, ?wps, ?lock, ?array, h5.sent⟩
  case wps => exact (congrArg chipWps h5.chip).trans hwps
  case lock => exact (congrArg Chip.lock h5.chip).trans hlock
  case array => exact (congrArg Chip.array h5.chip).trans (harray.trans hda)

end Sys2Proof.Machine
end

section
/-!
PROOF. The statements of 43_read_and_program: how `page_program` ends, and whole runs of `read` and of `page_program`
against the conforming chip.
-/

namespace Sys2Proof.Machine

/-! ### The judgement of the read-back -/

/-- A read-back is judged by the bytes it should have returned (R162). -/
theorem useBytes_verify (prog : List Micro) (ph : Phase) (tx : List Byte) (s : State) :
    useBytes prog ph (.verify tx) s =
      if ph.rx = tx then advance prog ph (s.setResp { s.resp with vbuf := ph.rx })
      else raiseCause .verificationMismatch (some ph.rx) s := rfl

/-- Settles O12: the last step is a query whose read-back is compared with `TXBUF`. -/
theorem pageProgramAnswers : Obligations.PageProgramAnswers := by
  rintro s b sec pg off tx rx hs hpg hlen ⟨old, hp⟩
  rw [exec_judged_query rfl (rejectCause_pageProgram hs hpg hlen b) hp rfl, useBytes_verify]
  refine ⟨fun heq => ?equal, fun hne => ?differs⟩
  case equal =>
    subst heq
    rw [if_pos rfl, advance_last rfl]
    rfl
  case differs =>
    rw [if_neg hne]
    exact ⟨_, rfl, rfl, rfl, rfl, rfl, rfl, rfl⟩

/-! ### The bytes of the array in order -/

/-- The `n` bytes of the array from `a` on, mod 2^24 (R210). -/
def Memory.bytesFrom (m : Memory) (a n : Nat) : List Byte :=
  (List.range n).map fun k => m.read ((a + k) % Config.arraySize)

/-- A conforming chip that is not BUSY answers a read header with the array's bytes from its address on (R203, R210). -/
theorem clockBytes_readHeader {p : Config.Params} (ho : p.ops.Distinct) {a : Nat} (ha : a < Config.arraySize) {w : World}
    (hw : w.env.answers = .responder) (hb : chipBusy w.chip = false) (hf : w.chip.frame = header p.ops.read a) (n : Nat) :
    (clockBytes p (fillerBytes n) w).1 = w.chip.array.bytesFrom a n := by
  have h := readReturnsArrayInOrder p w _ _ _ n ho hw hb hf
  rwa [headerAddr_addrBytes ha] at h

/-- Bytes that the array holds in order below 2^24 are read back in order. -/
theorem Memory.bytesFrom_eq {m : Memory} {a : Nat} {d : List Byte} (hlt : a + d.length ≤ Config.arraySize)
    (h : ∀ (k : Nat) (v : Byte), d[k]? = some v → m.read (a + k) = v) : m.bytesFrom a d.length = d := by
  refine List.ext_getElem (by simp [Memory.bytesFrom]) fun k _ hk => ?_
  have hmod : (a + k) % Config.arraySize = a + k := Nat.mod_eq_of_lt (by omega)
  simp only [Memory.bytesFrom, List.getElem_map, List.getElem_range, hmod]
  exact h k d[k] (List.getElem?_eq_getElem hk)

/-- The header of a command at the linear address (R55, R86). -/
theorem header_linearAddr {sec pg : Byte} (hs : sec.toNat ≤ 15) (hp : pg.toNat ≤ 15) (op b off : Byte) :
    header op (linearAddr b sec pg off) = [op, b, addrByte1 (linearAddr b sec pg off), off] := by
  rw [header, addrByte2_linearAddr hs hp, addrByte0_linearAddr]

/-! ### Bytes programmed inside one page -/

section
variable {a : Nat} {d : List Byte} {m : Memory} (hpage : a % 256 + d.length ≤ 256)
include hpage

/-- Erased bytes read as programmed (R195, R209). -/
theorem read_programFrom_erased (hm : m.wf) (ha : a < Config.arraySize)
    (herased : ∀ k : Nat, k < d.length → m.read (a + k) = 0xFF) {k : Nat} {v : Byte} (hk : d[k]? = some v) :
    (programFrom a 0 d m).read (a + k) = v := by
  obtain ⟨hlt, -⟩ := List.getElem?_eq_some_iff.1 hk
  have h := read_programFrom_inside ha d 0 k m v hm (by omega) hk
  rw [Nat.zero_add, pageAddr_in_page (by omega), herased k hlt] at h
  exact h.trans (BitVec.allOnes_and (x := v))

/-- Every byte before the first one programmed or after the last is as before. -/
theorem read_programFrom_before_after (m : Memory) {x : Nat} (hx : x < a ∨ a + d.length ≤ x) :
    (programFrom a 0 d m).read x = m.read x := by
  refine read_programFrom_outside d 0 m fun k hk => ?_
  rw [Nat.zero_add, pageAddr_in_page (by omega)]
  omega

end

/-! ### The steps of file 43 in a run -/

section
variable {p : Config.Params} {r : Request} {c : Chip} {l : List Config.LinkOutcome} {k : List Bool}
  {fs : List (List Byte)} {s : State} {i : Instr} {pc a : Nat} {old : Byte}

/-- `read` (R161), the operation or the verify step of `page_program`: the query's bytes are the array's. -/
theorem Ctx.readQuery {n : Nat} {u : Use}
    (h : Ctx p r c (.delivered :: .delivered :: .delivered :: .delivered :: l) k fs (phaseAt pc old) true s)
    (hc : c.closed = none) (hb : chipBusy c = false) (ho : p.ops.Distinct) (hd : decode p (.request r) = .ok i)
    (hr : rejectCause i = none) (ha : a < Config.arraySize) (h0 : (hostSteps p old i)[pc]? = some (busyCheck p.ops))
    (h1 : (hostSteps p old i)[pc + 1]? = some (.query (header p.ops.read a) n u)) :
    ∃ t, Reaches s (useBytes (hostSteps p old i)
        { pc := pc + 1, stage := .judge, ok := true, rx := c.array.bytesFrom a n, old := old } u t) ∧
      Ctx p r (quiet c) l k (fillerBytes n :: header p.ops.read a :: [0x00] :: [p.ops.rdsr1] :: fs)
        { pc := pc + 1, stage := .judge, ok := true, rx := c.array.bytesFrom a n, old := old } true t := by
  obtain ⟨hl, -⟩ := List.getElem?_eq_some_iff.1 h1
  obtain ⟨t1, e1, h2⟩ := h.poll hc hb ho hd hr h0 hb hl
  obtain ⟨t2, e2, h3⟩ := h2.seqJudged rfl hb hd hr h1 rfl rfl (runs_read ho _ _ _ _)
    (rx := c.array.bytesFrom a n) fun e he => clockBytes_readHeader ho ha he hb rfl n
  exact ⟨t2, e1.trans e2, h3⟩

/-- The effect of a page-program on a chip that accepts it: without a data byte nothing starts (R209). -/
theorem pageProgram_accepted (hb : chipBusy c = false) (hw : chipWel c = true) (hp : protectedAt c a = false)
    (d : List Byte) : pageProgram a d c =
      if d = [] then c else setBusy true { c with array := programFrom a 0 d c.array } := by
  cases d <;> simp [pageProgram, hb, hw, hp]

/-- The page-program frame inside an operation that goes on after it, at a chip that accepts it and whose cycle ends: the
data bytes are in the array. A frame without a data byte starts no cycle, so a completion is used only by one with some. -/
theorem Ctx.program {d : List Byte} (h : Ctx p r c (.delivered :: l) (true :: k) fs (phaseAt pc old) true s)
    (hc : c.closed = none) (hb : chipBusy c = false) (hw : chipWel c = true) (hp : protectedAt c a = false)
    (ho : p.ops.Distinct) (hd : decode p (.request r) = .ok i) (hr : rejectCause i = none) (ha : a < Config.arraySize)
    (hlen : d.length ≤ 256) (hm : (hostSteps p old i)[pc]? = some (.send (header p.ops.pp a ++ d)))
    (hl : pc + 1 < (hostSteps p old i).length) :
    ∃ t c' k', Reaches s t ∧ c'.closed = none ∧ chipBusy c' = false ∧ c'.array = programFrom a 0 d c.array ∧
      Ctx p r c' l k' ((header p.ops.pp a ++ d) :: fs) (phaseAt (pc + 1) old) true t := by
  have hf := runs_pp (c := c) ho (addrByte2 a) (addrByte1 a) (addrByte0 a) d hlen
  rw [headerAddr_addrBytes ha, pageProgram_accepted hb hw hp] at hf
  by_cases hnil : d = []
  case pos =>
    rw [if_pos hnil] at hf
    obtain ⟨t, _, rfl, e, h'⟩ := h.write hc hb hd hr hm hf (by rintro _ rfl; exact ⟨rfl, hb⟩) hl
    exact ⟨t, quiet c, _, e, rfl, hb, by rw [hnil]; rfl, h'⟩
  case neg =>
    rw [if_neg hnil] at hf
    obtain ⟨t, e, h'⟩ := h.writeBusy hc hb hd hr hm hf ⟨rfl, chipBusy_setBusy _ true⟩ hl
    exact ⟨t, _, _, e, rfl, chipBusy_completeCycle _, rfl, h'⟩

end

/-! ### Whole runs -/

/-- Settles O56: the whole of `read` is its poll and its query, whose bytes are the array's. -/
theorem readRun : Obligations.ReadRun := by
  rintro s b sec pg off len hsec hpg hs ⟨rest, hlink⟩
  have hr := rejectCause_read hsec hpg b off len
  obtain ⟨r, t, hd, e, hin, h⟩ := hs.start hr
  rw [hlink] at h
  obtain ⟨u, e1, h1⟩ := h.readQuery hs.closed hs.idle hs.distinct hd hr (linearAddr_lt hsec hpg) rfl rfl
  rw [useBytes, advance_last rfl] at e1
  refine e.runsTo_answered hin e1 ⟨rfl, ?array, rfl, ?sent⟩
  case array => exact (congrArg Chip.array h1.chip).trans rfl
  case sent =>
    rw [← header_linearAddr hsec hpg]
    exact h1.sent

/-- Settles O57: a poll, `write_enable`, the page-program frame, which the chip accepts because WEL is now set, and the
whole of `read`, whose bytes are those just programmed. -/
theorem pageProgramRun : Obligations.PageProgramRun := by
  rintro s b sec pg off tx hsec hpg hlen a hwf hprot herased hs ⟨rest, hlink⟩ ⟨rest', hk⟩
  have ho := hs.distinct
  have hr := rejectCause_pageProgram hsec hpg hlen b
  have ha : a < Config.arraySize := linearAddr_lt hsec hpg
  have hpage : a % 256 + tx.length ≤ 256 := by rwa [linearAddr_offset]
  have hqb : chipBusy (quiet s.chip) = false := hs.idle
  obtain ⟨r, t, hd, e, hin, h⟩ := hs.start hr
  rw [hlink, hk] at h
  obtain ⟨t1, e1, h1⟩ := h.poll hs.closed hs.idle ho hd hr rfl hs.idle (by decide : 1 < 7)
  obtain ⟨t2, e2, h2⟩ := h1.writeEnable rfl hqb ho hd hr rfl rfl rfl (by decide : 4 < 7)
  obtain ⟨t3, c, k, e3, hcc, hcb, hca, h3⟩ := h2.program rfl (by simpa using hqb) (chipWel_setWel (quiet s.chip) true)
    hprot ho hd hr ha (by omega) rfl (by decide : 5 < 7)
  have hwritten : ∀ (j : Nat) (v : Byte), tx[j]? = some v → c.array.read (a + j) = v := fun j v hj => by
    rw [hca]
    exact read_programFrom_erased hpage hwf ha herased hj
  have hback : c.array.bytesFrom a tx.length = tx :=
    Memory.bytesFrom_eq (by simp only [Config.arraySize] at *; omega) hwritten
  obtain ⟨u, e4, h4⟩ := h3.readQuery hcc hcb ho hd hr ha rfl rfl
  rw [useBytes_verify, if_pos hback, advance_last rfl] at e4
  have harray : u.chip.array = c.array := by rw [h4.chip, quiet_array]
  refine e.runsTo_answered hin (e1.trans <| e2.trans <| e3.trans e4) ⟨rfl, hback, fun j v hj => ?written,
    fun x hx => ?others, ?sent⟩
  case written => exact (congrArg (Memory.read · (a + j)) harray).trans (hwritten j v hj)
  case others =>
    refine (congrArg (Memory.read · x) (harray.trans hca)).trans ?_
    exact read_programFrom_before_after hpage s.chip.array hx
  case sent =>
    rw [← header_linearAddr hsec hpg, ← header_linearAddr hsec hpg]
    exact h4.sent

end Sys2Proof.Machine
end

section
/-!
PROOF. The statements of 44_erase: how the erases end, the test an erase makes of its region, and whole runs of the
three erases against the conforming chip, of a region without a protected byte and of one with some.
-/

namespace Sys2Proof.Machine

/-! ### How the erases end -/

/-- An operation whose last step is `wel_wait` answers `OK = 1` when WEL reads clear, and polls again when it reads
set. -/
theorem welWaitLast_decides {i : Instr} {s : State} {pc : Nat} {v old : Byte} (hi : isHost i = true)
    (hr : rejectCause i = none) (hp : s.phase = some { pc := pc, stage := .judge, ok := true, rx := [v], old := old })
    (hm : (hostSteps s.cfg old i)[pc]? = some (welWait s.cfg.ops)) (hlen : (hostSteps s.cfg old i).length = pc + 1) :
    (v.getLsbD 1 = false → exec i s = .next (answered { s.resp with ok := true } none s)) ∧
      (v.getLsbD 1 = true → exec i s = .next (s.setPhase (some (phaseAt pc old)))) := by
  obtain ⟨hset, hclear, -⟩ := pollRepeatsUntilClear i s _ _ _ hi hr hp hm
  exact ⟨fun hv => (hclear rfl rfl hv).2 hlen.symm, hset rfl rfl⟩

/-- Settles O13: the last step of each is `wel_wait`. -/
theorem eraseAnswers : Obligations.EraseAnswers := by
  intro s v b sec hs
  have hblock := fun old hp => welWaitLast_decides (i := .blockErase b) (s := s) (pc := 6) (v := v) (old := old)
    rfl rfl hp rfl rfl
  have hsector := fun old hp => welWaitLast_decides (i := .sectorErase b sec) (s := s) (pc := 6) (v := v) (old := old)
    rfl (rejectCause_sectorErase hs b) hp rfl rfl
  have hchip := fun old hp => welWaitLast_decides (i := .chipErase) (s := s) (pc := 7) (v := v) (old := old)
    rfl rfl hp rfl rfl
  refine ⟨fun hclear => ⟨?block, ?chip⟩, fun hset => ⟨?blockAgain, ?chipAgain⟩⟩
  case block => exact fun ⟨old, hp⟩ => ⟨(hblock old hp).1 hclear, (hsector old hp).1 hclear⟩
  case chip => exact fun ⟨old, hp⟩ => (hchip old hp).1 hclear
  case blockAgain => exact fun ⟨old, hp⟩ => ⟨old, (hblock old hp).2 hset, (hsector old hp).2 hset⟩
  case chipAgain => exact fun ⟨old, hp⟩ => ⟨old, (hchip old hp).2 hset⟩

/-! ### The region of an erase and its protection -/

/-- The blocks the region `[base, base + size)` meets are those one of its bytes lies in. -/
theorem exists_block_iff {base size : Nat} (hsize : 0 < size) (P : Nat → Prop) :
    (∃ j < (base + size - 1) / Config.blockSize - base / Config.blockSize + 1, P (base / Config.blockSize + j)) ↔
      ∃ a, base ≤ a ∧ a < base + size ∧ P (a / Config.blockSize) := by
  simp only [Config.blockSize]
  constructor
  · rintro ⟨j, hj, hP⟩
    have hblock : max base ((base / 65536 + j) * 65536) / 65536 = base / 65536 + j := by omega
    exact ⟨max base ((base / 65536 + j) * 65536), by omega, by omega, hblock.symm ▸ hP⟩
  · rintro ⟨a, hlow, hhigh, hP⟩
    have hblock : base / 65536 + (a / 65536 - base / 65536) = a / 65536 := by omega
    exact ⟨a / 65536 - base / 65536, by omega, hblock.symm ▸ hP⟩

/-- The test an erase makes is that some byte of its region is protected (R211, R212): with WPS = 1 it looks at the lock
bits of the blocks the region meets, with WPS = 0 at every byte. -/
theorem regionProtected_iff (c : Chip) {base size : Nat} (hsize : 0 < size) :
    regionProtected c base size = true ↔ ∃ a, base ≤ a ∧ a < base + size ∧ protectedAt c a = true := by
  cases hwps : chipWps c
  case true =>
    simp only [regionProtected, protectedAt, hwps, if_true, List.any_eq_true, List.mem_range]
    exact exists_block_iff hsize fun n => lockBitOf c n = true
  case false =>
    simp only [regionProtected, protectedAt, hwps, Bool.false_eq_true, if_false, List.any_eq_true, List.mem_range]
    constructor
    · rintro ⟨j, hj, hprot⟩
      exact ⟨base + j, by omega, by omega, hprot⟩
    · rintro ⟨a, hlow, hhigh, hprot⟩
      exact ⟨a - base, by omega, by rwa [Nat.add_sub_cancel' hlow]⟩

section
variable {c : Chip} {base size : Nat} (hb : chipBusy c = false) (hw : chipWel c = true) (hsize : 0 < size)
include hb hw hsize

/-- An erase without a protected byte in its region starts a cycle (R211). -/
theorem eraseRegion_accepted (hprot : ∀ a, base ≤ a → a < base + size → protectedAt c a = false) :
    eraseRegion base size c = setBusy true { c with array := c.array.erase base size } := by
  have hregion : ¬regionProtected c base size = true := by
    rw [regionProtected_iff c hsize]
    rintro ⟨a, hlow, hhigh, ha⟩
    exact Bool.false_ne_true ((hprot a hlow hhigh).symm.trans ha)
  simp [eraseRegion, hb, hw, hregion]

/-- An erase with a protected byte in its region only clears WEL (R211). -/
theorem eraseRegion_refused {a : Nat} (hlow : base ≤ a) (hhigh : a < base + size) (hprot : protectedAt c a = true) :
    eraseRegion base size c = setWel false c := by
  have hregion : regionProtected c base size = true := (regionProtected_iff c hsize).2 ⟨a, hlow, hhigh, hprot⟩
  simp [eraseRegion, hb, hw, hregion]

end

/-! ### The three erases as one operation -/

/-- The operation `i` is an erase of `[base, base + size)`: its steps are those all erases share, around the command
`frame` and perhaps a delay, and the chip takes `frame` as the erase of that region (R171, R172, R173, R211). -/
structure Erases (p : Config.Params) (i : Instr) (base size : Nat) (frame : List Byte) : Prop where
  accepted : rejectCause i = none
  nonempty : 0 < size
  steps : ∃ wait, (wait = [] ∨ ∃ us, wait = [.delay us]) ∧
    ∀ old, hostSteps p old i = eraseLead p.ops frame ++ (wait ++ eraseConfirm p.ops)
  runs : ∀ c, Runs p frame c (· = quiet (eraseRegion base size c))

/-- The frame of `block_erase` (R171). -/
theorem header_blockAddr (op b : Byte) : header op (linearAddr b 0 0 0) = [op, b, 0x00, 0x00] := by
  have hmiddle : addrByte1 (linearAddr b 0 0 0) = 0x00 :=
    BitVec.eq_of_toNat_eq (addrByte1_linearAddr (by decide) (by decide))
  rw [header_linearAddr (by decide) (by decide), hmiddle]

/-- The region, and the frame as it is on the wire, of each of the three erases. -/
theorem erases_of_mem {p : Config.Params} (ho : p.ops.Distinct) {b sec : Byte} (hs : sec.toNat ≤ 15) {i : Instr}
    {base size : Nat} {frame : List Byte}
    (h : (i, base, size, frame) ∈ [(Instr.blockErase b, b.toNat * 65536, 65536, [p.ops.be, b, 0x00, 0x00]),
      (.sectorErase b sec, b.toNat * 65536 + sec.toNat * 4096, 4096,
        [p.ops.se, b, addrByte1 (linearAddr b sec 0 0), 0x00]),
      (.chipErase, 0, 16777216, [p.ops.ce])]) : Erases p i base size frame := by
  simp only [List.mem_cons, List.not_mem_nil, or_false, Prod.mk.injEq] at h
  obtain ⟨rfl, rfl, rfl, rfl⟩ | ⟨rfl, rfl, rfl, rfl⟩ | ⟨rfl, rfl, rfl, rfl⟩ := h
  · exact ⟨rfl, by decide, ⟨[], .inl rfl, fun _ => by rw [← header_blockAddr]; rfl⟩, fun _ => runs_be ho b 0 0⟩
  · have hsector : (addrByte1 (linearAddr b sec 0 0)).toNat / 16 = sec.toNat := by
      rw [addrByte1_linearAddr hs (by decide)]
      exact Nat.mul_div_cancel sec.toNat (by decide)
    refine ⟨rejectCause_sectorErase hs b, by decide, ⟨[], .inl rfl, fun _ => ?steps⟩, fun c => ?runs⟩
    case steps => rw [← header_linearAddr hs (by decide)]; rfl
    case runs => rw [← hsector]; exact runs_se ho b _ 0
  · exact ⟨rfl, by decide, ⟨[.delay Config.tCeUs], .inr ⟨_, rfl⟩, fun _ => rfl⟩, fun _ => runs_ce ho⟩

/-- The erase frame is step 4, after a poll and `write_enable`, and not the last step. -/
theorem Erases.lead {p : Config.Params} {i : Instr} {base size : Nat} {frame : List Byte}
    (hE : Erases p i base size frame) (old : Byte) :
    5 < (hostSteps p old i).length ∧ ∀ j < 5, (hostSteps p old i)[j]? = (eraseLead p.ops frame)[j]? := by
  obtain ⟨wait, -, hsteps⟩ := hE.steps
  have hlead : (eraseLead p.ops frame).length = 5 := rfl
  have hconfirm : (eraseConfirm p.ops).length = 2 := rfl
  rw [hsteps]
  refine ⟨?length, fun j hj => List.getElem?_append_left (hlead ▸ hj)⟩
  rw [List.length_append, List.length_append, hlead, hconfirm]
  omega

section
variable {p : Config.Params} {r : Request} {c : Chip} {l : List Config.LinkOutcome} {k : List Bool}
  {fs : List (List Byte)} {s : State} {i : Instr} {pc : Nat} {old : Byte} (hc : c.closed = none)
  (hb : chipBusy c = false) (hw : chipWel c = false) (ho : p.ops.Distinct) (hd : decode p (.request r) = .ok i)
include hc hb hw ho hd

/-- The confirmation as the end of an operation, at a chip that is not BUSY and has WEL clear. -/
theorem Ctx.eraseConfirm
    (h : Ctx p r c (.delivered :: .delivered :: .delivered :: .delivered :: l) k fs (phaseAt pc old) true s)
    (hr : rejectCause i = none) (h0 : (hostSteps p old i)[pc]? = some (busyCheck p.ops))
    (h1 : (hostSteps p old i)[pc + 1]? = some (welWait p.ops)) (hl : (hostSteps p old i).length = pc + 2) :
    ∃ u ph, Reaches s (answered { u.resp with ok := true } none u) ∧
      Ctx p r (quiet c) l k ([0x00] :: [p.ops.rdsr1] :: [0x00] :: [p.ops.rdsr1] :: fs) ph true u := by
  obtain ⟨t, e1, ht⟩ := h.poll hc hb ho hd hr h0 hb (by omega)
  obtain ⟨u, e2, hu⟩ := ht.pollLast rfl hb ho hd hr h1 hw hl
  exact ⟨u, _, e1.trans e2, hu⟩

/-- What follows the erase frame: the delay, where there is one, and the confirmation. -/
theorem Erases.confirm {base size : Nat} {frame : List Byte} (hE : Erases p i base size frame)
    (h : Ctx p r c (.delivered :: .delivered :: .delivered :: .delivered :: l) k fs (phaseAt 5 old) true s) :
    ∃ u ph, Reaches s (answered { u.resp with ok := true } none u) ∧
      Ctx p r (quiet c) l k ([0x00] :: [p.ops.rdsr1] :: [0x00] :: [p.ops.rdsr1] :: fs) ph true u := by
  obtain ⟨wait, rfl | ⟨us, rfl⟩, hsteps⟩ := hE.steps
  · exact h.eraseConfirm hc hb hw ho hd hE.accepted (by rw [hsteps]; rfl) (by rw [hsteps]; rfl) (by rw [hsteps]; rfl)
  · obtain ⟨t, e, ht⟩ := h.delay hc hb hd hE.accepted (us := us) (by rw [hsteps]; rfl)
      (by rw [hsteps]; exact (by decide : 6 < 8))
    obtain ⟨u, ph, e', hu⟩ := ht.eraseConfirm hc hb hw ho hd hE.accepted (by rw [hsteps]; rfl) (by rw [hsteps]; rfl)
      (by rw [hsteps]; rfl)
    exact ⟨u, ph, e.trans e', hu⟩

end

/-! ### Whole runs -/

/-- An erase on a READY chip comes to its erase frame with WEL set. -/
theorem Erases.start {s : State} {i : Instr} {base size : Nat} {frame : List Byte}
    (hE : Erases s.cfg i base size frame) (hs : ReadyFor i s) (hlink : LinkDelivers 12 s) :
    ∃ r t l, decode s.cfg (.request r) = .ok i ∧ Reaches s t ∧ t.inbox = [] ∧
      Ctx s.cfg r (quiet (setWel true (quiet s.chip)))
        (.delivered :: .delivered :: .delivered :: .delivered :: .delivered :: l) s.env.complete
        ([0x00] :: [s.cfg.ops.rdsr1] :: [s.cfg.ops.wren] :: [0x00] :: [s.cfg.ops.rdsr1] :: [0x00] ::
          [s.cfg.ops.rdsr1] :: s.trace.filterMap sentOf) (phaseAt 4 0) true t := by
  obtain ⟨l, hlink⟩ := hlink
  obtain ⟨hlen, hlead⟩ := hE.lead 0
  have hr := hE.accepted
  obtain ⟨r, t, hd, e, hin, h⟩ := hs.start hr
  rw [hlink] at h
  obtain ⟨t1, e1, h1⟩ := h.poll hs.closed hs.idle hs.distinct hd hr (hlead 0 (by decide)) hs.idle (by omega)
  obtain ⟨t2, e2, h2⟩ := h1.writeEnable rfl hs.idle hs.distinct hd hr (hlead 1 (by decide)) (hlead 2 (by decide))
    (hlead 3 (by decide)) (by omega)
  have e3 := e1.trans e2
  exact ⟨r, t2, l, hd, e.trans e3, e3.inbox hin, h2⟩

/-- A cycle that starts and completes leaves bits 7:2 of register 1 (R208). -/
theorem cycle_sr1_high (c : Chip) {k : Nat} (hk : 2 ≤ k) :
    (completeCycle (setBusy true c)).sr1.getLsbD k = c.sr1.getLsbD k :=
  (Settled.sr1_high (.inr ⟨chipBusy_setBusy c true, rfl⟩) hk).trans (setBusy_sr1_high true c hk)

/-- Settles O58: the chip accepts the erase frame because WEL is set and no byte of the region is protected; its cycle
has ended when the two polls of the confirmation read BUSY and WEL. -/
theorem eraseRun : Obligations.EraseRun := by
  rintro s b sec i base size frame hsec hmem hprot hs hlink ⟨rest, hk⟩
  have ho := hs.distinct
  have hE := erases_of_mem ho hsec hmem
  obtain ⟨hlen, hlead⟩ := hE.lead 0
  have hb : chipBusy (quiet (setWel true (quiet s.chip))) = false := by simpa using hs.idle
  have hframe := hE.runs (quiet (setWel true (quiet s.chip)))
  rw [eraseRegion_accepted hb (chipWel_setWel (quiet s.chip) true) hE.nonempty hprot] at hframe
  obtain ⟨r, t, l, hd, e, hin, h⟩ := hE.start hs hlink
  rw [hk] at h
  obtain ⟨t1, e1, h1⟩ := h.writeBusy rfl hb hd hE.accepted (hlead 4 (by decide)) hframe
    ⟨rfl, chipBusy_setBusy _ true⟩ hlen
  obtain ⟨u, ph, e2, h2⟩ := hE.confirm rfl (chipBusy_completeCycle _) (chipWel_completeCycle _) ho hd h1
  have harray : u.chip.array = s.chip.array.erase base size := congrArg Chip.array h2.chip
  refine e.runsTo_answered hin (e1.trans e2) ⟨rfl, ?busy, ?wel, fun x hlow hhigh => ?inside, fun x hx => ?outside,
    ?lock, ?sr2, ?sr3, fun n hn => ?sr1, congrArg Chip.vsrEn h2.chip, congrArg Chip.rstEn h2.chip, h2.sent⟩
  case busy => exact (congrArg chipBusy h2.chip).trans (chipBusy_completeCycle _)
  case wel => exact (congrArg chipWel h2.chip).trans (chipWel_completeCycle _)
  case inside => exact (congrArg (Memory.read · x) harray).trans (Memory.read_erase_inside _ hlow hhigh)
  case outside => exact (congrArg (Memory.read · x) harray).trans (Memory.read_erase_outside _ hx)
  case lock => exact (congrArg Chip.lock h2.chip).trans rfl
  case sr2 => exact (congrArg Chip.sr2 h2.chip).trans rfl
  case sr3 => exact (congrArg Chip.sr3 h2.chip).trans rfl
  case sr1 =>
    refine (congrArg (fun c => c.sr1.getLsbD n) h2.chip).trans ?_
    exact (cycle_sr1_high _ hn).trans (setWel_sr1_high true s.chip hn)

/-- Settles O59: the chip refuses the erase frame, which clears WEL, so that the confirmation reads BUSY and WEL clear
at once. -/
theorem protectedEraseConfirmedNotVerified : Obligations.ProtectedEraseConfirmedNotVerified := by
  rintro s b sec i base size frame x hsec hmem hlow hhigh hprot hs hlink
  have ho := hs.distinct
  have hE := erases_of_mem ho hsec hmem
  obtain ⟨hlen, hlead⟩ := hE.lead 0
  have hb : chipBusy (quiet (setWel true (quiet s.chip))) = false := by simpa using hs.idle
  have hframe := hE.runs (quiet (setWel true (quiet s.chip)))
  rw [eraseRegion_refused hb (chipWel_setWel (quiet s.chip) true) hE.nonempty hlow hhigh hprot] at hframe
  obtain ⟨r, t, l, hd, e, hin, h⟩ := hE.start hs hlink
  obtain ⟨t1, _, rfl, e1, h1⟩ := h.write rfl hb hd hE.accepted (hlead 4 (by decide)) hframe
    (by rintro _ rfl; exact ⟨rfl, by simpa using hb⟩) hlen
  obtain ⟨u, ph, e2, h2⟩ := hE.confirm rfl (by simpa using hb) (chipWel_setWel _ false) ho hd h1
  refine e.runsTo_answered hin (e1.trans e2) ⟨rfl, ?array, ?wel, h2.sent⟩
  case array => exact (congrArg Chip.array h2.chip).trans rfl
  case wel => exact (congrArg chipWel h2.chip).trans (chipWel_setWel _ false)

end Sys2Proof.Machine
end

section
/-!
PROOF. The statement of 45_block_lock: whole runs of `block_lock` and `block_unlock` against the conforming chip, of a
block that is not in the target state and of one that already is.
-/

namespace Sys2Proof.Machine

/-! ### The two lock operations as one -/

/-- The steps of `block_lock` and of `block_unlock`, with the bytes of the command written out (R182, R183). -/
theorem hostSteps_lockOperation (p : Config.Params) (old b : Byte) (target : Bool) :
    hostSteps p old (if target then .blockLock b else .blockUnlock b) =
      lockQuery p b target :: (writeEnableSteps p.ops ++
        [.send [if target then p.ops.blockLock else p.ops.blockUnlock, b, 0x00, 0x00]]) := by
  rw [← header_blockAddr]
  cases target <;> rfl

theorem rejectCause_lockOperation (b : Byte) (target : Bool) :
    rejectCause (if target then .blockLock b else .blockUnlock b) = none := by
  cases target <;> rfl

/-- Bit `LOCK_BIT` of the byte a lock query returns is the block's lock bit (R92, R203). -/
theorem getLsbD_lockStatusByte (p : Config.Params) (c : Chip) (b : Nat) :
    (lockStatusByte p c b).getLsbD p.lockBit = lockBitOf c b :=
  (getLsbD_putBit 0 p.lockBit p.lockBit (lockBitOf c b)).trans (if_pos ⟨rfl, p.lockBit.isLt⟩)

/-! ### The effect of a lock command -/

/-- At a chip with WEL set a lock command on one block changes its bit where WPS is set, and no other bit (R213). -/
theorem getLsbD_lockCommand {c : Chip} (hb : chipBusy c = false) (hw : chipWel c = true) (p : Config.Params) (b : Nat)
    (v : Bool) {k : Nat} (hk : k < 256) : (lockCommand p (setLockBit b v) c).lock.getLsbD k =
      if chipWps c = true ∧ k = b then v else c.lock.getLsbD k := by
  rw [lockCommand, hb, hw]
  cases hps : chipWps c with
  | false => simp
  | true =>
    have hlock : ∀ d : Chip, (setWel false d).lock = d.lock := fun _ => rfl
    cases p.lockClearsWel <;> simp [hlock, getLsbD_setLockBit c b k v hk]

/-- A lock command starts no cycle (R213). -/
theorem chipBusy_lockCommand (p : Config.Params) (b : Nat) (v : Bool) (c : Chip) :
    chipBusy (lockCommand p (setLockBit b v) c) = chipBusy c := by
  obtain h | ⟨-, h | h⟩ := lockCommand_cases p (setLockBit b v) c <;> rw [h]
  · rw [chipBusy_setWel, chipBusy_setLockBit]
  · rw [chipBusy_setLockBit]

/-! ### Whole runs -/

/-- A lock query is judged by the lock bit of its block (R181 to R183). -/
theorem Ctx.lockQueryJudged {p : Config.Params} {r : Request} {c : Chip} {l : List Config.LinkOutcome} {k : List Bool}
    {fs : List (List Byte)} {s : State} {i : Instr} {pc : Nat} {old b : Byte} {target : Bool}
    (h : Ctx p r c (.delivered :: .delivered :: l) k fs (phaseAt pc old) true s) (hc : c.closed = none)
    (hb : chipBusy c = false) (ho : p.ops.Distinct) (hd : decode p (.request r) = .ok i) (hr : rejectCause i = none)
    (hm : (hostSteps p old i)[pc]? = some (lockQuery p b target)) :
    ∃ u ph, ph.pc = pc ∧ ph.old = old ∧
      Reaches s (if c.lock.getLsbD b.toNat = target then raiseCause .lockStateConflict none u
        else advance (hostSteps p old i) ph u) ∧
      Ctx p r (quiet c) l k ([0x00] :: [p.ops.rdlock, b, 0x00, 0x00] :: fs) ph true u := by
  rw [lockQuery, header_blockAddr] at hm
  obtain ⟨u, e, h'⟩ := h.seqJudged hc hb hd hr hm rfl rfl (runs_rdlock ho b 0 0 _)
    (rx := [lockStatusByte p c b.toNat]) fun e he => clockBytes_rdlock ho he hb rfl
  rw [judge, if_pos rfl, useBytes_refuseLocked, getLsbD_lockStatusByte] at e
  exact ⟨u, _, rfl, rfl, e, h'⟩

/-- Settles O60: the lock query finds the block in the target state and the operation is refused, or `write_enable`
follows and the lock command, which the chip accepts exactly when WPS is set. -/
theorem lockRun : Obligations.LockRun := by
  rintro s b target _ rfl hs ⟨rest, hlink⟩
  have ho := hs.distinct
  have hr := rejectCause_lockOperation b target
  have hsteps := fun old => hostSteps_lockOperation s.cfg old b target
  obtain ⟨r, t, hd, e, hin, h⟩ := hs.start hr
  rw [hlink] at h
  obtain ⟨t1, ph, hpc, hold, e1, h1⟩ := h.lockQueryJudged hs.closed hs.idle ho hd hr (by rw [hsteps]; rfl)
  refine ⟨fun hother => ?flips, fun hfound => ?refused⟩
  case refused =>
    rw [if_pos hfound] at e1
    refine e.runsTo hin e1 rfl rfl ⟨rfl, rfl, ?locks, ?wel, h1.sent⟩
    case locks => exact (congrArg Chip.lock h1.chip).trans rfl
    case wel => exact (congrArg chipWel h1.chip).trans rfl
  case flips =>
    have hlen : (hostSteps s.cfg 0 (if target then .blockLock b else .blockUnlock b)).length = 5 := by rw [hsteps]; rfl
    have hqb : chipBusy (quiet s.chip) = false := hs.idle
    have hwb : chipBusy (quiet (setWel true (quiet s.chip))) = false := by simpa using hqb
    have hww : chipWel (quiet (setWel true (quiet s.chip))) = true := chipWel_setWel _ true
    rw [if_neg (hother.trans_ne (Bool.not_ne_self target)), advance_next (by omega), hpc, hold] at e1
    obtain ⟨t2, e2, h2⟩ := (h1.at (phaseAt 1 0)).writeEnable rfl hqb ho hd hr (by rw [hsteps]; rfl)
      (by rw [hsteps]; rfl) (by rw [hsteps]; rfl) (by omega)
    obtain ⟨u, rx, e3, h3⟩ := h2.writeLast rfl hwb hd hr (by rw [hsteps]; rfl) (runs_blockLock ho b 0 0 target) rfl
      ((chipBusy_lockCommand s.cfg b.toNat target _).trans hwb) hlen
    refine e.runsTo_answered hin (e1.trans <| e2.trans e3) ⟨rfl, fun k hk => ?lock, h3.sent⟩
    case lock =>
      refine (congrArg (fun c => c.lock.getLsbD k) h3.chip).trans ?_
      exact getLsbD_lockCommand hwb hww s.cfg b.toNat target hk

end Sys2Proof.Machine
end

section
/-!
PROOF. The statements of 46_flash_chip_responder: which frames the chip takes as commands, the bytes it answers, the end of
its cycle, and what each wire command does to it.
-/

namespace Sys2Proof.Machine

/-! ### Short and odd frames -/

/-- A closed frame that is no command is dropped (R202, R216). -/
theorem step_undecodable {s : State} {f : List Byte} {e : DecodeError} (h : s.chip.closed = some f)
    (hd : decode s.cfg (.frame f) = .error e) : step s = .next (dropFrame s) := by
  simp [step, h, runFrame, hd]

/-- A frame that needs an address and has fewer than three bytes after its opcode is no command (R216). -/
theorem withAddress_short {rest : List Byte} (h : rest.length < 3) (k : Byte → Byte → Byte → List Byte → Instr) :
    withAddress rest k = .error .shortFrame := by
  match rest, h with
  | [], _ => rfl
  | [_], _ => rfl
  | [_, _], _ => rfl

/-- Settles O3: a frame is executed or dropped as it decodes, and it decodes by its opcode and, where its format needs an
address or a data byte, by whether these came. -/
theorem shortAndOddFrames : Obligations.ShortAndOddFrames := by
  intro s
  refine ⟨fun h => step_undecodable h rfl, fun op rest h => ?_⟩
  have runs {i : Instr} (hd : decodeFrame s.cfg (op :: rest) = .ok i) : step s = exec i s := step_frame h hd
  have drops {e : DecodeError} (hd : decodeFrame s.cfg (op :: rest) = .error e) : step s = .next (dropFrame s) :=
    step_undecodable h hd
  refine ⟨fun hl => ?unknown, fun w hw hl hlen => ?noAddress, fun w hw hl hnil => ?noData, fun a2 a1 a0 d hl hrest => ?program,
    fun w i hi hl => ?opcodeOnly, fun a2 a1 a0 extra w i hrest hi hl => ?address, fun d extra w i hrest hi hl => ?data⟩
  case unknown => exact drops (e := .unknownOpcode) (by simp only [decodeFrame, hl])
  case noAddress =>
    refine drops (e := .shortFrame) ?_
    simp only [List.mem_cons, List.not_mem_nil, or_false] at hw
    rcases hw with rfl | rfl | rfl | rfl | rfl | rfl | rfl <;> simp only [decodeFrame, hl, withAddress_short hlen]
  case noData =>
    refine drops (e := .shortFrame) ?_
    simp only [List.mem_cons, List.not_mem_nil, or_false] at hw
    rcases hw with rfl | rfl | rfl <;> simp only [decodeFrame, hl, hnil, withData]
  case program => exact runs (by simp only [decodeFrame, hl, hrest, withAddress])
  case opcodeOnly =>
    refine runs ?_
    simp only [List.mem_cons, Prod.mk.injEq, List.not_mem_nil, or_false] at hi
    rcases hi with ⟨rfl, rfl⟩ | ⟨rfl, rfl⟩ | ⟨rfl, rfl⟩ | ⟨rfl, rfl⟩ | ⟨rfl, rfl⟩ | ⟨rfl, rfl⟩ <;>
      simp only [decodeFrame, hl]
  case address =>
    refine runs ?_
    simp only [List.mem_cons, Prod.mk.injEq, List.not_mem_nil, or_false] at hi
    rcases hi with ⟨rfl, rfl⟩ | ⟨rfl, rfl⟩ | ⟨rfl, rfl⟩ | ⟨rfl, rfl⟩ <;>
      simp only [decodeFrame, hl, hrest, withAddress]
  case data =>
    refine runs ?_
    simp only [List.mem_cons, Prod.mk.injEq, List.not_mem_nil, or_false] at hi
    rcases hi with ⟨rfl, rfl⟩ | ⟨rfl, rfl⟩ | ⟨rfl, rfl⟩ <;> simp only [decodeFrame, hl, hrest, withData]

/-! ### The protection test of an erase -/

/-- Settles O36. -/
theorem regionProtectedIffSomeByteIs : Obligations.RegionProtectedIffSomeByteIs :=
  fun c _ _ hsize => regionProtected_iff c hsize

/-! ### The bytes a conforming chip answers -/

/-- The command an opcode selects has that opcode (R88). -/
theorem code_of_lookup {t : Config.OpcodeTable} {b : Byte} {w : WireOp} (h : t.lookup b = some w) : t.code w = b :=
  beq_iff_eq.1 (List.find?_some (p := fun v => t.code v == b) h)

section
variable {p : Config.Params} {w : World} {op : Byte} {rest : List Byte}

/-- Where a rule fixes the next byte a conforming chip drives that byte and draws nothing (R203). -/
theorem answerByte_driven {v : Byte} (ha : w.env.answers = .responder) (hv : drivenByte p w.chip = some v) :
    answerByte p w = (v, w.env) := by
  simp only [answerByte, ha, hv]

/-- Where no rule fixes the next byte a conforming chip's byte is drawn (R203). -/
theorem answerByte_drawn (ha : w.env.answers = .responder) (hv : drivenByte p w.chip = none) :
    answerByte p w = (nextByte w.env, afterByte w.env) := by
  simp only [answerByte, ha, hv]

variable {c : Chip}

/-- After the opcode of a status read the register is driven, BUSY or not (R206, R214). -/
theorem drivenByte_status (hd : p.ops.Distinct) (r : SrNum) (hf : c.frame = rdsrOp p.ops r :: rest) :
    drivenByte p c = some (srValue c r) := by
  have hl := p.ops.lookup_code
  cases r with
  | one => simp only [drivenByte, hf, rdsrOp, show p.ops.lookup p.ops.rdsr1 = _ from hl .rdsr1 hd, srValue]
  | two => simp only [drivenByte, hf, rdsrOp, show p.ops.lookup p.ops.rdsr2 = _ from hl .rdsr2 hd, srValue]
  | three => simp only [drivenByte, hf, rdsrOp, show p.ops.lookup p.ops.rdsr3 = _ from hl .rdsr3 hd, srValue]

/-- After the header of a read the array's byte is driven, with BUSY = 1 none (R210, R214). -/
theorem drivenByte_read (hd : p.ops.Distinct) {a2 a1 a0 : Byte} {d : List Byte}
    (hf : c.frame = p.ops.read :: a2 :: a1 :: a0 :: d) : drivenByte p c =
      if chipBusy c then none else some (c.array.read ((headerAddr a2 a1 a0 + d.length) % Config.arraySize)) := by
  have hl : p.ops.lookup p.ops.read = some .read := p.ops.lookup_code .read hd
  simp only [drivenByte, hf, hl]

/-- After the header of a lock query the lock bit is driven, with BUSY = 1 none (R213, R214). -/
theorem drivenByte_rdlock (hd : p.ops.Distinct) {a2 a1 a0 : Byte} {d : List Byte}
    (hf : c.frame = p.ops.rdlock :: a2 :: a1 :: a0 :: d) :
    drivenByte p c = if chipBusy c then none else some (lockStatusByte p c a2.toNat) := by
  have hl : p.ops.lookup p.ops.rdlock = some .rdlock := p.ops.lookup_code .rdlock hd
  simp only [drivenByte, hf, hl]

/-- Nothing is driven in a frame that is no status read and is no read or lock query with a complete header (R203). -/
theorem drivenByte_other (hf : c.frame = op :: rest) (hstatus : ∀ r, op ≠ rdsrOp p.ops r)
    (hheader : op = p.ops.read ∨ op = p.ops.rdlock → rest.length < 3) : drivenByte p c = none := by
  have hcode {v : WireOp} (h : p.ops.lookup op = some v) : op = p.ops.code v := (code_of_lookup h).symm
  simp only [drivenByte, hf]
  split
  · rename_i hl
    exact absurd (hcode hl) (hstatus .one)
  · rename_i hl
    exact absurd (hcode hl) (hstatus .two)
  · rename_i hl
    exact absurd (hcode hl) (hstatus .three)
  · rename_i hl
    have hshort := hheader (.inr (hcode hl))
    simp only [List.length_cons] at hshort
    omega
  · rename_i hl
    have hshort := hheader (.inl (hcode hl))
    simp only [List.length_cons] at hshort
    omega
  · rfl

end

/-- The bits of a lock query's byte beside `LOCK_BIT` are 0 (R203). -/
theorem getLsbD_lockStatusByte_other (p : Config.Params) (c : Chip) (b : Nat) {k : Nat} (hk : k ≠ p.lockBit.val) :
    (lockStatusByte p c b).getLsbD k = false := by
  rw [lockStatusByte, getLsbD_putBit, if_neg fun h => hk h.1]
  exact BitVec.getLsbD_zero

/-- Settles O38: at each wire position either one rule fixes the byte, or none does and it is drawn. -/
theorem responderAnswers : Obligations.ResponderAnswers := by
  intro p w rest hd ha
  refine ⟨fun r hf => ?status, fun a2 a1 a0 d hf hb => ?read, fun a2 a1 a0 d hf hb => ?query, fun hf => ?opcode,
    fun a2 a1 a0 d hf hb => ?busy, fun op hf hstatus hheader => ?other⟩
  case status => exact answerByte_driven ha (drivenByte_status hd r hf)
  case read => exact answerByte_driven ha ((drivenByte_read hd hf).trans (by rw [hb]; rfl))
  case query =>
    refine ⟨_, answerByte_driven ha ((drivenByte_rdlock hd hf).trans (by rw [hb]; rfl)), ?_, fun k _ hk => ?_⟩
    · exact getLsbD_lockStatusByte p w.chip a2.toNat
    · exact getLsbD_lockStatusByte_other p w.chip a2.toNat hk
  case opcode => exact answerByte_drawn ha (by simp only [drivenByte, hf])
  case busy =>
    refine answerByte_drawn ha ?_
    obtain hf | hf := hf
    · rw [drivenByte_read hd hf, if_pos hb]
    · rw [drivenByte_rdlock hd hf, if_pos hb]
  case other => exact answerByte_drawn ha (drivenByte_other hf hstatus hheader)

/-! ### The end of the chip's cycle -/

/-- While BUSY a point of completion completes the cycle or leaves the chip, as drawn (R208). -/
theorem tick_chip_busy {w : World} (h : chipBusy w.chip = true) :
    (tick w).chip = if nextComplete w.env then completeCycle w.chip else w.chip := by
  rw [tick, if_pos h]

/-- Settles O40: BUSY and WEL are bits 0 and 1 of register 1, and a completed cycle leaves its other bits. -/
theorem completionClearsLatches : Obligations.CompletionClearsLatches := by
  refine fun w => ⟨tick_idle, fun hb hn => ?goesOn, fun hb hn => ?completes⟩
  case goesOn =>
    rw [tick_chip_busy hb, hn]
    rfl
  case completes =>
    rw [tick_chip_busy hb, hn]
    exact ⟨_, rfl, chipBusy_completeCycle w.chip, chipWel_completeCycle w.chip,
      fun k hk => Settled.sr1_high (.inr ⟨hb, rfl⟩) hk⟩

/-! ### A command and the end of its frame -/

/-- The state after a command: its effect, with the frame done and `rst_en` clear (R202). -/
theorem chipCommand_effect {f : Chip → Chip} {s : State} {c : Chip} (h : f s.chip = c) :
    chipCommand f s = .next (s.setChip (finishCommand c)) := by
  rw [chipCommand, h]

/-! ### The write-enable commands and the reads -/

/-- The bits of register 1 beside WEL are not changed with it (R28). -/
theorem setWel_sr1_other (v : Bool) (c : Chip) {k : Nat} (hk : k ≠ 1) : (setWel v c).sr1.getLsbD k = c.sr1.getLsbD k := by
  rw [setWel, getLsbD_putBit, if_neg fun h => hk h.1]

theorem exec_wireWren (s : State) : exec .wireWren s =
    .next (s.setChip (finishCommand (if chipBusy s.chip then s.chip else setWel true s.chip))) := rfl

theorem exec_wireVwren (s : State) : exec .wireVwren s =
    .next (s.setChip (finishCommand (if chipBusy s.chip then s.chip else setVsrEn true s.chip))) := rfl

/-- BUSY is bit 0 of register 1 (R28). -/
theorem chipBusy_eq (c : Chip) : chipBusy c = c.sr1.getLsbD 0 := rfl

/-- A latch that is set unless the chip is BUSY. -/
theorem or_not_eq_ite (x b : Bool) : (x || !b) = if b then x else true := by
  cases b
  · exact Bool.or_true x
  · exact Bool.or_false x

/-- Settles O41: BUSY decides whether WEL, bit 1 of register 1, is set. -/
theorem wireWriteEnable : Obligations.WireWriteEnable := by
  intro s
  rw [exec_wireWren]
  cases chipBusy s.chip with
  | true => exact ⟨s.chip.sr1, rfl, fun _ => rfl, nofun⟩
  | false =>
    exact ⟨(setWel true s.chip).sr1, rfl, nofun,
      fun _ => ⟨chipWel_setWel s.chip true, fun k hk => setWel_sr1_other true s.chip hk⟩⟩

/-- Settles O42: BUSY decides whether `vsr_en` is set. -/
theorem wireVolatileWriteEnable : Obligations.WireVolatileWriteEnable := by
  intro s
  rw [exec_wireVwren, or_not_eq_ite, ← chipBusy_eq]
  cases chipBusy s.chip <;> rfl

/-- Settles O43: each of the five commands has no effect but its end. -/
theorem wireReadsChangeNothing : Obligations.WireReadsChangeNothing := by
  intro s a2 a1 a0 n i hi
  simp only [List.mem_cons, List.not_mem_nil, or_false] at hi
  rcases hi with rfl | rfl | rfl | rfl | rfl <;> rfl

/-! ### Status writes -/

/-- A status write bit by bit: the read-only bits stay, the others are the data's (R207). -/
theorem getLsbD_statusWriteValue (old ro d : Byte) {k : Nat} (hk : k < 8) :
    (statusWriteValue old ro d).getLsbD k = if ro.getLsbD k then old.getLsbD k else d.getLsbD k := by
  simp only [statusWriteValue, BitVec.getLsbD_or, BitVec.getLsbD_and, BitVec.getLsbD_not]
  cases ro.getLsbD k <;> simp [hk]

section
variable {p : Config.Params} {r : SrNum} {d : Byte} {c : Chip}

theorem statusWrite_ignored (h : chipBusy c = true ∨ (chipWel c = false ∧ c.vsrEn = false)) :
    statusWrite p r d c = c := by
  obtain hb | ⟨hw, hv⟩ := h
  · simp [statusWrite, hb]
  · simp [statusWrite, hw, hv]

theorem statusWrite_accepted (hb : chipBusy c = false) (h : chipWel c = true ∨ c.vsrEn = true) :
    statusWrite p r d c = setBusy true (setSr c r (statusWriteValue (srValue c r) (roMask p r) d)) := by
  simp [statusWrite, hb, h]

end

theorem exec_statusWriteInstr (r : SrNum) (d : Byte) (s : State) :
    exec (statusWriteInstr r d) s = chipCommand (statusWrite s.cfg r d) s := by
  cases r <;> rfl

/-- The end of a status write does not touch the registers (R202). -/
theorem finishCommand_setSr (c : Chip) (r : SrNum) (v : Byte) :
    finishCommand (setBusy true (setSr c r v)) = setBusy true (setSr (finishCommand c) r v) := by
  cases r <;> rfl

/-- Settles O44. -/
theorem wireStatusWrite : Obligations.WireStatusWrite := by
  intro s r d i
  have hexec : exec i s = chipCommand (statusWrite s.cfg r d) s := exec_statusWriteInstr r d s
  rw [hexec]
  refine ⟨fun h => chipCommand_effect (statusWrite_ignored h), fun hb h =>
    ⟨statusWriteValue (srValue s.chip r) (roMask s.cfg r) d, ?accepted, fun k hk => getLsbD_statusWriteValue _ _ _ hk⟩⟩
  case accepted =>
    rw [chipCommand_effect (statusWrite_accepted hb h), finishCommand_setSr]
    rfl

/-! ### Page-program -/

section
variable {a : Nat} {d : List Byte} {c : Chip}

theorem pageProgram_ignored (h : chipBusy c = true ∨ chipWel c = false ∨ d = []) : pageProgram a d c = c := by
  rcases h with h | h | h <;> simp [pageProgram, h]

theorem pageProgram_refused (hb : chipBusy c = false) (hw : chipWel c = true) (hd : d ≠ []) (hp : protectedAt c a = true) :
    pageProgram a d c = setWel false c := by
  simp [pageProgram, hb, hw, hd, hp]

end

/-- Settles O45: ignored, refused, or accepted (`programFrom` gives the array). -/
theorem wirePageProgram : Obligations.WirePageProgram := by
  intro s a2 a1 a0 d hwf hlen a
  refine ⟨fun h => chipCommand_effect (pageProgram_ignored h),
    fun hb hw hd hp => chipCommand_effect (pageProgram_refused hb hw hd hp), fun hb hw hd hp => ?accepted⟩
  case accepted =>
    refine ⟨programFrom a 0 d s.chip.array,
      chipCommand_effect ((pageProgram_accepted hb hw hp d).trans (if_neg hd)), fun k b hk => ?inside, fun x hx => ?outside⟩
    case inside =>
      have h := read_programFrom_inside (headerAddr_lt a2 a1 a0) d 0 k s.chip.array b hwf (by omega) hk
      rwa [Nat.zero_add] at h
    case outside => exact read_programFrom_outside d 0 s.chip.array fun k hk => by rw [Nat.zero_add]; exact hx k hk

/-! ### The erases -/

section
variable {base size : Nat} {c : Chip}

theorem eraseRegion_ignored (h : chipBusy c = true ∨ chipWel c = false) : eraseRegion base size c = c := by
  obtain h | h := h <;> simp [eraseRegion, h]

/-- With BUSY = 0 and WEL = 1 the protection of the region decides (R211). -/
theorem eraseRegion_enabled (hb : chipBusy c = false) (hw : chipWel c = true) : eraseRegion base size c =
    if regionProtected c base size then setWel false c
    else setBusy true { c with array := c.array.erase base size } := by
  simp only [eraseRegion, hb, hw, Bool.not_false, Bool.and_self, if_true]

end

/-- Each erase is the erase of its region, the block or the sector of the header's address or the whole array. -/
theorem exec_erase_of_mem {a2 a1 a0 : Byte} {i : Instr} {base size : Nat}
    (h : (i, base, size) ∈ [(Instr.wireBe a2 a1 a0, a2.toNat * 65536, 65536),
      (.wireSe a2 a1 a0, a2.toNat * 65536 + a1.toNat / 16 * 4096, 4096), (.wireCe, 0, 16777216)]) (s : State) :
    exec i s = chipCommand (eraseRegion base size) s := by
  simp only [List.mem_cons, Prod.mk.injEq, List.not_mem_nil, or_false] at h
  obtain ⟨rfl, rfl, rfl⟩ | ⟨rfl, rfl, rfl⟩ | ⟨rfl, rfl, rfl⟩ := h
  · rw [← blockBase_header a2 a1 a0]
    rfl
  · rw [← sectorBase_header a2 a1 a0]
    rfl
  · rfl

/-- Settles O46: ignored, refused, or accepted (`Memory.erase` gives the array). -/
theorem wireErase : Obligations.WireErase := by
  intro s a2 a1 a0 i base size hi
  rw [exec_erase_of_mem hi s]
  refine ⟨fun h => chipCommand_effect (eraseRegion_ignored h), fun hb hw hp => ?refused, fun hb hw hp => ?accepted⟩
  case refused => exact chipCommand_effect ((eraseRegion_enabled hb hw).trans (if_pos hp))
  case accepted =>
    exact ⟨s.chip.array.erase base size,
      chipCommand_effect ((eraseRegion_enabled hb hw).trans (if_neg (ne_true_of_eq_false hp))),
      fun x hlow hhigh => Memory.read_erase_inside s.chip.array hlow hhigh,
      fun x hx => Memory.read_erase_outside s.chip.array hx⟩

/-! ### The lock commands -/

section
variable {s : State} {f : Chip → Chip}

/-- A lock command that is not accepted has no effect but its end (R213). -/
theorem lockCommand_not_accepted (h : (!chipBusy s.chip && chipWel s.chip && chipWps s.chip) = false) :
    chipCommand (lockCommand s.cfg f) s = .next (s.setChip { s.chip with rstEn := false, closed := none }) :=
  chipCommand_effect (if_neg (ne_true_of_eq_false h))

/-- An accepted lock command writes the lock bits, and clears WEL under `LOCK_CLEARS_WEL` (R213). -/
theorem lockCommand_accepted {l : BitVec 256} (h : (!chipBusy s.chip && chipWel s.chip && chipWps s.chip) = true)
    (hf : f s.chip = { s.chip with lock := l }) : chipCommand (lockCommand s.cfg f) s =
      .next (s.setChip (if s.cfg.lockClearsWel then setWel false { s.chip with lock := l, rstEn := false, closed := none }
        else { s.chip with lock := l, rstEn := false, closed := none })) := by
  have heffect : lockCommand s.cfg f s.chip = if s.cfg.lockClearsWel then setWel false (f s.chip) else f s.chip := if_pos h
  rw [chipCommand_effect heffect, hf]
  cases s.cfg.lockClearsWel <;> rfl

end

/-- Settles O47: block-lock and block-unlock put one lock bit, global-unlock clears all. -/
theorem wireLockCommands : Obligations.WireLockCommands := by
  intro s a2 a1 a0 ok after
  refine ⟨fun hok i hi => ?ignored, fun hok => ⟨⟨_, lockCommand_accepted hok rfl, fun b hb => ?lock⟩,
    ⟨_, lockCommand_accepted hok rfl, fun b hb => ?unlock⟩, ⟨_, lockCommand_accepted hok rfl, fun b => ?unlockAll⟩⟩⟩
  case ignored =>
    simp only [List.mem_cons, List.not_mem_nil, or_false] at hi
    rcases hi with rfl | rfl | rfl <;> exact lockCommand_not_accepted hok
  case lock => exact getLsbD_setLockBit s.chip a2.toNat b true hb
  case unlock => exact getLsbD_setLockBit s.chip a2.toNat b false hb
  case unlockAll => exact BitVec.getLsbD_zero

/-! ### The reset commands -/

/-- What reset-device leaves in bits 7:2 of register 1 (R215). -/
theorem resetDevice_sr1_high (image : Config.ChipImage) (c : Chip) {k : Nat} (hlow : 2 ≤ k) (hhigh : k < 8) :
    (resetDevice image c).sr1.getLsbD k = image.sr1.getLsbD k := by
  have hkept : (0xFC : Byte).getLsbD k = true := by interval_cases k <;> rfl
  rw [resetDevice, BitVec.getLsbD_and, hkept, Bool.and_true]

/-- Settles O48: BUSY decides about enable-reset, BUSY and `rst_en` about reset-device, which leaves the drawn image. -/
theorem wireResetCommands : Obligations.WireResetCommands := by
  refine fun s => ⟨?enable, fun h => ?ignored, fun hb hr => ?accepted⟩
  case enable =>
    rw [or_not_eq_ite]
    rfl
  case ignored =>
    refine if_neg ?_
    obtain h | h := h <;> simp [h]
  case accepted =>
    have hok : (!chipBusy s.chip && s.chip.rstEn) = true := by rw [hb, hr]; rfl
    exact ⟨_, if_pos hok, chipWel_resetDevice _ s.chip, chipBusy_resetDevice _ s.chip, rfl, rfl, rfl, rfl, rfl,
      fun k hlow hhigh => resetDevice_sr1_high _ s.chip hlow hhigh, rfl, rfl, rfl, rfl⟩

/-! ### A busy chip -/

/-- While BUSY a wire command leaves the chip as it was, but that its frame is done and `rst_en` is at most cleared. -/
theorem busy_chip_kept {i : Instr} {s t : State} (hi : isHost i = false) (hb : chipBusy s.chip = true)
    (h : exec i s = .next t) :
    ∃ b : Bool, t.chip = { s.chip with rstEn := b, closed := none } ∧ (b = true → s.chip.rstEn = true) := by
  obtain ⟨hhost, -⟩ | ⟨-, ht⟩ | ⟨-, -, c, hc, ht⟩ := exec_chip_cases h
  · exact absurd hi (ne_false_of_eq_true hhost)
  · rw [if_pos hb] at ht
    exact ⟨s.chip.rstEn, ht, id⟩
  · rw [hc.eq_of_busy hb] at ht
    exact ⟨false, ht, fun hset => absurd hset Bool.false_ne_true⟩

/-- Settles O49: of the state a wire command changes the chip, and its draws only by an accepted reset-device, for which
the chip is not BUSY. -/
theorem busyChipIgnoresCommands : Obligations.BusyChipIgnoresCommands := by
  intro i s hi hb
  obtain ⟨c, e, h, -, -⟩ := exec_wire hi s
  obtain ⟨b, hchip, hrst⟩ := busy_chip_kept hi hb h
  refine ⟨b, h.trans (congrArg Host.Outcome.next ?_), hrst⟩
  rw [← hchip]
  obtain ⟨f, ht, -⟩ | ⟨-, ht⟩ | ⟨-, hidle, -⟩ := exec_wire_cases hi h
  · rw [ht]; rfl
  · rw [ht]; rfl
  · exact absurd hb (ne_true_of_eq_false hidle)

end Sys2Proof.Machine
end

section
/-!
PROOF. The statements of 60_exceptions: the ghost part influences nothing, what validation rejects, what a failed
bracket does to an operation, how a failed operation ends, and the poll that never sees its bit clear.
-/

namespace Sys2Proof.Machine

/-! ### The ghost cause and the trace -/

section
variable (s : State)
@[simp] theorem dropGhost_cfg : (dropGhost s).cfg = s.cfg := rfl
@[simp] theorem dropGhost_inbox : (dropGhost s).inbox = s.inbox := rfl
@[simp] theorem dropGhost_phase : (dropGhost s).phase = s.phase := rfl
@[simp] theorem dropGhost_csN : (dropGhost s).csN = s.csN := rfl
@[simp] theorem dropGhost_chip : (dropGhost s).chip = s.chip := rfl
@[simp] theorem resetAsserted_dropGhost : resetAsserted (dropGhost s) = resetAsserted s := rfl
end

/-- What `f` does, up to the ghost part of its outcome, does not depend on the ghost part of the state (R230). -/
def GhostBlind (f : State → Out) : Prop := ∀ s, dropGhostOut (f s) = dropGhostOut (f (dropGhost s))

/-- A ghost-blind meaning gives states that differ in their ghost part alone the same outcome. -/
theorem GhostBlind.congr {f : State → Out} (h : GhostBlind f) {s t : State} (hst : dropGhost s = dropGhost t) :
    dropGhostOut (f s) = dropGhostOut (f t) := by
  rw [h s, h t, hst]

section
variable (prog : List Micro) (ph : Phase)

theorem advance_ghostBlind : GhostBlind fun s => .next (advance prog ph s) := by
  intro s
  simp only [advance]
  split <;> rfl

theorem useBytes_ghostBlind (u : Use) : GhostBlind fun s => .next (useBytes prog ph u s) := by
  intro s
  have goesOn := advance_ghostBlind prog
  cases u with
  | discard => exact goesOn ph s
  | keepOld => exact goesOn _ s
  | toRval => exact goesOn ph (s.setResp _)
  | toRxbuf => exact goesOn ph (s.setResp _)
  | expectBit i v c => simp only [useBytes]; split <;> [exact goesOn ph s; rfl]
  | expectMasked mask value => simp only [useBytes]; split <;> [exact goesOn ph s; rfl]
  | verify tx => simp only [useBytes]; split <;> [exact goesOn ph (s.setResp _); rfl]
  | refuseLocked bit target => simp only [useBytes]; split <;> [rfl; exact goesOn ph s]

theorem judge_ghostBlind (m : Micro) : GhostBlind fun s => .next (judge prog ph m s) := by
  intro s
  cases m with
  | delay us => rfl
  | send tx => simp only [judge]; split <;> [exact advance_ghostBlind prog ph s; rfl]
  | query tx n u => simp only [judge]; split <;> [exact useBytes_ghostBlind prog ph u s; rfl]
  | poll op bit =>
    simp only [judge, dropGhost_cfg]
    split
    · split <;> [rfl; exact advance_ghostBlind prog ph s]
    · split <;> rfl

theorem exchangeStep_ghostBlind (tx : List Byte) (next : Bool → Stage) : GhostBlind (exchangeStep tx ph next) := by
  intro s
  simp only [exchangeStep]
  rw [dropGhost_csN]
  split <;> rfl

theorem csHigh_ghostBlind (v : Option Phase) : GhostBlind fun s => .next ((csHigh s).setPhase v) := by
  intro s
  simp only [csHigh, closeBracket]
  rw [dropGhost_csN]
  split <;> rfl

theorem bracketStep_ghostBlind (m : Micro) (tx : List Byte) : GhostBlind (bracketStep prog ph m tx) := by
  intro s
  cases hst : ph.stage <;> simp only [bracketStep, hst]
  case low => rw [dropGhost_csN]; split <;> rfl
  case send => exact exchangeStep_ghostBlind ph tx _ s
  case recv => split <;> [exact exchangeStep_ghostBlind ph _ _ s; rfl]
  case high => exact csHigh_ghostBlind _ s
  case judge => exact judge_ghostBlind prog ph m s

theorem microStep_ghostBlind (m : Micro) : GhostBlind (microStep prog ph m) := by
  intro s
  cases m with
  | delay us =>
    simp only [microStep]
    split <;> [exact (advance_ghostBlind prog ph).congr rfl; rfl]
  | poll op bit => exact bracketStep_ghostBlind prog ph _ _ s
  | send tx => exact bracketStep_ghostBlind prog ph _ _ s
  | query tx n u => exact bracketStep_ghostBlind prog ph _ _ s

theorem runHost_ghostBlind : GhostBlind (runHost prog) := by
  intro s
  simp only [runHost, dropGhost_phase]
  split
  · rfl
  · split <;> [exact microStep_ghostBlind prog _ _ s; rfl]

end

/-- A wire command looks at the chip, the parameters and the drawn image alone. -/
theorem exec_wire_ghostBlind {i : Instr} (hi : isHost i = false) : GhostBlind (exec i) := by
  intro s
  cases i
  case wireRst =>
    simp only [exec, execWireRst]
    rw [dropGhost_chip]
    split <;> rfl
  case init | statusRegWrite | statusRegRead | writeEnable | volatileWriteEnable | reset | read | pageProgram |
      blockErase | sectorErase | chipErase | blockLock | blockUnlock | reserved13 | reserved14 | reserved15 => cases hi
  all_goals rfl

theorem exec_ghostBlind (i : Instr) : GhostBlind (exec i) := by
  cases hi : isHost i with
  | false => exact exec_wire_ghostBlind hi
  | true =>
    intro s
    rw [exec_host hi, exec_host hi]
    cases rejectCause i with
    | some c => rfl
    | none => exact runHost_ghostBlind _ s

theorem blockReset_ghostBlind : GhostBlind fun s => .next (blockReset s) := by
  intro s
  simp only [blockReset, closeBracket]
  rw [dropGhost_csN]
  split <;> rfl

theorem runRequest_ghostBlind (r : Request) : GhostBlind (runRequest r) := by
  intro s
  simp only [runRequest, dropGhost_cfg]
  split <;> [exact exec_ghostBlind _ s; rfl]

theorem runFrame_ghostBlind (f : List Byte) : GhostBlind (runFrame f) := by
  intro s
  simp only [runFrame, dropGhost_cfg]
  split <;> [exact exec_ghostBlind _ s; rfl]

theorem blockStep_ghostBlind : GhostBlind blockStep := by
  intro s
  simp only [blockStep, dropGhost_phase, dropGhost_inbox]
  split
  · exact runRequest_ghostBlind s.req s
  · split
    · exact (runRequest_ghostBlind _).congr rfl
    · rfl

/-- Settles O30: each branch of a step is chosen by fields other than the ghost part and is ghost-blind; taking a request
adds the event `Req` to the trace, which is ghost. -/
theorem ghostInfluencesNothing : Obligations.GhostInfluencesNothing := by
  intro s
  simp only [step]
  rw [dropGhost_chip, resetAsserted_dropGhost]
  split
  · exact runFrame_ghostBlind _ s
  · split
    · exact blockReset_ghostBlind (stepBase s)
    · exact blockStep_ghostBlind (stepBase s)

/-! ### Validation -/

/-- A request that validation rejects is answered at once (R236). -/
theorem exec_rejected {i : Instr} {c : Cause} (hi : isHost i = true) (hr : rejectCause i = some c) (s : State) :
    Rejects c s (exec i s) := by
  rw [exec_host hi, hr]
  exact raiseCause_rejects c none s

/-- Settles O6: each of these requests has operands that validation rejects. -/
theorem invalidRequestsRejected : Obligations.InvalidRequestsRejected := by
  intro s
  refine ⟨fun b sec pg off len h => ?read, fun b sec pg off tx h => ?pageProgram, fun b sec h => ?sectorErase,
    fun m v => exec_rejected rfl rfl s, exec_rejected rfl rfl s, exec_rejected rfl rfl s, exec_rejected rfl rfl s,
    exec_rejected rfl rfl s⟩
  case read =>
    have hcoords : ¬(sec.toNat ≤ 15 ∧ pg.toNat ≤ 15) := by omega
    exact exec_rejected rfl (by simp [rejectCause, validCoords_eq, hcoords]) s
  case pageProgram =>
    have hbounds : ¬((sec.toNat ≤ 15 ∧ pg.toNat ≤ 15) ∧ tx.length ≤ 256 ∧ off.toNat + tx.length ≤ 256) := by omega
    refine exec_rejected rfl ?_ s
    rw [rejectCause, validCoords_eq, validProgram_eq, ← Bool.decide_and, decide_eq_false hbounds]
    rfl
  case sectorErase =>
    have hcoords : ¬sec.toNat ≤ 15 := by omega
    exact exec_rejected rfl (by simp [rejectCause, validCoords_eq, hcoords]) s

/-! ### A failed bracket -/

/-- A step that can be judged has a bracket. -/
theorem exists_sentBytes_of_judge {m : Micro} (h : stageFits m .judge) : ∃ tx, sentBytes m = some tx := by
  cases m with
  | delay us => cases h
  | poll op bit => exact ⟨_, rfl⟩
  | send tx => exact ⟨_, rfl⟩
  | query tx n u => exact ⟨_, rfl⟩

/-- A failed bracket is judged a transport failure, but that of a poll that retries (R130, R231). -/
theorem judge_failed {prog : List Micro} {ph : Phase} {m : Micro} {s : State} (hf : stageFits m .judge)
    (hok : ph.ok = false) (h : (∀ op bit, m ≠ .poll op bit) ∨ s.cfg.pollFail = .abort) :
    judge prog ph m s = raiseCause .transportFailure none s := by
  cases m with
  | delay us => cases hf
  | send tx => simp [judge, hok]
  | query tx n u => simp [judge, hok]
  | poll op bit =>
    obtain h | h := h
    · exact absurd rfl (h op bit)
    · simp [judge, hok, h]

/-- Settles O15: by `judge_failed`, and a poll's own judgement under `POLL_FAIL` = retry. -/
theorem firstFailureEndsOperation : Obligations.FirstFailureEndsOperation := by
  intro i s ph m hi hr hp hm hf hst hok
  rw [hst] at hf
  obtain ⟨tx, htx⟩ := exists_sentBytes_of_judge hf
  rw [exec_judged hi hr hp hst hm htx]
  refine ⟨fun h => ?fails, ?retries⟩
  case fails =>
    rw [judge_failed hf hok h]
    exact raiseCause_rejects .transportFailure none s
  case retries =>
    rintro op bit rfl hretry
    simp [judge, hok, hretry]

/-! ### The failure exit -/

/-- A pseudocode step that is done ends the operation only with `OK = 1`. -/
theorem advance_ends_ok {prog : List Micro} {ph : Phase} {s : State} (h : (advance prog ph s).phase = none) :
    (advance prog ph s).resp.ok = true := by
  obtain ⟨-, e⟩ | ⟨-, e⟩ := advance_cases prog ph s <;> rw [e] at h ⊢
  · cases h
  · rfl

/-- A running operation that ends with `OK = 0` has taken the failure exit (R242). -/
theorem exec_fails_by_raiseCause {i : Instr} {s t : State} (hi : isHost i = true) (hp : s.phase ≠ none)
    (h : exec i s = .next t) (ht : t.phase = none) (hok : t.resp.ok = false) : ∃ c v, t = raiseCause c v s := by
  have notDone {prog : List Micro} {ph : Phase} {u : State} (e : t = advance prog ph u) : False := by
    subst e
    rw [advance_ends_ok ht] at hok
    cases hok
  obtain ⟨c, -, rfl⟩ | ⟨-, hidle, -⟩ | ⟨-, ph, m, -, -, h⟩ := exec_host_cases hi h
  · exact ⟨c, none, rfl⟩
  · exact absurd hidle hp
  · obtain ⟨us, -, -, e⟩ | ⟨-, -, -, rfl⟩ | ⟨tx, nx, -, rfl, -⟩ | ⟨-, -, rfl⟩ | ⟨-, hd, e⟩ := microStep_cases h
    · exact (notDone e).elim
    · cases ht
    · cases ht
    · cases ht
    · obtain ⟨old, r, e', -⟩ | ⟨c, v, e'⟩ | e' := judge_cases _ ph m s hd <;> rw [e'] at e
      · exact (notDone e).elim
      · exact ⟨c, v, e⟩
      · rw [e] at ht
        cases ht

/-- Settles O22: the failure exit is the only way to end with `OK = 0`. -/
theorem failureExit : Obligations.FailureExit := by
  intro i s t hi hp h ht hok
  obtain ⟨c, v, rfl⟩ := exec_fails_by_raiseCause hi hp h ht hok
  exact ⟨rfl, Option.some_ne_none c, rfl, rfl, rfl⟩

/-! ### A poll without end -/

/-- Runs compose, with their numbers of steps. -/
theorem runSteps_add {m n : Nat} {s u : State} (h : runSteps m s = .next u) : runSteps (m + n) s = runSteps n u := by
  induction m generalizing s with
  | zero => rw [Nat.zero_add, Host.Outcome.next.inj h]
  | succ m ih =>
    obtain ⟨v, hv, h⟩ := runSteps_succ h
    rw [Nat.succ_add, runSteps_succ_next _ hv, ih h]

theorem Calm.add (c : Chip) (m n : Nat) (k : List Bool) : Calm c (m + n) k = Calm c m (Calm c n k) := by
  unfold Calm
  split
  · rw [← List.append_assoc, List.replicate_append_replicate]
  · rfl

/-- `n` turns of a poll that sees its bit set, while the chip's cycle goes on: back where it was. -/
theorem Ctx.turns {p : Config.Params} {r : Request} {l : List Config.LinkOutcome} {k : List Bool} {i : Instr}
    {pc bit : Nat} {old : Byte} (ho : p.ops.Distinct) (hd : decode p (.request r) = .ok i) (hr : rejectCause i = none)
    (hm : (hostSteps p old i)[pc]? = some (.poll p.ops.rdsr1 bit)) (n : Nat) :
    ∀ {c : Chip} {fs : List (List Byte)} {s : State},
      Ctx p r c (List.replicate (2 * n) .delivered ++ l) (Calm c (7 * n) k) fs (phaseAt pc old) true s →
      c.closed = none → c.sr1.getLsbD bit = true →
      ∃ t d, runSteps (6 * n) s = .next t ∧ t.resp = s.resp ∧ d.sr1 = c.sr1 ∧
        Ctx p r d l (Calm c 0 k) ((List.replicate n [[p.ops.rdsr1], [0x00]]).flatten.reverse ++ fs) (phaseAt pc old)
          true t := by
  induction n with
  | zero => exact fun {c _ s} h _ _ => ⟨s, c, rfl, rfl, rfl, h⟩
  | succ n ih =>
    intro c fs s h hc hbit
    have hcalm : Calm c (7 * (n + 1)) k = Calm c 7 (Calm c (7 * n) k) := by rw [Nat.mul_succ, Nat.add_comm, Calm.add]
    rw [hcalm] at h
    obtain ⟨t, e, hresp, h'⟩ := h.turn hc ho hd hr hm hbit
    obtain ⟨u, d, e', hresp', hsr1, h''⟩ := ih h' rfl hbit
    refine ⟨u, d, ?_, hresp'.trans hresp, hsr1, ?_⟩
    · rw [Nat.mul_succ, Nat.add_comm, runSteps_add e, e']
    · rw [List.replicate_succ, List.flatten_cons, List.reverse_append, List.append_assoc]
      exact h''

/-- Settles O33: `n` turns of the poll, by induction on `n`. -/
theorem stuckChipHangs : Obligations.StuckChipHangs := by
  rintro n i s bit pc old hd hr hp hm hcs hc hrst ha ho hbit ⟨l, hlink⟩ hcycle
  obtain ⟨k, hk⟩ : ∃ k, s.env.complete = Calm s.chip (7 * n) k := by
    unfold Calm
    split
    · exact hcycle ‹_›
    · exact ⟨_, rfl⟩
  have hstart : Ctx s.cfg s.req s.chip _ _ _ (phaseAt pc old) true s :=
    ⟨rfl, rfl, hrst, rfl, ha, hlink, hk, rfl, hp, hcs⟩
  obtain ⟨t, d, e, hresp, hsr1, h⟩ := hstart.turns ho hd hr hm n hc hbit
  exact ⟨t, e, h.phase, hresp, h.req, (congrArg Chip.sr1 h.chip).trans hsr1, h.sent⟩

end Sys2Proof.Machine
end

section
/-!
PROOF. The statements of 70_reset_and_hazards: a reset of the block, and the fixed delays.
-/

namespace Sys2Proof.Machine

/-- Settles O28: the reset closes an open bracket at the chip that the step's point of completion has left; with the line
inactive that chip has no closed frame. -/
theorem blockResetSparesChip : Obligations.BlockResetSparesChip := by
  intro s hc hreset
  obtain ⟨hphase, hline, htrace, hinbox, hcfg, -, hchip⟩ := blockReset_fields (stepBase s)
  have hclosed : (tick s.world).chip.closed = none := (tick_settled s.world).closed.trans hc
  refine ⟨blockReset (stepBase s), by simp [step, hc, hreset], by rw [State.run, hphase]; rfl, hline, htrace, hinbox,
    hcfg, ?_⟩
  rw [hchip, stepBase_csN, stepBase_chip]
  cases s.csN with
  | true => simp only [if_true, ← hclosed]
  | false => rfl

/-! ### The fixed delays -/

/-- A delay that is not the last step: its event, and on to the next step (R250). -/
theorem exec_delay {i : Instr} {s : State} {pc us : Nat} {old : Byte} (hi : isHost i = true) (hr : rejectCause i = none)
    (hm : (hostSteps s.cfg old i)[pc]? = some (.delay us)) (hlen : pc + 1 < (hostSteps s.cfg old i).length)
    (hp : s.phase = some (phaseAt pc old)) :
    exec i s = .next (emit (.d us) (s.setPhase (some (phaseAt (pc + 1) old)))) := by
  rw [exec_running hi hr hp hm]
  exact congrArg Host.Outcome.next (advance_next (ph := phaseAt pc old) hlen (delayUs us s))

/-- Where an operation waits, and how many microseconds (R274). -/
def fixedDelay : Instr → Option (Nat × Nat)
  | .statusRegWrite _ _ _ => some (5, Config.tSrwUs)
  | .init => some (6, Config.tSrwUs)
  | .reset => some (6, Config.tRstUs)
  | .chipErase => some (5, Config.tCeUs)
  | _ => none

/-- The position and the time of a numbered step that is a delay. -/
def delayAt : Micro × Nat → Option (Nat × Nat)
  | (.delay us, pc) => some (pc, us)
  | _ => none

/-- The delays of an operation's pseudocode, with their positions, are the one of `fixedDelay`. -/
theorem hostSteps_delays (p : Config.Params) (old : Byte) (i : Instr) :
    (hostSteps p old i).zipIdx.filterMap delayAt = (fixedDelay i).toList := by
  cases i <;> rfl

theorem fixedDelay_of_step {p : Config.Params} {old : Byte} {i : Instr} {pc us : Nat}
    (h : (hostSteps p old i)[pc]? = some (.delay us)) : fixedDelay i = some (pc, us) := by
  have hmem : (pc, us) ∈ (hostSteps p old i).zipIdx.filterMap delayAt :=
    List.mem_filterMap.2 ⟨(.delay us, pc), List.mk_mem_zipIdx_iff_getElem?.2 h, rfl⟩
  rwa [hostSteps_delays, Option.mem_toList] at hmem

/-- Settles O18: each delay and its neighbours are read off the pseudocode, `exec_delay` says what its step does, and
`fixedDelay_of_step` that there is no other. -/
theorem fixedDelays : Obligations.FixedDelays := by
  intro s old mask value reg r hreg t between
  have hsteps := hostSteps_statusRegWrite hreg s.cfg old mask value
  refine ⟨⟨by rw [hsteps]; rfl, by rw [hsteps]; rfl, fun hp => ?statusRegWrite⟩, ⟨rfl, rfl, fun hp => ?init⟩,
    ⟨rfl, rfl, fun hp => ?reset⟩, ⟨rfl, rfl, fun hp => ?chipErase⟩, fun i pc us _ hm => ?noOther⟩
  case statusRegWrite =>
    exact exec_delay rfl (rejectCause_statusRegWrite hreg mask value) (by rw [hsteps]; rfl)
      (by rw [hsteps]; exact (by decide : 6 < 9)) hp
  case init => exact exec_delay rfl rfl rfl (by decide : 7 < 14) hp
  case reset => exact exec_delay rfl rfl rfl (by decide : 7 < 8) hp
  case chipErase => exact exec_delay rfl rfl rfl (by decide : 6 < 8) hp
  case noOther =>
    have h := fixedDelay_of_step hm
    cases i
    case statusRegWrite => cases h; exact .inl ⟨⟨_, _, _, rfl⟩, rfl, rfl⟩
    case init => cases h; exact .inr (.inl ⟨rfl, rfl, rfl⟩)
    case reset => cases h; exact .inr (.inr (.inl ⟨rfl, rfl, rfl⟩))
    case chipErase => cases h; exact .inr (.inr (.inr ⟨rfl, rfl, rfl⟩))
    all_goals cases h

end Sys2Proof.Machine
end
